-- ==== Sys2Proof/Word.lean ====
section
/-! DEFINITION. The two word types of the FDL core: a byte of the host bus and a 64-bit word
(R65, R67; an FMT value is carried as its binary64 bit pattern). -/

namespace Sys2Proof

/-- One byte lane of the host bus (R67). -/
abbrev Byte := BitVec 8

/-- A 64-bit word: a bus data word, a register image, or the bit pattern of an FMT value (R8, R67). -/
abbrev Word := BitVec 64

end Sys2Proof
end

