-- ==== Sys2Proof/Config.lean ====
section
/-! DEFINITION. What an implementation fixes (00_scope.md R8) and the values the spec leaves free.
The free values are opaque constants without a body: no proof can learn what they are. -/

namespace Sys2Proof.Config

/-- MAX_CAPACITY: words of history memory physically present (R8, D26). -/
def maxCapacity : Nat := 262144

/-- FRAME_MEM_WORDS: words of frame memory (R8, D26). -/
def frameMemWords : Nat := 65536

/-- Byte offset of frame word 0 on the host bus (R64). -/
def frameBase : Nat := 0x1000

/-- First byte offset past the frame memory (R64, R79). -/
def frameEnd : Nat := frameBase + 8 * frameMemWords

/-- The constant held by register ID (R2, R21). -/
def idWord : Word := 0x3145524F434C4446#64

/-- TWO_PI: the binary64 value nearest to 2π (R8, R143). -/
def twoPi : Word := 0x401921FB54442D18#64

/-- The free FMT values of a step, `draw()` of the spec (R13): `freeFmt n k` is the value the k-th
operation of the step that finds the draw counter at n takes where the spec leaves its result open: the
sign and payload of a NaN result (R18), WET after a non-finite read position (R166), a frame read
while BUSY (R282). DESIGN CHOICE, safe: log 6. -/
opaque freeFmt : Nat → Nat → Word

/-- The contents of frame memory after the n-th reset, byte by byte, `draw()` per word (R38, R350).
DESIGN CHOICE, safe: log 5. -/
opaque frameInit : Nat → Nat → Byte

/-- The raw sine of this implementation, an OPEN parameter (R8, R142). The machine uses it through
`Machine.fmtSin`, which keeps only the functions R142 admits. DESIGN CHOICE, safe: log 7. -/
opaque sin : Word → Word

end Sys2Proof.Config
end

