-- ==== Sys2Proof/Syntax.lean ====
section
/-! DEFINITION. The instructions of the FDL core, one constructor per row of spec/opcode_table.json
(R3, R90), and the encoded things they are read from: bus transactions, command words, sequencer states. -/

namespace Sys2Proof

/-- The three encoded forms (R90). -/
inductive Form where
  /-- A host bus transaction (R91). -/
  | bus
  /-- The 64-bit data of a write to CMD (R92). -/
  | cmd
  /-- The SEQ_STATE field (R100). -/
  | seq
deriving DecidableEq, Repr

/-- The sixteen registers of the host bus map, in offset order (R64). -/
inductive Reg where
  | id | status | cmd | sampleRate | capacity | cursor | phase | delaySecs
  | feedback | wetmix | amount | rate | interpMode | seq | dbgIndex | dbgData
deriving DecidableEq, Repr

/-- The eight sequencer states (R100). -/
inductive SeqState where
  | idle | start | fdlRead | downmix | upmix | writeback | cursorAdv | oscAdv
deriving DecidableEq, Repr

/-- One host bus transaction (R91): the descriptor {W, OFFSET}, the size indication and the data.
`lanesOff` has one bit per byte lane, 1 where the lane is NOT enabled, so 0 is the only 8-byte
access (R65; the wire form of the size is a DESIGN CHOICE, log 10). -/
structure Transaction where
  /-- W: true for a write (R91). -/
  write : Bool
  /-- OFFSET: the byte offset from the block's base (R91). -/
  offset : BitVec 24
  /-- Disabled byte lanes; 0 is a full 8-byte access (R65). -/
  lanesOff : BitVec 8
  /-- The data of a write (R91). -/
  data : Word
deriving DecidableEq, Repr

/-- A decoded command word (R92 to R95). -/
inductive Command where
  | nop
  | prepare
  /-- CH and FRAMES (R94). -/
  | process (ch : BitVec 8) (frames : BitVec 20)
  /-- Any word that is not well formed (R95). -/
  | reserved (w : Word)
deriving DecidableEq, Repr

/-- The instructions: bus operations, commands and sequencer states (R3). -/
inductive Instr where
  -- BUS: one read and one write per register of the map (R64)
  | rdId
  | wrId (data : Word)
  | rdStatus
  | wrStatus (data : Word)
  | rdCmd
  | wrCmd (w : Word)
  | rdSampleRate
  | wrSampleRate (v : Word)
  | rdCapacity
  | wrCapacity (data : Word)
  | rdCursor
  | wrCursor (data : Word)
  | rdPhase
  | wrPhase (data : Word)
  | rdDelaySecs
  | wrDelaySecs (v : Word)
  | rdFeedback
  | wrFeedback (v : Word)
  | rdWetmix
  | wrWetmix (v : Word)
  | rdAmount
  | wrAmount (v : Word)
  | rdRate
  | wrRate (v : Word)
  | rdInterpMode
  | wrInterpMode (v : Word)
  | rdSeq
  | wrSeq (data : Word)
  | rdDbgIndex
  | wrDbgIndex (v : Word)
  | rdDbgData
  | wrDbgData (data : Word)
  -- BUS: frame memory, and every transaction the access check refuses
  | rdFrame (i : Nat)
  | wrFrame (i : Nat) (v : Word)
  | busIllegal (write : Bool) (offset : BitVec 24) (lanesOff : BitVec 8) (data : Word)
  -- CMD
  | cmdNop
  | cmdPrepare
  | cmdProcess (ch : BitVec 8) (frames : BitVec 20)
  | cmdReserved (w : Word)
  -- SEQ
  | seqIdle
  | seqStart
  | seqFdlRead
  | seqDownmix
  | seqUpmix
  | seqWriteback
  | seqCursorAdv
  | seqOscAdv
deriving DecidableEq, Repr

end Sys2Proof
end

