-- ==== Sys2Proof/Machine/State.lean ====
section
/-! DEFINITION. The state of the FDL core (10_state.md R20 to R45) as plain data, why a step can stop,
and the state after reset. The environment's part (the Host's pending program, whose turn it is) and
the counters of the free values stand at the end of State and are the model's own. -/

namespace Sys2Proof.Machine

/-- The interpolation the MODE field selects; the register never holds 2 or 3 (R33, R171). -/
inductive InterpMode where
  | linear
  | cubic
deriving DecidableEq, Repr

/-- The eight error causes, each the name of a sticky STATUS bit (R311). -/
inductive ErrorCause where
  | cmd | busy | prepare | channels | block | nonfinite | access | dbg
deriving DecidableEq, Repr

/-- The fields of STATUS (R22). The reserved bits read 0 and hold nothing. -/
structure Status where
  /-- Bit 0: the readiness flag. -/
  ready : Bool
  /-- Bit 1: a PROCESS command is being carried out. -/
  busy : Bool
  /-- Bit 8, ERR_CMD. -/
  errCmd : Bool
  /-- Bit 9, ERR_BUSY. -/
  errBusy : Bool
  /-- Bit 10, ERR_PREPARE. -/
  errPrepare : Bool
  /-- Bit 11, ERR_CHANNELS. -/
  errChannels : Bool
  /-- Bit 12, ERR_BLOCK. -/
  errBlock : Bool
  /-- Bit 13, ERR_NONFINITE. -/
  errNonfinite : Bool
  /-- Bit 14, ERR_ACCESS. -/
  errAccess : Bool
  /-- Bit 15, ERR_DBG. -/
  errDbg : Bool
deriving DecidableEq, Repr

/-- One pending item of the Host's program: a transaction, or the polling loop WAIT (R66, R102). -/
inductive HostItem where
  | transaction (t : Transaction)
  | wait
deriving DecidableEq, Repr

/-- Whose step comes next in the interleaving (R14, R70); `reset` is the platform asserting the core's
reset input (R350). -/
inductive Turn where
  | host
  | sequencer
  | reset
deriving DecidableEq, Repr

/-- Frame memory: (byte offset on the host bus, byte), in the canonical form `Memory.wf`. A byte
nothing has written since reset is not listed (R38). -/
abbrev Memory := List Host.Cell

/-- The history memory: (word index, word), in the canonical form `History.wf`. A word not listed
holds +0.0 (R37, R61). -/
abbrev History := List (Nat × Word)

/-- Everything the spec gives the machine (R20), and the model's own fields after it. -/
structure State where
  /-- STATUS (R22). -/
  status : Status
  /-- SAMPLE_RATE, FMT (R24). -/
  sampleRate : Word
  /-- CAPACITY, the history length (R25). -/
  capacity : BitVec 32
  /-- CURSOR, the write cursor (R26). -/
  cursor : BitVec 32
  /-- PHASE, FMT, in cycles (R27). -/
  phase : Word
  /-- DELAY_SECS, FMT (R28). -/
  delaySecs : Word
  /-- FEEDBACK, FMT (R29). -/
  feedback : Word
  /-- WETMIX, FMT (R30). -/
  wetmix : Word
  /-- AMOUNT, FMT (R31). -/
  amount : Word
  /-- RATE, FMT (R32). -/
  rate : Word
  /-- INTERP_MODE.MODE (R33). -/
  interpMode : InterpMode
  /-- SEQ.SEQ_STATE (R34, R100). -/
  seqState : SeqState
  /-- SEQ.BLK_CH (R34). -/
  blkCh : BitVec 8
  /-- SEQ.BLK_FRAMES (R34). -/
  blkFrames : BitVec 20
  /-- SEQ.FRAME_IDX (R34). -/
  frameIdx : BitVec 20
  /-- DBG_INDEX (R35). -/
  dbgIndex : BitVec 32
  /-- H, the history memory (R37). -/
  hist : History
  /-- FRAME, the frame memory (R38). -/
  frame : Memory
  /-- WET, tick register (R39). -/
  wet : Word
  /-- MONO_IN, tick register (R39). -/
  monoIn : Word
  /-- The model's: the value the Host's latest read transaction returned (R66; log 2). -/
  readData : Word
  /-- The model's: the Host's pending program, oldest first (R101, R102; log 4). -/
  host : List HostItem
  /-- The model's: who moves next (R70; log 3). -/
  turns : List Turn
  /-- The model's: how many steps have drawn free values (R13, R18; log 6). -/
  draws : Nat
  /-- The model's: how many resets there have been (R350; log 5). -/
  epoch : Nat
deriving DecidableEq, Repr

/-- Why a step stops. The hardware has no trap (R310); these are the calls the spec says no conforming
run makes (R62, R63, R125, I3), and each is safe: the model stops where the spec gives no effect. -/
inductive Fault where
  /-- HistRead or HistWrite outside [0, CAPACITY) or before READY; raised by SEQ.FDL_READ and
  SEQ.WRITEBACK (RD.DBG_DATA checks first). Safe (R62, I3). -/
  | histIndex
  /-- FrameRead or FrameWrite outside frame memory; raised by SEQ.DOWNMIX, SEQ.UPMIX, RD.FRAME and
  WR.FRAME. Safe (R63). -/
  | frameIndex
  /-- A cursor advance modulo 0; raised by SEQ.CURSOR_ADV. Safe (R125). -/
  | capacityZero
deriving DecidableEq, Repr

/-- Why there is no meaning. -/
inductive Refusal where
  /-- An instruction without a meaning, raised by `exec`'s refused arms (there are none). Safe. -/
  | notModelled (mnemonic : String)
deriving DecidableEq, Repr

/-- STATUS after reset: no bit set (R45). -/
def Status.reset : Status :=
  { ready := false, busy := false, errCmd := false, errBusy := false, errPrepare := false
    errChannels := false, errBlock := false, errNonfinite := false, errAccess := false, errDbg := false }

/-- The machine right after reset (R45, R350). WET and MONO_IN: log 1; the model's own fields: logs 2 to 6. -/
def State.reset : State :=
  { status := Status.reset
    sampleRate := 0#64
    capacity := 0#32
    cursor := 0#32
    phase := 0#64
    delaySecs := 0#64
    feedback := 0#64
    wetmix := 0#64
    amount := 0#64
    rate := 0#64
    interpMode := .linear
    seqState := .idle
    blkCh := 0#8
    blkFrames := 0#20
    frameIdx := 0#20
    dbgIndex := 0#32
    hist := []
    frame := []
    wet := 0#64
    monoIn := 0#64
    readData := 0#64
    host := []
    turns := []
    draws := 0
    epoch := 0 }

end Sys2Proof.Machine
end

