-- ==== Sys2Proof/Machine/Flags.lean ====
section
/-! DEFINITION. The flags of the core: the fields of STATUS (R22, R42), how an error sets its sticky bit
(R310 to R313), and the word a read of STATUS returns (R275). -/

namespace Sys2Proof.Machine

/-- The cause code of an error: the number of its STATUS bit (R311). -/
def errorCode : ErrorCause → Nat
  | .cmd => 8
  | .busy => 9
  | .prepare => 10
  | .channels => 11
  | .block => 12
  | .nonfinite => 13
  | .access => 14
  | .dbg => 15

/-- Set the sticky bit of a cause; no other bit changes (R310, R312). -/
def statusWith (c : ErrorCause) (st : Status) : Status :=
  match c with
  | .cmd => { st with errCmd := true }
  | .busy => { st with errBusy := true }
  | .prepare => { st with errPrepare := true }
  | .channels => { st with errChannels := true }
  | .block => { st with errBlock := true }
  | .nonfinite => { st with errNonfinite := true }
  | .access => { st with errAccess := true }
  | .dbg => { st with errDbg := true }

/-- The sticky bit of a cause (R22). -/
def statusError (c : ErrorCause) (st : Status) : Bool :=
  match c with
  | .cmd => st.errCmd
  | .busy => st.errBusy
  | .prepare => st.errPrepare
  | .channels => st.errChannels
  | .block => st.errBlock
  | .nonfinite => st.errNonfinite
  | .access => st.errAccess
  | .dbg => st.errDbg

/-- One bit at a position of a word. -/
def bitAt (b : Bool) (k : Nat) : Word := if b then 1#64 <<< k else 0#64

/-- The word a read of STATUS returns: each field at its bit, the reserved bits 0 (R22, R275). -/
def statusWord (st : Status) : Word :=
  bitAt st.errDbg 15 ||| bitAt st.errAccess 14 ||| bitAt st.errNonfinite 13 ||| bitAt st.errBlock 12
    ||| bitAt st.errChannels 11 ||| bitAt st.errPrepare 10 ||| bitAt st.errBusy 9 ||| bitAt st.errCmd 8
    ||| bitAt st.busy 1 ||| bitAt st.ready 0

end Sys2Proof.Machine
end

