-- ==== Sys2Proof/Machine/Fmt.lean ====
section
/-! DEFINITION. The FMT operations: IEEE 754-2008 binary64, round to nearest, ties to even, subnormals
kept, no fused multiply-add, no exception flags (R11, R12, R18). A finite binary64 value is an integer
number of units of 2^-1074, so every operation computes exactly on integers and rounds once. The
meaning of the operations is IEEE 754's, which the spec uses by reference (PRESUMED, log 15). -/

namespace Sys2Proof.Machine

/-! ### Reading a bit pattern -/

/-- The magnitude of +∞: every magnitude below it is finite, every one above it a NaN. -/
def infMag : Nat := 0x7FF0000000000000

/-- The sign bit, bit 63 (R67). -/
def fmtSign (x : Word) : Bool := x.msb

/-- The magnitude: bits 62 to 0, exponent and fraction, as a number. -/
def fmtMag (x : Word) : Nat := x.toNat % 2 ^ 63

/-- x is a NaN. -/
def fmtIsNaN (x : Word) : Bool := decide (infMag < fmtMag x)

/-- x is an infinity. -/
def fmtIsInf (x : Word) : Bool := decide (fmtMag x = infMag)

/-- isFinite: x is neither an infinity nor a NaN (R12). -/
def fmtIsFinite (x : Word) : Bool := decide (fmtMag x < infMag)

/-- The value of a finite magnitude in units of 2^-1074: exponent field 0 is subnormal, exponent field E ≥ 1
has the hidden bit and scale 2^(E-1). -/
def magUnits (p : Nat) : Nat :=
  if p < 2 ^ 52 then p else (2 ^ 52 + p % 2 ^ 52) * 2 ^ (p / 2 ^ 52 - 1)

/-- The exact value of a finite x in units of 2^-1074. -/
def fmtUnits (x : Word) : Int :=
  if fmtSign x then -(magUnits (fmtMag x) : Int) else (magUnits (fmtMag x) : Int)

/-- One, in units of 2^-1074. Irreducible, so that proofs keep the power folded; the kernel evaluates it. -/
@[irreducible] def oneUnits : Nat := 2 ^ 1074

/-! ### Building a bit pattern -/

/-- Sign and magnitude as a bit pattern. -/
def fmtPack (neg : Bool) (mag : Nat) : Word := BitVec.ofNat 64 (if neg then 2 ^ 63 + mag else mag)

/-- How many low bits of a quotient of whole units the format cannot hold: those past the 53rd. -/
def roundShift (q : Nat) : Nat := if q < 2 ^ 53 then 0 else q.log2 - 52

/-- num / den to the nearest integer, ties to even. -/
def roundQuot (num den : Nat) : Nat :=
  let n := num / den
  let r := num % den
  if den < 2 * r ∨ (2 * r = den ∧ n % 2 = 1) then n + 1 else n

/-- The magnitude nearest to num / den units, ties to even, overflow to infinity: the quotient is
rounded to a multiple of 2^k units, and k·2^52 + n is the exponent and fraction of n·2^k units. -/
def roundUnits (num den : Nat) : Nat :=
  let k := roundShift (num / den)
  min (k * 2 ^ 52 + roundQuot num (den * 2 ^ k)) infMag

/-- A NaN result: d where d is a NaN, so that every NaN can result (R18). -/
def fmtNaN (d : Word) : Word := if fmtIsNaN d then d else 0x7FF8000000000000#64

/-! ### The operations; d is the free value a NaN result is taken from -/

/-- −x: the sign bit negated (R11). -/
def fmtNeg (x : Word) : Word := fmtPack (!fmtSign x) (fmtMag x)

/-- x + y (R11). -/
def fmtAdd (d x y : Word) : Word :=
  if fmtIsNaN x || fmtIsNaN y then fmtNaN d
  else if fmtIsInf x then (if fmtIsInf y && fmtSign x != fmtSign y then fmtNaN d else x)
  else if fmtIsInf y then y
  else
    let z := fmtUnits x + fmtUnits y
    if z = 0 then fmtPack (fmtSign x && fmtSign y) 0
    else fmtPack (decide (z < 0)) (roundUnits z.natAbs 1)

/-- x − y (R11). -/
def fmtSub (d x y : Word) : Word := fmtAdd d x (fmtNeg y)

/-- x × y (R11). -/
def fmtMul (d x y : Word) : Word :=
  let neg := fmtSign x != fmtSign y
  if fmtIsNaN x || fmtIsNaN y then fmtNaN d
  else if fmtIsInf x || fmtIsInf y then
    (if fmtMag x = 0 ∨ fmtMag y = 0 then fmtNaN d else fmtPack neg infMag)
  else fmtPack neg (roundUnits (magUnits (fmtMag x) * magUnits (fmtMag y)) oneUnits)

/-- x / y: a non-zero finite value over zero is an infinity, 0/0 a NaN (R11, R18). -/
def fmtDiv (d x y : Word) : Word :=
  let neg := fmtSign x != fmtSign y
  if fmtIsNaN x || fmtIsNaN y then fmtNaN d
  else if fmtIsInf x then (if fmtIsInf y then fmtNaN d else fmtPack neg infMag)
  else if fmtIsInf y then fmtPack neg 0
  else if fmtMag y = 0 then (if fmtMag x = 0 then fmtNaN d else fmtPack neg infMag)
  else fmtPack neg (roundUnits (magUnits (fmtMag x) * oneUnits) (magUnits (fmtMag y)))

/-- The FMT value with a sign, of a whole number n (exact for n ≤ 2^53). -/
def fmtWhole (neg : Bool) (n : Nat) : Word := fmtPack neg (roundUnits (n * oneUnits) 1)

/-- toF(n) (R12). -/
def fmtOfNat (n : Nat) : Word := fmtWhole false n

/-- The greatest integer not above a finite x. -/
def fmtFloorInt (x : Word) : Int := fmtUnits x / (oneUnits : Int)

/-- The least integer not below a finite x. -/
def fmtCeilInt (x : Word) : Int := -((-fmtUnits x) / (oneUnits : Int))

/-- floor(x): toward negative infinity, the sign of a zero kept (R12). The core applies it to finite values
only (R166, R232); others pass through. -/
def fmtFloor (x : Word) : Word :=
  if fmtIsFinite x then fmtWhole (fmtSign x) (fmtFloorInt x).natAbs else x

/-- ceil(x): toward positive infinity, the sign of a zero kept (R12). The core applies it to finite values
only (R166); others pass through. -/
def fmtCeil (x : Word) : Word :=
  if fmtIsFinite x then fmtWhole (fmtSign x) (fmtCeilInt x).natAbs else x

/-- toInt(x): the integer equal to an integer-valued finite x (R12). -/
def fmtToInt (x : Word) : Int := fmtFloorInt x

/-- The order key of a value that is no NaN: magnitudes compare as numbers, both zeros are 0. -/
def fmtKey (x : Word) : Int := if fmtSign x then -(fmtMag x : Int) else (fmtMag x : Int)

/-- x < y, false for a NaN (the comparisons of R232). -/
def fmtLt (x y : Word) : Bool := !fmtIsNaN x && !fmtIsNaN y && decide (fmtKey x < fmtKey y)

/-- +1.0, whose magnitude bounds the sine (R142). -/
def fmtOne : Word := 0x3FF0000000000000#64

/-- SIN: the configuration's raw sine where R142 leaves it free, and R142's properties elsewhere: a
zero keeps its sign, an infinity or a NaN gives a NaN, a finite operand gives a value in [-1, 1].
Every function R142 admits is this one for some raw sine (log 7). -/
def fmtSin (x : Word) : Word :=
  if fmtMag x = 0 then x
  else if !fmtIsFinite x then fmtNaN (Config.sin x)
  else if fmtMag (Config.sin x) ≤ fmtMag fmtOne then Config.sin x
  else 0#64

/-- The FMT value nearest to num / den, ties to even: a decimal operand of a host program (R101). -/
def fmtOfRatio (neg : Bool) (num den : Nat) : Word := fmtPack neg (roundUnits (num * oneUnits) den)

end Sys2Proof.Machine
end

