-- ==== Sys2Proof/Machine/Memory.lean ====
section
/-! DEFINITION. Sparse memories as lists of cells in one canonical form: addresses strictly rising. -/

namespace Sys2Proof.Machine

/-- What a cell list holds at an address, if it lists it. -/
def cellGet {α : Type} : List (Nat × α) → Nat → Option α
  | [], _ => none
  | (b, v) :: m, a => if a = b then some v else cellGet m a

/-- List a value at an address, keeping the addresses rising. -/
def cellPut {α : Type} : List (Nat × α) → Nat → α → List (Nat × α)
  | [], a, v => [(a, v)]
  | (b, w) :: m, a, v =>
    if a < b then (a, v) :: (b, w) :: m
    else if a = b then (a, v) :: m
    else (b, w) :: cellPut m a v

/-- Drop the cells at an address. -/
def cellDrop {α : Type} (m : List (Nat × α)) (a : Nat) : List (Nat × α) :=
  m.filter fun c => c.1 ≠ a

/-- Addresses strictly rising. -/
abbrev cellsRising {α : Type} (m : List (Nat × α)) : Prop := m.Pairwise fun x y => x.1 < y.1

/-- The canonical form of frame memory: rising, and every address in frame memory (R64). -/
abbrev Memory.wf (m : Memory) : Prop :=
  cellsRising m ∧ ∀ c ∈ m, Config.frameBase ≤ c.1 ∧ c.1 < Config.frameEnd

/-- The canonical form of the history: rising, every index in the memory present (R37), and no word
listed that equals what an unlisted word reads as. -/
abbrev History.wf (m : History) : Prop :=
  cellsRising m ∧ ∀ c ∈ m, c.1 < Config.maxCapacity ∧ c.2 ≠ 0#64

end Sys2Proof.Machine
end

