-- ==== Sys2Proof/WellFormed.lean ====
section
/-! DEFINITION. Which instructions are well formed: the operand ranges the encodings impose. -/

namespace Sys2Proof

/-- A command word that matches one of the three patterns of R93 under its mask; every other word is
reserved (R92, R95). -/
def wellFormedCommand (w : Word) : Bool :=
  w == 0#64 || w == 1#64 || (w &&& 0xFFFFFFFF0000000F#64) == 2#64

/-- A transaction the access check refuses: not 8 bytes, misaligned, or at a reserved or unmapped
offset (R65, R79, R270). -/
def illegalAccess (offset : BitVec 24) (lanesOff : BitVec 8) : Bool :=
  lanesOff != 0#8 || offset.toNat % 8 != 0
    || (decide (0x080 ≤ offset.toNat) && decide (offset.toNat < Config.frameBase))
    || decide (Config.frameEnd ≤ offset.toNat)

/-- The operand checks of each instruction. A frame index lies in frame memory (R63, R282, R283);
BUS.ILLEGAL is a transaction the access check refuses (R270), and a read of that kind carries no data
(R91); a reserved command is not well formed (R95). Every other operand fills its field. -/
def wellFormed : Instr → Bool
  | .rdId => true
  | .wrId _ => true
  | .rdStatus => true
  | .wrStatus _ => true
  | .rdCmd => true
  | .wrCmd _ => true
  | .rdSampleRate => true
  | .wrSampleRate _ => true
  | .rdCapacity => true
  | .wrCapacity _ => true
  | .rdCursor => true
  | .wrCursor _ => true
  | .rdPhase => true
  | .wrPhase _ => true
  | .rdDelaySecs => true
  | .wrDelaySecs _ => true
  | .rdFeedback => true
  | .wrFeedback _ => true
  | .rdWetmix => true
  | .wrWetmix _ => true
  | .rdAmount => true
  | .wrAmount _ => true
  | .rdRate => true
  | .wrRate _ => true
  | .rdInterpMode => true
  | .wrInterpMode _ => true
  | .rdSeq => true
  | .wrSeq _ => true
  | .rdDbgIndex => true
  | .wrDbgIndex _ => true
  | .rdDbgData => true
  | .wrDbgData _ => true
  | .rdFrame i => decide (i < Config.frameMemWords)
  | .wrFrame i _ => decide (i < Config.frameMemWords)
  | .busIllegal write offset lanesOff data => illegalAccess offset lanesOff && (write || data == 0#64)
  | .cmdNop => true
  | .cmdPrepare => true
  | .cmdProcess _ _ => true
  | .cmdReserved w => !wellFormedCommand w
  | .seqIdle => true
  | .seqStart => true
  | .seqFdlRead => true
  | .seqDownmix => true
  | .seqUpmix => true
  | .seqWriteback => true
  | .seqCursorAdv => true
  | .seqOscAdv => true

end Sys2Proof
end

