-- ==== Sys2Proof/Decode.lean ====
section
/-! DEFINITION. The decoder and the encoder of the three forms (30_encoding.md R90 to R100), with the
byte order of the host bus (R67). Decoding is total; what is no encoding is refused by name. -/

namespace Sys2Proof

/-! ### Byte order (R67) -/

/-- Byte k of a word: bits 8k+7 to 8k (R67). -/
def leByte (v : Word) (k : Nat) : Byte := v.extractLsb' (8 * k) 8

/-- The word whose byte k is `f k` (R67). -/
def leWord (f : Nat → Byte) : Word :=
  f 7 ++ f 6 ++ f 5 ++ f 4 ++ f 3 ++ f 2 ++ f 1 ++ f 0

/-- The eight bytes of a word, lowest address first (R67). -/
def wordBytes (v : Word) : List Byte :=
  [leByte v 0, leByte v 1, leByte v 2, leByte v 3, leByte v 4, leByte v 5, leByte v 6, leByte v 7]

/-! ### Format BUS (R91) -/

/-- The byte offset of a register (R64). -/
def regOffset : Reg → Nat
  | .id => 0x000
  | .status => 0x008
  | .cmd => 0x010
  | .sampleRate => 0x018
  | .capacity => 0x020
  | .cursor => 0x028
  | .phase => 0x030
  | .delaySecs => 0x038
  | .feedback => 0x040
  | .wetmix => 0x048
  | .amount => 0x050
  | .rate => 0x058
  | .interpMode => 0x060
  | .seq => 0x068
  | .dbgIndex => 0x070
  | .dbgData => 0x078

/-- The register at a byte offset, if there is one (R64, R91 step 2). -/
def regAt : Nat → Option Reg
  | 0x000 => some .id
  | 0x008 => some .status
  | 0x010 => some .cmd
  | 0x018 => some .sampleRate
  | 0x020 => some .capacity
  | 0x028 => some .cursor
  | 0x030 => some .phase
  | 0x038 => some .delaySecs
  | 0x040 => some .feedback
  | 0x048 => some .wetmix
  | 0x050 => some .amount
  | 0x058 => some .rate
  | 0x060 => some .interpMode
  | 0x068 => some .seq
  | 0x070 => some .dbgIndex
  | 0x078 => some .dbgData
  | _ => none

/-- The byte offset of frame word i (R64). -/
def frameOffset (i : Nat) : Nat := Config.frameBase + 8 * i

/-- RD.REG (R91 step 2). -/
def readInstr : Reg → Instr
  | .id => .rdId
  | .status => .rdStatus
  | .cmd => .rdCmd
  | .sampleRate => .rdSampleRate
  | .capacity => .rdCapacity
  | .cursor => .rdCursor
  | .phase => .rdPhase
  | .delaySecs => .rdDelaySecs
  | .feedback => .rdFeedback
  | .wetmix => .rdWetmix
  | .amount => .rdAmount
  | .rate => .rdRate
  | .interpMode => .rdInterpMode
  | .seq => .rdSeq
  | .dbgIndex => .rdDbgIndex
  | .dbgData => .rdDbgData

/-- WR.REG with its data word (R91 step 2). -/
def writeInstr (v : Word) : Reg → Instr
  | .id => .wrId v
  | .status => .wrStatus v
  | .cmd => .wrCmd v
  | .sampleRate => .wrSampleRate v
  | .capacity => .wrCapacity v
  | .cursor => .wrCursor v
  | .phase => .wrPhase v
  | .delaySecs => .wrDelaySecs v
  | .feedback => .wrFeedback v
  | .wetmix => .wrWetmix v
  | .amount => .wrAmount v
  | .rate => .wrRate v
  | .interpMode => .wrInterpMode v
  | .seq => .wrSeq v
  | .dbgIndex => .wrDbgIndex v
  | .dbgData => .wrDbgData v

/-- BUS.ILLEGAL for a transaction; the data lines of a read carry nothing (R91, log 11). -/
def illegalInstr (t : Transaction) : Instr :=
  .busIllegal t.write t.offset t.lanesOff (if t.write then t.data else 0#64)

/-- Decode of a transaction, in the order of R91: size and alignment, the register map, the frame
memory, and otherwise reserved or unmapped. -/
def decodeTransaction (t : Transaction) : Instr :=
  if t.lanesOff ≠ 0#8 ∨ t.offset.toNat % 8 ≠ 0 then illegalInstr t
  else
    match regAt t.offset.toNat with
    | some r => if t.write then writeInstr t.data r else readInstr r
    | none =>
      if Config.frameBase ≤ t.offset.toNat ∧ t.offset.toNat < Config.frameEnd then
        let i := (t.offset.toNat - Config.frameBase) / 8
        if t.write then .wrFrame i t.data else .rdFrame i
      else illegalInstr t

/-! ### Format CMD (R92 to R95) -/

/-- Decode of a command word (R92, R93, R95). -/
def decodeCommand (w : Word) : Command :=
  if w.extractLsb' 32 32 ≠ 0#32 then .reserved w
  else if w.extractLsb' 0 4 = 2#4 then .process (w.extractLsb' 4 8) (w.extractLsb' 12 20)
  else if w = 0#64 then .nop
  else if w = 1#64 then .prepare
  else .reserved w

/-- The command a decoded command word stands for, as an instruction. -/
def commandInstr : Command → Instr
  | .nop => .cmdNop
  | .prepare => .cmdPrepare
  | .process ch frames => .cmdProcess ch frames
  | .reserved w => .cmdReserved w

/-- The word of PROCESS: FRAMES in bits 31:12, CH in bits 11:4, OP = 2 (R92). -/
def processWord (ch : BitVec 8) (frames : BitVec 20) : Word := 0#32 ++ frames ++ ch ++ 2#4

/-! ### Format SEQ (R100) -/

/-- The 3-bit code of a sequencer state (R100). -/
def seqCode : SeqState → BitVec 3
  | .idle => 0#3
  | .start => 1#3
  | .fdlRead => 2#3
  | .downmix => 3#3
  | .upmix => 4#3
  | .writeback => 5#3
  | .cursorAdv => 6#3
  | .oscAdv => 7#3

/-- The sequencer state of a 3-bit code; all eight codes are used (R100). -/
def seqOfCode (c : BitVec 3) : SeqState :=
  match c.toNat with
  | 0 => .idle
  | 1 => .start
  | 2 => .fdlRead
  | 3 => .downmix
  | 4 => .upmix
  | 5 => .writeback
  | 6 => .cursorAdv
  | _ => .oscAdv

/-- The action of a sequencer state, as an instruction (R100). -/
def seqInstr : SeqState → Instr
  | .idle => .seqIdle
  | .start => .seqStart
  | .fdlRead => .seqFdlRead
  | .downmix => .seqDownmix
  | .upmix => .seqUpmix
  | .writeback => .seqWriteback
  | .cursorAdv => .seqCursorAdv
  | .oscAdv => .seqOscAdv

/-! ### The three forms as bytes -/

/-- Why bytes are no encoding. -/
inductive DecodeError where
  /-- The number of bytes is not the fixed length of the form (R90). -/
  | wrongLength
  /-- Bits above the 25-bit descriptor are set (R91). -/
  | descriptorBits
  /-- Bits above the 3-bit state code are set (R100). -/
  | stateBits
deriving DecidableEq, Repr

/-- The fixed length of a form in bytes (R90): a transaction is its descriptor in four bytes, its data
in eight and its disabled lanes in one (log 10). -/
def formLength : Form → Nat
  | .bus => 13
  | .cmd => 8
  | .seq => 1

/-- The bytes of a transaction: descriptor {W, OFFSET} little-endian with its upper seven bits 0, data
little-endian, disabled lanes (log 10). -/
def transactionBytes (t : Transaction) : List Byte :=
  [t.offset.extractLsb' 0 8, t.offset.extractLsb' 8 8, t.offset.extractLsb' 16 8, if t.write then 1#8 else 0#8]
    ++ wordBytes t.data ++ [t.lanesOff]

/-- The transaction in thirteen bytes. -/
def transactionOfBytes (bs : List Byte) : Except DecodeError Transaction :=
  if bs.getD 3 0#8 = 0#8 ∨ bs.getD 3 0#8 = 1#8 then
    .ok { write := bs.getD 3 0#8 == 1#8
          offset := bs.getD 2 0#8 ++ bs.getD 1 0#8 ++ bs.getD 0 0#8
          lanesOff := bs.getD 12 0#8
          data := leWord fun k => bs.getD (4 + k) 0#8 }
  else .error .descriptorBits

/-- Decode of the bytes of a form; total, refusing by name (R90, R91, R92, R100). -/
def decode (form : Form) (bs : List Byte) : Except DecodeError Instr :=
  if bs.length ≠ formLength form then .error .wrongLength
  else
    match form with
    | .bus =>
      match transactionOfBytes bs with
      | .ok t => .ok (decodeTransaction t)
      | .error e => .error e
    | .cmd => .ok (commandInstr (decodeCommand (leWord fun k => bs.getD k 0#8)))
    | .seq =>
      if (bs.getD 0 0#8).toNat < 8 then .ok (seqInstr (seqOfCode ((bs.getD 0 0#8).setWidth 3)))
      else .error .stateBits

/-! ### The encoder -/

/-- The transaction that reads a register or a frame word. An offset that does not fit 24 bits is taken modulo
2^24; the spec gives it no encoding. DESIGN CHOICE, unsafe: log 24. -/
def readTransaction (offset : Nat) : Transaction :=
  { write := false, offset := BitVec.ofNat 24 offset, lanesOff := 0#8, data := 0#64 }

/-- The transaction that writes a register or a frame word; offsets as in `readTransaction` (log 24). -/
def writeTransaction (offset : Nat) (v : Word) : Transaction :=
  { write := true, offset := BitVec.ofNat 24 offset, lanesOff := 0#8, data := v }

/-- An instruction's encoding before it is laid out in bytes. -/
inductive Encoded where
  | bus (t : Transaction)
  | cmd (w : Word)
  | seq (c : BitVec 3)
deriving DecidableEq, Repr

/-- The encoding of a well-formed instruction, from R64, R91, R93 and R100. -/
def encodeForm : Instr → Encoded
  | .rdId => .bus (readTransaction (regOffset .id))
  | .wrId v => .bus (writeTransaction (regOffset .id) v)
  | .rdStatus => .bus (readTransaction (regOffset .status))
  | .wrStatus v => .bus (writeTransaction (regOffset .status) v)
  | .rdCmd => .bus (readTransaction (regOffset .cmd))
  | .wrCmd w => .bus (writeTransaction (regOffset .cmd) w)
  | .rdSampleRate => .bus (readTransaction (regOffset .sampleRate))
  | .wrSampleRate v => .bus (writeTransaction (regOffset .sampleRate) v)
  | .rdCapacity => .bus (readTransaction (regOffset .capacity))
  | .wrCapacity v => .bus (writeTransaction (regOffset .capacity) v)
  | .rdCursor => .bus (readTransaction (regOffset .cursor))
  | .wrCursor v => .bus (writeTransaction (regOffset .cursor) v)
  | .rdPhase => .bus (readTransaction (regOffset .phase))
  | .wrPhase v => .bus (writeTransaction (regOffset .phase) v)
  | .rdDelaySecs => .bus (readTransaction (regOffset .delaySecs))
  | .wrDelaySecs v => .bus (writeTransaction (regOffset .delaySecs) v)
  | .rdFeedback => .bus (readTransaction (regOffset .feedback))
  | .wrFeedback v => .bus (writeTransaction (regOffset .feedback) v)
  | .rdWetmix => .bus (readTransaction (regOffset .wetmix))
  | .wrWetmix v => .bus (writeTransaction (regOffset .wetmix) v)
  | .rdAmount => .bus (readTransaction (regOffset .amount))
  | .wrAmount v => .bus (writeTransaction (regOffset .amount) v)
  | .rdRate => .bus (readTransaction (regOffset .rate))
  | .wrRate v => .bus (writeTransaction (regOffset .rate) v)
  | .rdInterpMode => .bus (readTransaction (regOffset .interpMode))
  | .wrInterpMode v => .bus (writeTransaction (regOffset .interpMode) v)
  | .rdSeq => .bus (readTransaction (regOffset .seq))
  | .wrSeq v => .bus (writeTransaction (regOffset .seq) v)
  | .rdDbgIndex => .bus (readTransaction (regOffset .dbgIndex))
  | .wrDbgIndex v => .bus (writeTransaction (regOffset .dbgIndex) v)
  | .rdDbgData => .bus (readTransaction (regOffset .dbgData))
  | .wrDbgData v => .bus (writeTransaction (regOffset .dbgData) v)
  | .rdFrame i => .bus (readTransaction (frameOffset i))
  | .wrFrame i v => .bus (writeTransaction (frameOffset i) v)
  | .busIllegal write offset lanesOff data =>
      .bus { write := write, offset := offset, lanesOff := lanesOff, data := data }
  | .cmdNop => .cmd 0#64
  | .cmdPrepare => .cmd 1#64
  | .cmdProcess ch frames => .cmd (processWord ch frames)
  | .cmdReserved w => .cmd w
  | .seqIdle => .seq (seqCode .idle)
  | .seqStart => .seq (seqCode .start)
  | .seqFdlRead => .seq (seqCode .fdlRead)
  | .seqDownmix => .seq (seqCode .downmix)
  | .seqUpmix => .seq (seqCode .upmix)
  | .seqWriteback => .seq (seqCode .writeback)
  | .seqCursorAdv => .seq (seqCode .cursorAdv)
  | .seqOscAdv => .seq (seqCode .oscAdv)

/-- The form of an encoding. -/
def encodedForm : Encoded → Form
  | .bus _ => .bus
  | .cmd _ => .cmd
  | .seq _ => .seq

/-- The bytes of an encoding (R67, R90). -/
def encodedBytes : Encoded → List Byte
  | .bus t => transactionBytes t
  | .cmd w => wordBytes w
  | .seq c => [c.setWidth 8]

/-- The form and the bytes of a well-formed instruction. -/
def encode (i : Instr) : Form × List Byte := (encodedForm (encodeForm i), encodedBytes (encodeForm i))

/-! ### The opcode table's numbering -/

/-- The instruction the decoder reads from a row's bits: up to 8 bits are a SEQ code, up to 32 the BUS
descriptor, up to 64 a CMD word; every bit above is 0 (full size, zero data). -/
def decodeTableWord (nbits w : Nat) : Option Instr :=
  let v : Word := BitVec.ofNat 64 w
  if nbits ≤ 8 then (decode .seq [leByte v 0]).toOption
  else if nbits ≤ 32 then
    (decode .bus ([leByte v 0, leByte v 1, leByte v 2, leByte v 3] ++ wordBytes 0#64 ++ [0#8])).toOption
  else if nbits ≤ 64 then (decode .cmd (wordBytes v)).toOption
  else none

end Sys2Proof
end

