-- ==== Sys2Proof/Machine/Operands.lean ====
section
/-! DEFINITION. The operand forms of the core: the fields of register SEQ, the values INTERP_MODE and
DBG_INDEX accept, the words of a frame, and the numbers of the free values a step can draw. -/

namespace Sys2Proof.Machine

/-- The word a read of SEQ returns (R34, R297): FRAME_IDX at 55:36, BLK_FRAMES at 35:16, BLK_CH at 15:8,
SEQ_STATE at 2:0, the other bits 0. -/
def seqWord (s : State) : Word :=
  0#8 ++ s.frameIdx ++ s.blkFrames ++ s.blkCh ++ 0#5 ++ seqCode s.seqState

/-- The code of MODE (R33). -/
def modeCode : InterpMode → BitVec 2
  | .linear => 0#2
  | .cubic => 1#2

/-- The mode a written word selects; reserved values select none (R33, R96, R296). -/
def modeOfWord (v : Word) : Option InterpMode :=
  if v = 0#64 then some .linear else if v = 1#64 then some .cubic else none

/-- The index a word written to DBG_INDEX gives; bits 63:32 must be 0 (R35, R96, R299). -/
def dbgIndexOfWord (v : Word) : Option (BitVec 32) :=
  if v.extractLsb' 32 32 = 0#32 then some (v.extractLsb' 0 32) else none

/-- The frame word of channel 0 of the frame being processed: FRAME_IDX · BLK_CH (R38, R200). -/
def frameStart (s : State) : Nat := s.frameIdx.toNat * s.blkCh.toNat

/-- The free values the current step can draw (log 6). -/
def drawn (s : State) (k : Nat) : Word := Config.freeFmt s.draws k

end Sys2Proof.Machine
end

