-- ==== Sys2Proof/Machine/Ops.lean ====
section
/-! DEFINITION. The named operations every meaning is written over: raising an error, the two memories,
WRAP and the cursor, the oscillator, the delay line's read and write-back, the channel mixer, the end of
a block. In the datapath operations `d k` is the free value the k-th operation of the step takes where
its result is left open (R18, log 6). -/

namespace Sys2Proof.Machine

/-! ### Errors: the core's whole exception mechanism -/

/-- `raise`: taking an error. The core has no trap, saves nothing and redirects nothing (R310, R317): the
sticky bit of the cause is set, and the step goes on as its own rule says. There is no return from
it (R318). The recorded value of a raise is stored nowhere (R313). -/
def raise (c : ErrorCause) (s : State) : State := { s with status := statusWith c s.status }

/-! ### What a transaction answers -/

/-- A read transaction returns a value to the Host (R66; log 2). -/
def returned (v : Word) (s : State) : State := { s with readData := v }

/-- The step has drawn free values; later draws are fresh (log 6). -/
def drew (s : State) : State := { s with draws := s.draws + 1 }

/-! ### The history memory (R60 to R62) -/

/-- The word at a history index; a word not listed holds +0.0 (R37). -/
def histWord (s : State) (i : Nat) : Word := (cellGet s.hist i).getD 0#64

/-- The precondition of HistRead and HistWrite (R62). -/
def histOk (s : State) (i : Nat) : Bool := s.status.ready && decide (i < s.capacity.toNat)

/-- HistRead(i), RB.READ(i) (R62, R123); a call outside the precondition is a fault (I3, log 9). -/
def histRead (s : State) (i : Nat) : Except Fault Word :=
  if histOk s i then .ok (histWord s i) else .error .histIndex

/-- A history with one word changed, in canonical form. -/
def histPut (h : History) (i : Nat) (v : Word) : History :=
  if v = 0#64 then cellDrop h i else cellPut h i v

/-- HistWrite(i, v), RB.WRITE(i, v): the bit pattern is kept as it is (R62, R124). -/
def histWrite (s : State) (i : Nat) (v : Word) : Except Fault State :=
  if histOk s i then .ok { s with hist := histPut s.hist i v } else .error .histIndex

/-- PREPARE's zero fill: the words 0 to n − 1 hold +0.0, the others are as they were (R232, log 19). -/
def histZeroFill (h : History) (n : Nat) : History := h.filter fun c => n ≤ c.1

/-! ### The frame memory (R63, R64, R67) -/

/-- The byte at a byte offset of frame memory: the one last stored, or the free byte it powered up with
(R38; log 5). -/
def frameByte (s : State) (a : Nat) : Byte := (cellGet s.frame a).getD (Config.frameInit s.epoch a)

/-- The value of frame word i, little-endian (R63, R67). -/
def frameWord (s : State) (i : Nat) : Word := leWord fun k => frameByte s (frameOffset i + k)

/-- Store the first n bytes of a word at a byte offset (R67). -/
def putBytes (m : Memory) (a : Nat) (v : Word) : Nat → Memory
  | 0 => m
  | n + 1 => cellPut (putBytes m a v n) (a + n) (leByte v n)

/-- Frame word i holds v (R63). -/
def frameSet (s : State) (i : Nat) (v : Word) : State :=
  { s with frame := putBytes s.frame (frameOffset i) v 8 }

/-- FrameRead(i) (R63); outside frame memory a fault (log 9). -/
def frameRead (s : State) (i : Nat) : Except Fault Word :=
  if i < Config.frameMemWords then .ok (frameWord s i) else .error .frameIndex

/-- FrameWrite(i, v) (R63); outside frame memory a fault (log 9). -/
def frameWrite (s : State) (i : Nat) (v : Word) : Except Fault State :=
  if i < Config.frameMemWords then .ok (frameSet s i v) else .error .frameIndex

/-! ### WRAP and the write cursor (40_ringbuffer.md) -/

/-- WRAP(x, c) on integers: ((x mod c) + c) mod c with the floored modulus (R120). -/
def wrap (x : Int) (c : Nat) : Nat := ((x % (c : Int) + (c : Int)) % (c : Int)).toNat

/-- WRAP of a real operand, exact, both sides in units of 2^-1074: the unique r in [0, c) with x − r a
multiple of c (R121). The core itself never wraps a value that is no integer. -/
def wrapUnits (x : Int) (c : Nat) : Int := x % ((c : Int) * (oneUnits : Int))

/-- CURSOR.ADV's new cursor: (CURSOR + 1) mod CAPACITY (R126). -/
def cursorNext (s : State) : BitVec 32 := BitVec.ofNat 32 ((s.cursor.toNat + 1) % s.capacity.toNat)

/-! ### The oscillator (41_oscillator.md) -/

/-- OSC.VALUE(phase) = (SIN(TWO_PI × phase) × 0.5) + 1.0, in this order (R140). -/
def oscValue (d : Nat → Word) (phase : Word) : Word :=
  fmtAdd (d 2) (fmtMul (d 1) (fmtSin (fmtMul (d 0) Config.twoPi phase)) 0x3FE0000000000000#64) fmtOne

/-- OSC.ADV's new phase: PHASE + (RATE / SAMPLE_RATE); never wrapped (R144, R145). -/
def oscNext (d : Nat → Word) (s : State) : Word :=
  fmtAdd (d 1) s.phase (fmtDiv (d 0) s.rate s.sampleRate)

/-! ### The fractional delay line (42_delay_line.md) -/

/-- The nominal delay in samples: delay_secs × sampleRate (R161). -/
def delaySamples (d : Nat → Word) (s : State) : Word := fmtMul (d 3) s.delaySecs s.sampleRate

/-- modulation = (OSC.VALUE(phase) × delay_samples) × amount (R162). -/
def modulation (d : Nat → Word) (s : State) : Word :=
  fmtMul (d 5) (fmtMul (d 4) (oscValue d s.phase) (delaySamples d s)) s.amount

/-- read_pos = (toF(cursor) − delay_samples) + modulation (R163). -/
def readPos (d : Nat → Word) (s : State) : Word :=
  fmtAdd (d 7) (fmtSub (d 6) (fmtOfNat s.cursor.toNat) (delaySamples d s)) (modulation d s)

/-- t = read_pos − lower (R164). -/
def fraction (d : Nat → Word) (pos : Word) : Word := fmtSub (d 8) pos (fmtFloor pos)

/-- LERP(a, b, t) = a + ((b − a) × t) (R168). -/
def lerp (d : Nat → Word) (a b t : Word) : Word :=
  fmtAdd (d 12) a (fmtMul (d 11) (fmtSub (d 10) b a) t)

/-- The cubic kernel on the taps xm1, x0, x1, x2 (R170). -/
def cubicKernel (d : Nat → Word) (xm1 x0 x1 x2 t : Word) : Word :=
  let c0 := x0
  let c1 := fmtMul (d 11) 0x3FE0000000000000#64 (fmtSub (d 10) x1 xm1)
  let c2 := fmtSub (d 17)
    (fmtAdd (d 15) (fmtSub (d 13) xm1 (fmtMul (d 12) 0x4004000000000000#64 x0))
      (fmtMul (d 14) 0x4000000000000000#64 x1))
    (fmtMul (d 16) 0x3FE0000000000000#64 x2)
  let c3 := fmtAdd (d 22) (fmtMul (d 19) 0x3FE0000000000000#64 (fmtSub (d 18) x2 xm1))
    (fmtMul (d 21) 0x3FF8000000000000#64 (fmtSub (d 20) x0 x1))
  fmtAdd (d 28) (fmtMul (d 27) (fmtAdd (d 26) (fmtMul (d 25) (fmtAdd (d 24) (fmtMul (d 23) c3 t) c2) t) c1) t) c0

/-- A tap: the history word at an integer position, wrapped into the history (R167, R170). -/
def tap (s : State) (n : Int) : Except Fault Word := histRead s (wrap n s.capacity.toNat)

/-- FDL.READ in LINEAR mode at a finite read position (R164, R167 to R169). -/
def readLinear (d : Nat → Word) (s : State) (pos : Word) : Except Fault Word := do
  let a ← tap s (fmtToInt (fmtFloor pos))
  let b ← tap s (fmtToInt (fmtCeil pos))
  return lerp d a b (fraction d pos)

/-- FDL.READ in CUBIC mode at a finite read position (R170). -/
def readCubic (d : Nat → Word) (s : State) (pos : Word) : Except Fault Word := do
  let n := fmtToInt (fmtFloor pos)
  let xm1 ← tap s (n - 1)
  let x0 ← tap s n
  let x1 ← tap s (n + 1)
  let x2 ← tap s (n + 2)
  return cubicKernel d xm1 x0 x1 x2 (fraction d pos)

/-- The interpolated read the mode selects (R171). -/
def readHistory (d : Nat → Word) (s : State) (pos : Word) : Except Fault Word :=
  match s.interpMode with
  | .linear => readLinear d s pos
  | .cubic => readCubic d s pos

/-- The value FDL.WRITEBACK stores: MONO_IN + (WET × feedback) (R175). -/
def writebackValue (d : Nat → Word) (s : State) : Word :=
  fmtAdd (d 1) s.monoIn (fmtMul (d 0) s.wet s.feedback)

/-! ### The channel mixer (43_channel_mixer.md) -/

/-- The sum of the first n channels of the frame at word `base`, from +0.0, channel 0 first (R200). -/
def channelSum (d : Nat → Word) (s : State) (base : Nat) : Nat → Word
  | 0 => 0#64
  | n + 1 => fmtAdd (d n) (channelSum d s base n) (frameWord s (base + n))

/-- DOWNMIX: the channel sum over the channel count (R200); `d n` for the additions, `d N` for the
division. -/
def downmixValue (d : Nat → Word) (s : State) : Word :=
  fmtDiv (d s.blkCh.toNat) (channelSum d s (frameStart s) s.blkCh.toNat) (fmtOfNat s.blkCh.toNat)

/-- UPMIX's common addend: wet × wetmix, computed once per tick (R201). -/
def upmixAddend (d : Nat → Word) (s : State) : Word := fmtMul (d 0) s.wet s.wetmix

/-- UPMIX over the first n channels: p is added to each word in place (R201). -/
def upmixInto (d : Nat → Word) (p : Word) (base : Nat) : Nat → State → State
  | 0, s => s
  | n + 1, s =>
    let s' := upmixInto d p base n s
    frameSet s' (base + n) (fmtAdd (d (n + 1)) (frameWord s' (base + n)) p)

/-- The words of the frame being processed lie in frame memory (R63). -/
def frameInRange (s : State) : Bool := decide (frameStart s + s.blkCh.toNat ≤ Config.frameMemWords)

/-! ### The sequencer -/

/-- seq <- q (R13). -/
def goto (q : SeqState) (s : State) : State := { s with seqState := q }

/-- Block end: seq <- IDLE, BUSY <- 0; FRAME_IDX keeps its value (R247). -/
def blockEnd (s : State) : State :=
  { s with seqState := .idle, status := { s.status with busy := false } }

/-! ### PREPARE's check -/

/-- The sample rates PREPARE accepts: finite, with 1 ≤ floor ≤ MAX_CAPACITY (R232). -/
def rateAccepted (sr : Word) : Bool :=
  fmtIsFinite sr && !fmtLt (fmtFloor sr) fmtOne && !fmtLt (fmtOfNat Config.maxCapacity) (fmtFloor sr)

end Sys2Proof.Machine
end

