-- ==== Sys2Proof/Machine/BusRead.lean ====
section
/-! DEFINITION. The meanings of the register reads RD.* (45_host_interface.md R273 to R299, R293). A read
returns its value and, but for RD.CMD and a refused RD.DBG_DATA, has no other effect (R73). -/

namespace Sys2Proof.Machine

/-- A read that returns v and does nothing else (R73). -/
def readValue (v : Word) (s : State) : Host.Outcome State Fault Refusal := .next (returned v s)

/-- RD.ID (R274). -/
def execRdId (s : State) : Host.Outcome State Fault Refusal := readValue Config.idWord s

/-- RD.STATUS (R275). -/
def execRdStatus (s : State) : Host.Outcome State Fault Refusal := readValue (statusWord s.status) s

/-- RD.CMD: ERR_ACCESS, returns 0 (R273). -/
def execRdCmd (s : State) : Host.Outcome State Fault Refusal := .next (returned 0#64 (raise .access s))

/-- RD.SAMPLE_RATE (R276). -/
def execRdSampleRate (s : State) : Host.Outcome State Fault Refusal := readValue s.sampleRate s

/-- RD.CAPACITY (R278). -/
def execRdCapacity (s : State) : Host.Outcome State Fault Refusal := readValue (s.capacity.zeroExtend 64) s

/-- RD.CURSOR (R279, R303). -/
def execRdCursor (s : State) : Host.Outcome State Fault Refusal := readValue (s.cursor.zeroExtend 64) s

/-- RD.PHASE (R280, R303). -/
def execRdPhase (s : State) : Host.Outcome State Fault Refusal := readValue s.phase s

/-- RD.DELAY_SECS (R284). -/
def execRdDelaySecs (s : State) : Host.Outcome State Fault Refusal := readValue s.delaySecs s

/-- RD.FEEDBACK (R286). -/
def execRdFeedback (s : State) : Host.Outcome State Fault Refusal := readValue s.feedback s

/-- RD.WETMIX (R288). -/
def execRdWetmix (s : State) : Host.Outcome State Fault Refusal := readValue s.wetmix s

/-- RD.AMOUNT (R290). -/
def execRdAmount (s : State) : Host.Outcome State Fault Refusal := readValue s.amount s

/-- RD.RATE (R292). -/
def execRdRate (s : State) : Host.Outcome State Fault Refusal := readValue s.rate s

/-- RD.INTERP_MODE (R295). -/
def execRdInterpMode (s : State) : Host.Outcome State Fault Refusal :=
  readValue ((modeCode s.interpMode).zeroExtend 64) s

/-- RD.SEQ (R297). -/
def execRdSeq (s : State) : Host.Outcome State Fault Refusal := readValue (seqWord s) s

/-- RD.DBG_INDEX (R298). -/
def execRdDbgIndex (s : State) : Host.Outcome State Fault Refusal := readValue (s.dbgIndex.zeroExtend 64) s

/-- RD.DBG_DATA: ERR_DBG and 0 while not READY, while BUSY or with DBG_INDEX ≥ CAPACITY; otherwise
HistRead(DBG_INDEX), whose precondition the check has established (R293, R62). -/
def execRdDbgData (s : State) : Host.Outcome State Fault Refusal :=
  if s.status.ready = false ∨ s.status.busy = true ∨ s.capacity.toNat ≤ s.dbgIndex.toNat then
    .next (returned 0#64 (raise .dbg s))
  else readValue (histWord s s.dbgIndex.toNat) s

end Sys2Proof.Machine
end

