-- ==== Sys2Proof/Machine/Commands.lean ====
section
/-! DEFINITION. The commands carried by a write to CMD (44_sequencer.md R228 to R234). Each command is
decided in the order of R228: BUSY first, then the command's own checks (R316, R320). -/

namespace Sys2Proof.Machine

/-- The first check of every command: while BUSY it is dropped with ERR_BUSY (R228, R229). -/
def unlessBusy (s : State) (act : State → State) : Host.Outcome State Fault Refusal :=
  if s.status.busy then .next (raise .busy s) else .next (act s)

/-- PREPARE with BUSY = 0: refused once READY or for a rate out of range; otherwise CAPACITY, the zero
fill, CURSOR and READY (R232). PHASE and the parameters are not touched. -/
def prepare (s : State) : State :=
  if s.status.ready then raise .prepare s
  else if !rateAccepted s.sampleRate then raise .prepare s
  else
    let cap := (fmtToInt (fmtFloor s.sampleRate)).toNat
    { s with
      capacity := BitVec.ofNat 32 cap
      hist := histZeroFill s.hist cap
      cursor := 0#32
      status := { s.status with ready := true } }

/-- PROCESS with BUSY = 0: CH = 0 gives ERR_CHANNELS, a block that does not fit ERR_BLOCK; otherwise the
block is accepted (R234, R320). -/
def process (ch : BitVec 8) (frames : BitVec 20) (s : State) : State :=
  if ch = 0#8 then raise .channels s
  else if Config.frameMemWords < frames.toNat * ch.toNat then raise .block s
  else
    { s with
      blkCh := ch
      blkFrames := frames
      frameIdx := 0#20
      status := { s.status with busy := true }
      seqState := .start }

/-- CMD.NOP: no effect (R231). -/
def execCmdNop (s : State) : Host.Outcome State Fault Refusal := unlessBusy s fun s => s

/-- CMD.PREPARE (R232). -/
def execCmdPrepare (s : State) : Host.Outcome State Fault Refusal := unlessBusy s prepare

/-- CMD.PROCESS (R234). -/
def execCmdProcess (ch : BitVec 8) (frames : BitVec 20) (s : State) : Host.Outcome State Fault Refusal :=
  unlessBusy s (process ch frames)

/-- CMD.RESERVED: ERR_CMD, nothing else changes (R230). The word w is not stored (R313). -/
def execCmdReserved (_w : Word) (s : State) : Host.Outcome State Fault Refusal :=
  unlessBusy s (raise .cmd)

end Sys2Proof.Machine
end

