-- ==== Sys2Proof/Machine/BusWrite.lean ====
section
/-! DEFINITION. The meanings of the register writes WR.* (45_host_interface.md R271 to R299). -/

namespace Sys2Proof.Machine

/-- A write to a read-only register: ERR_ACCESS, the register unchanged, the data ignored (R271). -/
def refuseWrite (s : State) : Host.Outcome State Fault Refusal := .next (raise .access s)

/-- WR.ID (R21, R271). -/
def execWrId (_v : Word) (s : State) : Host.Outcome State Fault Refusal := refuseWrite s

/-- WR.STATUS (R22, R271). -/
def execWrStatus (_v : Word) (s : State) : Host.Outcome State Fault Refusal := refuseWrite s

/-- WR.CMD: the command dispatch on the data word (R228, R272). -/
def execWrCmd (w : Word) (s : State) : Host.Outcome State Fault Refusal :=
  match decodeCommand w with
  | .nop => execCmdNop s
  | .prepare => execCmdPrepare s
  | .process ch frames => execCmdProcess ch frames s
  | .reserved w => execCmdReserved w s

/-- WR.SAMPLE_RATE: locked once READY, any pattern before (R24, R277). -/
def execWrSampleRate (v : Word) (s : State) : Host.Outcome State Fault Refusal :=
  if s.status.ready then .next (raise .access s) else .next { s with sampleRate := v }

/-- WR.CAPACITY (R25, R271). -/
def execWrCapacity (_v : Word) (s : State) : Host.Outcome State Fault Refusal := refuseWrite s

/-- WR.CURSOR (R26, R271). -/
def execWrCursor (_v : Word) (s : State) : Host.Outcome State Fault Refusal := refuseWrite s

/-- WR.PHASE (R27, R271). -/
def execWrPhase (_v : Word) (s : State) : Host.Outcome State Fault Refusal := refuseWrite s

/-- WR.DELAY_SECS, at any time and as it is (R281, R285). -/
def execWrDelaySecs (v : Word) (s : State) : Host.Outcome State Fault Refusal := .next { s with delaySecs := v }

/-- WR.FEEDBACK (R281, R287). -/
def execWrFeedback (v : Word) (s : State) : Host.Outcome State Fault Refusal := .next { s with feedback := v }

/-- WR.WETMIX (R281, R289). -/
def execWrWetmix (v : Word) (s : State) : Host.Outcome State Fault Refusal := .next { s with wetmix := v }

/-- WR.AMOUNT (R281, R291). -/
def execWrAmount (v : Word) (s : State) : Host.Outcome State Fault Refusal := .next { s with amount := v }

/-- WR.RATE (R281, R294). -/
def execWrRate (v : Word) (s : State) : Host.Outcome State Fault Refusal := .next { s with rate := v }

/-- WR.INTERP_MODE: a reserved value raises ERR_ACCESS and changes nothing (R33, R296). -/
def execWrInterpMode (v : Word) (s : State) : Host.Outcome State Fault Refusal :=
  match modeOfWord v with
  | some m => .next { s with interpMode := m }
  | none => .next (raise .access s)

/-- WR.SEQ (R34, R271). -/
def execWrSeq (_v : Word) (s : State) : Host.Outcome State Fault Refusal := refuseWrite s

/-- WR.DBG_INDEX: bits 63:32 not zero raise ERR_ACCESS and change nothing (R35, R299). -/
def execWrDbgIndex (v : Word) (s : State) : Host.Outcome State Fault Refusal :=
  match dbgIndexOfWord v with
  | some i => .next { s with dbgIndex := i }
  | none => .next (raise .access s)

/-- WR.DBG_DATA (R36, R271). -/
def execWrDbgData (_v : Word) (s : State) : Host.Outcome State Fault Refusal := refuseWrite s

end Sys2Proof.Machine
end

