-- ==== Sys2Proof/Machine/FramePort.lean ====
section
/-! DEFINITION. The bus operations on frame memory (R282, R283) and the transactions the access check
refuses (R270). -/

namespace Sys2Proof.Machine

/-- RD.FRAME: while BUSY ERR_BUSY and a free value, otherwise the frame word (R282). -/
def execRdFrame (i : Nat) (s : State) : Host.Outcome State Fault Refusal :=
  if s.status.busy then .next (drew (returned (drawn s 0) (raise .busy s)))
  else
    match frameRead s i with
    | .ok v => .next (returned v s)
    | .error e => .fault e

/-- WR.FRAME: while BUSY ERR_BUSY and the write is dropped, otherwise the word is stored (R283). -/
def execWrFrame (i : Nat) (v : Word) (s : State) : Host.Outcome State Fault Refusal :=
  if s.status.busy then .next (raise .busy s)
  else
    match frameWrite s i v with
    | .ok s' => .next s'
    | .error e => .fault e

/-- BUS.ILLEGAL: ERR_ACCESS; a read returns 0, a write changes nothing else (R65, R79, R270). The
offset, the size and the data are not stored (R313). -/
def execBusIllegal (write : Bool) (_offset : BitVec 24) (_lanesOff : BitVec 8) (_data : Word) (s : State) :
    Host.Outcome State Fault Refusal :=
  if write then .next (raise .access s) else .next (returned 0#64 (raise .access s))

end Sys2Proof.Machine
end

