-- ==== Sys2Proof/Machine/Sequencer.lean ====
section
/-! DEFINITION. The actions of the eight sequencer states (44_sequencer.md R237 to R247). -/

namespace Sys2Proof.Machine

/-- SEQ.IDLE: no step is taken; all state is kept (R237, R326; log 14). -/
def execSeqIdle (s : State) : Host.Outcome State Fault Refusal := .next s

/-- SEQ.START: the readiness guard, once per block; a block that is not ready or empty ends here (R238). -/
def execSeqStart (s : State) : Host.Outcome State Fault Refusal :=
  if s.status.ready = false ∨ s.blkFrames = 0#20 then .next (blockEnd s) else .next (goto .fdlRead s)

/-- SEQ.FDL_READ: WET takes the interpolated read (R169, R170, R241); at a read position that is not finite
ERR_NONFINITE is raised, WET takes a free value and no history word is read (R166). -/
def execSeqFdlRead (s : State) : Host.Outcome State Fault Refusal :=
  let pos := readPos (drawn s) s
  if fmtIsFinite pos then
    match readHistory (drawn s) s pos with
    | .ok w => .next (drew (goto .downmix { s with wet := w }))
    | .error e => .fault e
  else .next (drew (goto .downmix (raise .nonfinite { s with wet := drawn s 9 })))

/-- SEQ.DOWNMIX: MONO_IN takes the mean of the frame's channels (R200, R242). -/
def execSeqDownmix (s : State) : Host.Outcome State Fault Refusal :=
  if frameInRange s then .next (drew (goto .upmix { s with monoIn := downmixValue (drawn s) s }))
  else .fault .frameIndex

/-- SEQ.UPMIX: every channel of the frame gets wet × wetmix added, in place (R201, R243). -/
def execSeqUpmix (s : State) : Host.Outcome State Fault Refusal :=
  if frameInRange s then
    .next (drew (goto .writeback
      (upmixInto (drawn s) (upmixAddend (drawn s) s) (frameStart s) s.blkCh.toNat s)))
  else .fault .frameIndex

/-- SEQ.WRITEBACK: H[CURSOR] takes MONO_IN + (WET × feedback) (R175, R244). -/
def execSeqWriteback (s : State) : Host.Outcome State Fault Refusal :=
  match histWrite s s.cursor.toNat (writebackValue (drawn s) s) with
  | .ok s' => .next (drew (goto .cursorAdv s'))
  | .error e => .fault e

/-- SEQ.CURSOR_ADV: the cursor advances modulo the capacity, which is at least 1 (R125, R126, R245). -/
def execSeqCursorAdv (s : State) : Host.Outcome State Fault Refusal :=
  if s.capacity = 0#32 then .fault .capacityZero
  else .next (goto .oscAdv { s with cursor := cursorNext s })

/-- SEQ.OSC_ADV: the phase advances, then the frame index; the next frame begins or the block ends
(R145, R246). -/
def execSeqOscAdv (s : State) : Host.Outcome State Fault Refusal :=
  let s' := drew { s with phase := oscNext (drawn s) s, frameIdx := s.frameIdx + 1#20 }
  if s'.frameIdx.toNat < s'.blkFrames.toNat then .next (goto .fdlRead s') else .next (blockEnd s')

end Sys2Proof.Machine
end

