-- ==== Sys2Proof/Machine/Dispatch.lean ====
section
/-! DEFINITION. The dispatch: one arm per instruction, each one call of its meaning. -/

namespace Sys2Proof.Machine

def exec (i : Instr) (s : State) : Host.Outcome State Fault Refusal :=
  match i with
  | .rdId => Sys2Proof.Machine.execRdId s
  | .wrId data => Sys2Proof.Machine.execWrId data s
  | .rdStatus => Sys2Proof.Machine.execRdStatus s
  | .wrStatus data => Sys2Proof.Machine.execWrStatus data s
  | .rdCmd => Sys2Proof.Machine.execRdCmd s
  | .wrCmd w => Sys2Proof.Machine.execWrCmd w s
  | .rdSampleRate => Sys2Proof.Machine.execRdSampleRate s
  | .wrSampleRate v => Sys2Proof.Machine.execWrSampleRate v s
  | .rdCapacity => Sys2Proof.Machine.execRdCapacity s
  | .wrCapacity data => Sys2Proof.Machine.execWrCapacity data s
  | .rdCursor => Sys2Proof.Machine.execRdCursor s
  | .wrCursor data => Sys2Proof.Machine.execWrCursor data s
  | .rdPhase => Sys2Proof.Machine.execRdPhase s
  | .wrPhase data => Sys2Proof.Machine.execWrPhase data s
  | .rdDelaySecs => Sys2Proof.Machine.execRdDelaySecs s
  | .wrDelaySecs v => Sys2Proof.Machine.execWrDelaySecs v s
  | .rdFeedback => Sys2Proof.Machine.execRdFeedback s
  | .wrFeedback v => Sys2Proof.Machine.execWrFeedback v s
  | .rdWetmix => Sys2Proof.Machine.execRdWetmix s
  | .wrWetmix v => Sys2Proof.Machine.execWrWetmix v s
  | .rdAmount => Sys2Proof.Machine.execRdAmount s
  | .wrAmount v => Sys2Proof.Machine.execWrAmount v s
  | .rdRate => Sys2Proof.Machine.execRdRate s
  | .wrRate v => Sys2Proof.Machine.execWrRate v s
  | .rdInterpMode => Sys2Proof.Machine.execRdInterpMode s
  | .wrInterpMode v => Sys2Proof.Machine.execWrInterpMode v s
  | .rdSeq => Sys2Proof.Machine.execRdSeq s
  | .wrSeq data => Sys2Proof.Machine.execWrSeq data s
  | .rdDbgIndex => Sys2Proof.Machine.execRdDbgIndex s
  | .wrDbgIndex v => Sys2Proof.Machine.execWrDbgIndex v s
  | .rdDbgData => Sys2Proof.Machine.execRdDbgData s
  | .wrDbgData data => Sys2Proof.Machine.execWrDbgData data s
  | .rdFrame n => Sys2Proof.Machine.execRdFrame n s
  | .wrFrame n v => Sys2Proof.Machine.execWrFrame n v s
  | .busIllegal write offset lanesOff data => Sys2Proof.Machine.execBusIllegal write offset lanesOff data s
  | .cmdNop => Sys2Proof.Machine.execCmdNop s
  | .cmdPrepare => Sys2Proof.Machine.execCmdPrepare s
  | .cmdProcess ch frames => Sys2Proof.Machine.execCmdProcess ch frames s
  | .cmdReserved w => Sys2Proof.Machine.execCmdReserved w s
  | .seqIdle => Sys2Proof.Machine.execSeqIdle s
  | .seqStart => Sys2Proof.Machine.execSeqStart s
  | .seqFdlRead => Sys2Proof.Machine.execSeqFdlRead s
  | .seqDownmix => Sys2Proof.Machine.execSeqDownmix s
  | .seqUpmix => Sys2Proof.Machine.execSeqUpmix s
  | .seqWriteback => Sys2Proof.Machine.execSeqWriteback s
  | .seqCursorAdv => Sys2Proof.Machine.execSeqCursorAdv s
  | .seqOscAdv => Sys2Proof.Machine.execSeqOscAdv s

end Sys2Proof.Machine
end

