-- ==== Sys2Proof/Machine/Fetch.lean ====
section
/-! DEFINITION. Which agent moves and which instruction it takes: the Host the transaction its program
has next, the Sequencer the action of its state (R14, R70, R236), the platform a reset (R350). -/

namespace Sys2Proof.Machine

/-- What the next step is: an instruction in a state from which the choice has been consumed, or a step
that runs none. -/
inductive Fetched where
  | run (i : Instr) (s : State)
  | quiet (s : State)
deriving DecidableEq, Repr

/-- The transaction a pending item issues; WAIT reads STATUS (R102). -/
def hostTransaction : HostItem → Transaction
  | .transaction t => t
  | .wait => readTransaction (regOffset .status)

/-- What is pending after an item was issued: WAIT repeats while the BUSY bit it reads is 1 (R102). -/
def hostRest (s : State) (item : HostItem) (rest : List HostItem) : List HostItem :=
  match item with
  | .transaction _ => rest
  | .wait => if s.status.busy then .wait :: rest else rest

/-- The Host's next step: the transaction at the head of its program; with nothing pending it takes none
(log 4). -/
def fetchHost (s : State) : Fetched :=
  match s.host with
  | [] => .quiet s
  | item :: rest =>
    .run (decodeTransaction (hostTransaction item)) { s with host := hostRest s item rest }

/-- The Sequencer's next step: the action SEQ_STATE encodes (R100, R236). -/
def fetchSequencer (s : State) : Fetched := .run (seqInstr (seqOfCode (seqCode s.seqState))) s

/-- The platform asserts reset: every register, memory and error bit as `State.reset` has them, any block
abandoned, the memories' contents unspecified anew (R350); the environment goes on (log 18). -/
def coreReset (s : State) : State :=
  { State.reset with
    readData := s.readData
    host := s.host
    turns := s.turns
    draws := s.draws
    epoch := s.epoch + 1 }

/-- The next step in the interleaving the list of turns gives; when it has run out, the Sequencer moves
whenever it can, else the Host, which makes the Sequencer weakly fair (R70, R373; log 3). -/
def fetch (s : State) : Fetched :=
  match s.turns with
  | [] => if s.seqState = .idle then fetchHost s else fetchSequencer s
  | .host :: ts => fetchHost { s with turns := ts }
  | .sequencer :: ts => fetchSequencer { s with turns := ts }
  | .reset :: ts => .quiet (coreReset { s with turns := ts })

/-- The transaction a 25-bit descriptor of the opcode table stands for: full size, zero data (R91). -/
def tableTransaction (w : Nat) : Transaction :=
  { write := w.testBit 24, offset := BitVec.ofNat 24 w, lanesOff := 0#8, data := 0#64 }

/-- A core in which the Sequencer takes tick states: prepared, as `INIT 1.0` leaves it, unless it already
is (R232, R238; log 13). -/
def preparedCore (s : State) : State :=
  if s.status.ready then s
  else
    { s with
      sampleRate := fmtOne
      capacity := 1#32
      cursor := 0#32
      hist := histZeroFill s.hist 1
      status := { s.status with ready := true } }

/-- A core in the middle of a block, as `CMD PROCESS 1, 1` leaves it, unless it already is (R234; log 13). -/
def acceptedBlock (s : State) : State :=
  if s.status.busy then s
  else
    { s with
      blkCh := 1#8
      blkFrames := 1#20
      frameIdx := 0#20
      status := { s.status with busy := true } }

/-- The Sequencer about to act in state q. -/
def sequencerAt (q : SeqState) (s : State) : State :=
  match q with
  | .idle => { s with seqState := .idle, status := { s.status with busy := false } }
  | .start => { acceptedBlock s with seqState := .start }
  | _ => { acceptedBlock (preparedCore s) with seqState := q }

end Sys2Proof.Machine
end

