-- ==== Sys2Proof/Machine/Step.lean ====
section
/-! DEFINITION. One step of the machine. -/

namespace Sys2Proof.Machine

/-- One step: fetch, then run what was fetched (R14). -/
def step (s : State) : Host.Outcome State Fault Refusal :=
  match fetch s with
  | .run i s' => exec i s'
  | .quiet s' => .next s'

/-- s with a row's word stored where the next step fetches: a SEQ code in SEQ_STATE (in a core that takes
that state, log 13), a BUS descriptor or a CMD word as the Host's next transaction; and the next turn
given to that agent. -/
def State.withFetchWord (s : State) (nbits w : Nat) : State :=
  if nbits ≤ 8 then
    { sequencerAt (seqOfCode (BitVec.ofNat 3 w)) s with turns := .sequencer :: s.turns }
  else if nbits ≤ 32 then
    { s with turns := .host :: s.turns, host := .transaction (tableTransaction w) :: s.host }
  else
    { s with
      turns := .host :: s.turns
      host := .transaction (writeTransaction (regOffset .cmd) (BitVec.ofNat 64 w)) :: s.host }

end Sys2Proof.Machine
end

