-- ==== Sys2Proof/Machine/HostProgram.lean ====
section
/-! DEFINITION. Host programs: the operations and pseudo-instructions of 30_encoding.md (R101, R102) and
the transactions they expand to. -/

namespace Sys2Proof.Machine

/-- A value of a host program (R101). -/
inductive HostValue where
  /-- A hexadecimal 64-bit pattern, taken as is. -/
  | pattern (v : Word)
  /-- A decimal number with a point or an exponent: ±digits · 10^exponent. -/
  | decimal (neg : Bool) (digits : Nat) (exponent : Int)
  /-- A decimal integer without a point. -/
  | integer (n : Nat)
deriving DecidableEq, Repr

/-- The 64-bit data of a value: a pattern as it is; a decimal number the binary64 value nearest to it, ties to even
(R101). A decimal integer without a point is that unsigned integer, as R101 says for INTERP_MODE and DBG_INDEX;
that it is the same for every other register, a frame word, SETP, INIT and LOADF, and is taken modulo 2^64, is the
model's. DESIGN CHOICE, unsafe: log 23. -/
def hostValueWord : HostValue → Word
  | .pattern v => v
  | .decimal neg digits exponent =>
    if 0 ≤ exponent then fmtOfRatio neg (digits * 10 ^ exponent.toNat) 1
    else fmtOfRatio neg digits (10 ^ (-exponent).toNat)
  | .integer n => BitVec.ofNat 64 n

/-- One line of a host program (R101, R102). -/
inductive HostLine where
  | rd (r : Reg)
  | wr (r : Reg) (v : HostValue)
  | rdf (i : Nat)
  | wrf (i : Nat) (v : HostValue)
  | cmdNop
  | cmdPrepare
  | cmdProcess (ch frames : Nat)
  | wait
  | loadf (i : Nat) (vs : List HostValue)
  | dbg (i : Nat)
  | setp (d f w a r : HostValue)
  | init (sr : HostValue)
deriving DecidableEq, Repr

/-- A read of the byte offset, as a pending item. -/
def readItem (offset : Nat) : HostItem := .transaction (readTransaction offset)

/-- A write to the byte offset, as a pending item. -/
def writeItem (offset : Nat) (v : Word) : HostItem := .transaction (writeTransaction offset v)

/-- LOADF's writes to successive frame words (R102). -/
def loadItems (i : Nat) : List HostValue → List HostItem
  | [] => []
  | v :: vs => writeItem (frameOffset i) (hostValueWord v) :: loadItems (i + 1) vs

/-- What a line expands to (R101, R102). Operands too large for their place have no encoding in the spec: a frame
offset is taken modulo 2^24, the word of CMD PROCESS modulo 2^64. DESIGN CHOICE, unsafe: log 24. -/
def assemble : HostLine → List HostItem
  | .rd r => [readItem (regOffset r)]
  | .wr r v => [writeItem (regOffset r) (hostValueWord v)]
  | .rdf i => [readItem (frameOffset i)]
  | .wrf i v => [writeItem (frameOffset i) (hostValueWord v)]
  | .cmdNop => [writeItem (regOffset .cmd) 0#64]
  | .cmdPrepare => [writeItem (regOffset .cmd) 1#64]
  | .cmdProcess ch frames =>
    [writeItem (regOffset .cmd) (BitVec.ofNat 64 frames <<< 12 ||| BitVec.ofNat 64 ch <<< 4 ||| 2#64)]
  | .wait => [.wait]
  | .loadf i vs => loadItems i vs
  | .dbg i => [writeItem (regOffset .dbgIndex) (BitVec.ofNat 64 i), readItem (regOffset .dbgData)]
  | .setp d f w a r =>
    [writeItem (regOffset .delaySecs) (hostValueWord d), writeItem (regOffset .feedback) (hostValueWord f),
      writeItem (regOffset .wetmix) (hostValueWord w), writeItem (regOffset .amount) (hostValueWord a),
      writeItem (regOffset .rate) (hostValueWord r)]
  | .init sr => [writeItem (regOffset .sampleRate) (hostValueWord sr), writeItem (regOffset .cmd) 1#64]

/-- A program's pending items. -/
def assembleProgram (lines : List HostLine) : List HostItem := lines.flatMap assemble

end Sys2Proof.Machine
end

