-- ==== Sys2Proof/Safety.lean ====
section
/-! DEFINITION. What a safe run is, in the terms the claims use: the invariant of the machine, the error
bits, and the premises of a claim about a block (R44, R302, R328). -/

namespace Sys2Proof.Machine

/-- Both memories are in canonical form, and the history lists only words of the architectural history
(R37). -/
abbrev memoryInv (s : State) : Prop :=
  s.frame.wf ∧ s.hist.wf ∧ ∀ c ∈ s.hist, c.1 < s.capacity.toNat

/-- The lifecycle (R44, R45, R220, R232): before PREPARE no capacity, no cursor and no tick state; after it
the capacity is the floor of the locked sample rate, and the cursor is a valid index. -/
abbrev lifecycleInv (s : State) : Prop :=
  (s.status.ready = false →
    s.capacity = 0#32 ∧ s.cursor = 0#32 ∧ (s.seqState = .idle ∨ s.seqState = .start)) ∧
  (s.status.ready = true →
    1 ≤ s.capacity.toNat ∧ s.capacity.toNat ≤ Config.maxCapacity ∧ s.cursor.toNat < s.capacity.toNat ∧
    fmtIsFinite s.sampleRate = true ∧ fmtToInt (fmtFloor s.sampleRate) = (s.capacity.toNat : Int))

/-- The block in progress (R22, R41, R63, R234): BUSY exactly outside IDLE, a block that has channels and
fits the frame memory, and inside a tick a frame index below the frame count. -/
abbrev blockInv (s : State) : Prop :=
  (s.status.busy = true ↔ s.seqState ≠ .idle) ∧
  (s.seqState ≠ .idle →
    s.blkCh ≠ 0#8 ∧ s.blkFrames.toNat * s.blkCh.toNat ≤ Config.frameMemWords) ∧
  (s.seqState = .start → s.frameIdx = 0#20) ∧
  (s.seqState ≠ .idle → s.seqState ≠ .start → s.frameIdx.toNat < s.blkFrames.toNat)

/-- The invariant of the machine. -/
abbrev Inv (s : State) : Prop := memoryInv s ∧ lifecycleInv s ∧ blockInv s

/-- No sticky error bit is set (R302, R328). -/
abbrev noError (s : State) : Prop := ∀ c : ErrorCause, statusError c s.status = false

/-- Every sticky error bit of s is set in t (R312). -/
abbrev errorsKept (s t : State) : Prop :=
  ∀ c : ErrorCause, statusError c s.status = true → statusError c t.status = true

/-- The first n frame words have been written since reset (R302). -/
abbrev framesWritten (s : State) (n : Nat) : Prop :=
  ∀ i < n, ∀ k < 8, (cellGet s.frame (frameOffset i + k)).isSome = true

/-- A full-size read at a byte offset, whatever its data lines carry (R65, R91). -/
abbrev readAt (offset : BitVec 24) (d : Word) : Transaction :=
  { write := false, offset := offset, lanesOff := 0#8, data := d }

/-- A full-size write at a byte offset (R65, R91). -/
abbrev writeAt (offset : BitVec 24) (v : Word) : Transaction :=
  { write := true, offset := offset, lanesOff := 0#8, data := v }

/-- How many sequencer steps a block has still to take (R240, R246, R373): six for each frame not begun, what
is left of the tick of the frame in progress, and the START step. -/
def stepsLeft (s : State) : Nat :=
  match s.seqState with
  | .idle => 0
  | .start => if s.status.ready then 6 * s.blkFrames.toNat + 1 else 1
  | .fdlRead => 6 * (s.blkFrames.toNat - s.frameIdx.toNat)
  | .downmix => 6 * (s.blkFrames.toNat - s.frameIdx.toNat) - 1
  | .upmix => 6 * (s.blkFrames.toNat - s.frameIdx.toNat) - 2
  | .writeback => 6 * (s.blkFrames.toNat - s.frameIdx.toNat) - 3
  | .cursorAdv => 6 * (s.blkFrames.toNat - s.frameIdx.toNat) - 4
  | .oscAdv => 6 * (s.blkFrames.toNat - s.frameIdx.toNat) - 5

/-- What the render context owns (R43, R321): the history, the cursor, the phase, the tick registers, and
where the capacity and the readiness stand. -/
abbrev renderStateSame (s t : State) : Prop :=
  t.hist = s.hist ∧ t.cursor = s.cursor ∧ t.phase = s.phase ∧ t.wet = s.wet ∧ t.monoIn = s.monoIn ∧
    t.capacity = s.capacity ∧ t.status.ready = s.status.ready

/-- w is the binary64 value of ±num/den units of 2^-1074 rounded once, to nearest, ties to even, as IEEE 754
has it (R11, R18; log 15): its sign is the given one, it is no NaN, it is infinite exactly from half a unit in
the last place past the largest finite value on, and a finite w is as near to the exact value as any finite
value is, its last bit being 0 where another is as near. -/
def roundedTo (w : Word) (neg : Bool) (num den : Nat) : Prop :=
  let exact : Int := if neg then -(num : Int) else (num : Int)
  fmtSign w = neg ∧ fmtIsNaN w = false ∧
  (fmtIsFinite w = false ↔ ((2 : Int) ^ 2098 - 2 ^ 2044) * (den : Int) ≤ (num : Int)) ∧
  (fmtIsFinite w = true → ∀ z : Word, fmtIsFinite z = true →
    |fmtUnits w * (den : Int) - exact| ≤ |fmtUnits z * (den : Int) - exact| ∧
    (|fmtUnits w * (den : Int) - exact| = |fmtUnits z * (den : Int) - exact| →
      fmtUnits z ≠ fmtUnits w → w.getLsbD 0 = false))

end Sys2Proof.Machine
end

