-- ==== Sys2Proof/Certificates/Slice0/Obligations.lean ====
section
/-! DEFINITION. The statements about the FDL core, for the provers. They come from the numbered rules of
spec/; the docstring of each names its rules. A statement about a free value (`Config.freeFmt`,
`Config.frameInit`, `Config.sin`) holds for every value of it. -/

open Sys2Proof Sys2Proof.Machine

/-! ### Encoding -/

/-- Decode and encode agree on every well-formed instruction (R91, R93, R100). -/
def Obligations.DecodeOfEncodeIsTheInstruction : Prop :=
  ∀ i : Instr, wellFormed i = true → decode (encode i).1 (encode i).2 = .ok i

/-- Whatever decodes is well formed, and encodes back to the form and the bytes it was read from, the data lines of
a read apart, which are ignored and encode as 0 (log 11): a decoded frame index is in range, a decoded BUS.ILLEGAL
is an access the check refuses, a decoded reserved command is not well formed (R91, R95; the byte layout of a
transaction is the model's, log 10). -/
def Obligations.DecodedInstructionsAreWellFormed : Prop :=
  ∀ (f : Form) (bs : List Byte) (i : Instr), decode f bs = .ok i →
    wellFormed i = true ∧ (encode i).1 = f ∧
    (encode i).2 =
      if f = .bus ∧ bs.getD 3 0#8 = 0#8 then bs.take 4 ++ List.replicate 8 0#8 ++ bs.drop 12 else bs

/-- The three command patterns, their operand fields, and nothing else (R93). -/
def Obligations.CommandWordsMatchThePatterns : Prop :=
  ∀ w : Word,
    (decodeCommand w = .nop ↔ w = 0x0000000000000000#64) ∧
    (decodeCommand w = .prepare ↔ w = 0x0000000000000001#64) ∧
    (∀ ch frames, decodeCommand w = .process ch frames ↔
      w &&& 0xFFFFFFFF0000000F#64 = 0x0000000000000002#64 ∧
        w.extractLsb' 4 8 = ch ∧ w.extractLsb' 12 20 = frames) ∧
    ((w ≠ 0#64 ∧ w ≠ 1#64 ∧ w &&& 0xFFFFFFFF0000000F#64 ≠ 2#64) → decodeCommand w = .reserved w)

/-- No command has a second word (R95, D35). -/
def Obligations.CommandDecodeIsInjective : Prop :=
  ∀ v w : Word, decodeCommand v = decodeCommand w → v = w

/-- Descriptors, command words and state codes written out from the spec's encodings decode to their instructions
(sanity; R64, R91, R93, R100): RD STATUS, WR FEEDBACK 0.5, WR CMD 0x4012, RDF 768, a misaligned read, PROCESS 2, 12,
a reserved command, WRITEBACK. The layout of a transaction as thirteen bytes (four of descriptor, eight of data, one
of disabled lanes) is the model's choice (log 10). -/
def Obligations.WrittenWordsDecode : Prop :=
  decode .bus [0x08#8, 0#8, 0#8, 0#8, 0#8, 0#8, 0#8, 0#8, 0#8, 0#8, 0#8, 0#8, 0#8] = .ok .rdStatus ∧
  decode .bus [0x40#8, 0#8, 0#8, 1#8, 0#8, 0#8, 0#8, 0#8, 0#8, 0#8, 0xE0#8, 0x3F#8, 0#8] =
    .ok (.wrFeedback 0x3FE0000000000000#64) ∧
  decode .bus [0x10#8, 0#8, 0#8, 1#8, 0x12#8, 0x40#8, 0#8, 0#8, 0#8, 0#8, 0#8, 0#8, 0#8] =
    .ok (.wrCmd 0x4012#64) ∧
  decode .bus [0x00#8, 0x28#8, 0#8, 0#8, 0#8, 0#8, 0#8, 0#8, 0#8, 0#8, 0#8, 0#8, 0#8] = .ok (.rdFrame 768) ∧
  decode .bus [0x04#8, 0#8, 0#8, 0#8, 0#8, 0#8, 0#8, 0#8, 0#8, 0#8, 0#8, 0#8, 0#8] =
    .ok (.busIllegal false 4#24 0#8 0#64) ∧
  decode .cmd [0x22#8, 0xC0#8, 0#8, 0#8, 0#8, 0#8, 0#8, 0#8] = .ok (.cmdProcess 2#8 12#20) ∧
  decode .cmd [0x11#8, 0#8, 0#8, 0#8, 0#8, 0#8, 0#8, 0#8] = .ok (.cmdReserved 0x11#64) ∧
  decode .seq [0x05#8] = .ok .seqWriteback

/-! ### The step -/

/-- A step runs the instruction the decoder reads: at the Host's turn the transaction at the head of its
program, which is then no longer pending; at the Sequencer's turn the state code in SEQ_STATE. Three choices of
the model stand in it: the list of turns, with the Sequencer moving unless it is IDLE once the list has run out
(log 3), the list of pending transactions (log 4), and SEQ.IDLE run as a step at a Sequencer turn in IDLE, where R236
has no enabled step (log 14). -/
def Obligations.StepRunsTheDecodedInstruction : Prop :=
  (∀ (s : State) (ts : List Turn) (tr : Transaction) (rest : List HostItem) (i : Instr),
    s.host = .transaction tr :: rest → decode .bus (transactionBytes tr) = .ok i →
      (s.turns = .host :: ts → step s = exec i { s with turns := ts, host := rest }) ∧
      (s.turns = [] → s.seqState = .idle → step s = exec i { s with host := rest })) ∧
  (∀ (s : State) (ts : List Turn) (i : Instr), decode .seq [(seqCode s.seqState).setWidth 8] = .ok i →
      (s.turns = .sequencer :: ts → step s = exec i { s with turns := ts }) ∧
      (s.turns = [] → s.seqState ≠ .idle → step s = exec i s))

/-- A write to CMD is the command its data encodes (R228, R272). -/
def Obligations.WriteToCmdRunsTheCommand : Prop :=
  ∀ (s : State) (w : Word), exec (.wrCmd w) s = exec (commandInstr (decodeCommand w)) s

/-- WAIT reads STATUS again and again until BUSY, bit 1 of the value it reads, is 0 (R102; the list of turns and the
list of pending items are the model's, logs 3 and 4). -/
def Obligations.WaitPollsStatusUntilIdle : Prop :=
  ∀ (s : State) (ts : List Turn) (rest : List HostItem), s.turns = .host :: ts → s.host = .wait :: rest →
    ∃ t, step s = .next t ∧
      t = { s with turns := ts, host := t.host, readData := t.readData } ∧
      t.readData = statusWord s.status ∧ t.readData.getLsbD 1 = s.status.busy ∧
      t.host = if t.readData.getLsbD 1 then .wait :: rest else rest

/-- Every line of a host program is the accesses R101 and R102 give it, with its operands in their ranges: RD, WR,
RDF, WRF, CMD NOP, CMD PREPARE, CMD PROCESS, WAIT, LOADF, DBG, SETP, INIT. Its values are those of R101: a hexadecimal
pattern as it is, a decimal number the binary64 value nearest to it, ties to even (digits · 10^e, or digits / 10^e), and
a decimal integer that unsigned integer. The abstract form of the lines is the model's (log 22), and so is what an integer
means where R101 does not say (log 23). -/
def Obligations.ProgramLinesAreTheirAccesses : Prop :=
  (∀ r : Reg, ∃ tr, assemble (.rd r) = [.transaction tr] ∧ decodeTransaction tr = readInstr r) ∧
  (∀ (r : Reg) (v : HostValue), ∃ tr,
    assemble (.wr r v) = [.transaction tr] ∧ decodeTransaction tr = writeInstr (hostValueWord v) r) ∧
  (∀ i < 65536, ∃ tr, assemble (.rdf i) = [.transaction tr] ∧ decodeTransaction tr = .rdFrame i) ∧
  (∀ i < 65536, ∀ v : HostValue, ∃ tr,
    assemble (.wrf i v) = [.transaction tr] ∧ decodeTransaction tr = .wrFrame i (hostValueWord v)) ∧
  (∀ ch < 256, ∀ frames < 2 ^ 20, ∃ tr,
    assemble (.cmdProcess ch frames) = [.transaction tr] ∧
      decodeTransaction tr = .wrCmd (processWord (BitVec.ofNat 8 ch) (BitVec.ofNat 20 frames))) ∧
  (∀ i : Nat, ∃ a b, assemble (.dbg i) = [.transaction a, .transaction b] ∧
    decodeTransaction a = .wrDbgIndex (BitVec.ofNat 64 i) ∧ decodeTransaction b = .rdDbgData) ∧
  (∀ d f w a r : HostValue, ∃ t1 t2 t3 t4 t5,
    assemble (.setp d f w a r) =
        [.transaction t1, .transaction t2, .transaction t3, .transaction t4, .transaction t5] ∧
      decodeTransaction t1 = .wrDelaySecs (hostValueWord d) ∧ decodeTransaction t2 = .wrFeedback (hostValueWord f) ∧
      decodeTransaction t3 = .wrWetmix (hostValueWord w) ∧ decodeTransaction t4 = .wrAmount (hostValueWord a) ∧
      decodeTransaction t5 = .wrRate (hostValueWord r)) ∧
  (∀ sr : HostValue, ∃ a b, assemble (.init sr) = [.transaction a, .transaction b] ∧
    decodeTransaction a = .wrSampleRate (hostValueWord sr) ∧ decodeTransaction b = .wrCmd 1#64) ∧
  (∃ tr, assemble .cmdNop = [.transaction tr] ∧ decodeTransaction tr = .wrCmd 0#64) ∧
  (∃ tr, assemble .cmdPrepare = [.transaction tr] ∧ decodeTransaction tr = .wrCmd 1#64) ∧
  assemble .wait = [.wait] ∧
  (∀ (i : Nat) (vs : List HostValue), i + vs.length ≤ 65536 →
    (assemble (.loadf i vs)).length = vs.length ∧
    ∀ (k : Nat) (v : HostValue), vs[k]? = some v → ∃ tr,
      (assemble (.loadf i vs))[k]? = some (.transaction tr) ∧
        decodeTransaction tr = .wrFrame (i + k) (hostValueWord v)) ∧
  (∀ v : Word, hostValueWord (.pattern v) = v) ∧
  (∀ (neg : Bool) (digits e : Nat),
    roundedTo (hostValueWord (.decimal neg digits (e : Int))) neg (digits * 10 ^ e * oneUnits) 1 ∧
    roundedTo (hostValueWord (.decimal neg digits (-(e : Int)))) neg (digits * oneUnits) (10 ^ e)) ∧
  (∀ n < 2 ^ 64, (hostValueWord (.integer n)).toNat = n)

/-! ### Reset -/

/-- The values R45 gives after reset. Nothing is claimed about H, FRAME, WET and MONO_IN, for which it gives
none. -/
def Obligations.ResetLeavesTheStatedValues : Prop :=
  statusWord State.reset.status = 0#64 ∧ State.reset.sampleRate = 0#64 ∧ State.reset.capacity = 0#32 ∧
  State.reset.cursor = 0#32 ∧ State.reset.phase = 0#64 ∧ State.reset.delaySecs = 0#64 ∧
  State.reset.feedback = 0#64 ∧ State.reset.wetmix = 0#64 ∧ State.reset.amount = 0#64 ∧
  State.reset.rate = 0#64 ∧ State.reset.interpMode = .linear ∧ seqWord State.reset = 0#64 ∧
  State.reset.dbgIndex = 0#32 ∧
  exec .rdId State.reset = .next { State.reset with readData := 0x3145524F434C4446#64 }

/-- Reset, asserted at any step boundary, clears every error bit and READY, abandons the block and puts
every register to its value of R45 (R350). That the Host's pending program and its last read value go on is
the model's choice (log 18). -/
def Obligations.ResetAbandonsTheBlock : Prop :=
  ∀ (s : State) (ts : List Turn), s.turns = .reset :: ts →
    ∃ t, step s = .next t ∧ noError t ∧ t.status.ready = false ∧ t.status.busy = false ∧
      t.sampleRate = 0#64 ∧ t.capacity = 0#32 ∧ t.cursor = 0#32 ∧ t.phase = 0#64 ∧ t.delaySecs = 0#64 ∧
      t.feedback = 0#64 ∧ t.wetmix = 0#64 ∧ t.amount = 0#64 ∧ t.rate = 0#64 ∧ t.interpMode = .linear ∧
      t.seqState = .idle ∧ t.blkCh = 0#8 ∧ t.blkFrames = 0#20 ∧ t.frameIdx = 0#20 ∧ t.dbgIndex = 0#32 ∧
      t.turns = ts ∧ t.host = s.host ∧ t.readData = s.readData

/-! ### The invariant -/

/-- The invariant holds after reset. -/
def Obligations.InvHoldsAfterReset : Prop := Inv State.reset

/-- Every step keeps the invariant: both memories in canonical form, the lifecycle of R44 and R220, and the
block in progress inside its bounds. -/
def Obligations.EveryStepKeepsInv : Prop :=
  ∀ s t : State, Inv s → step s = .next t → Inv t

/-- Under the invariant no step stops: neither agent is ever stuck, and the faults that R62, R63 and R125 call
unreachable are unreachable (R328 "No error stops either agent"). -/
def Obligations.InvStepsNeverStop : Prop :=
  ∀ s : State, Inv s → ∃ t, step s = .next t

/-! ### Register reads -/

/-- The reads of the registers that are held as whole values, with their encodings: each returns the value,
zero-extended, and has no other effect. -/
def Obligations.RegisterReadsReturnTheValue : Prop :=
  ∀ (s : State) (d : Word),
    (decodeTransaction (readAt 0x000#24 d) = .rdId ∧
      exec .rdId s = .next { s with readData := 0x3145524F434C4446#64 }) ∧
    (decodeTransaction (readAt 0x018#24 d) = .rdSampleRate ∧
      exec .rdSampleRate s = .next { s with readData := s.sampleRate }) ∧
    (decodeTransaction (readAt 0x020#24 d) = .rdCapacity ∧
      exec .rdCapacity s = .next { s with readData := BitVec.ofNat 64 s.capacity.toNat }) ∧
    (decodeTransaction (readAt 0x028#24 d) = .rdCursor ∧
      exec .rdCursor s = .next { s with readData := BitVec.ofNat 64 s.cursor.toNat }) ∧
    (decodeTransaction (readAt 0x030#24 d) = .rdPhase ∧
      exec .rdPhase s = .next { s with readData := s.phase }) ∧
    (decodeTransaction (readAt 0x038#24 d) = .rdDelaySecs ∧
      exec .rdDelaySecs s = .next { s with readData := s.delaySecs }) ∧
    (decodeTransaction (readAt 0x040#24 d) = .rdFeedback ∧
      exec .rdFeedback s = .next { s with readData := s.feedback }) ∧
    (decodeTransaction (readAt 0x048#24 d) = .rdWetmix ∧
      exec .rdWetmix s = .next { s with readData := s.wetmix }) ∧
    (decodeTransaction (readAt 0x050#24 d) = .rdAmount ∧
      exec .rdAmount s = .next { s with readData := s.amount }) ∧
    (decodeTransaction (readAt 0x058#24 d) = .rdRate ∧
      exec .rdRate s = .next { s with readData := s.rate }) ∧
    (decodeTransaction (readAt 0x060#24 d) = .rdInterpMode ∧
      exec .rdInterpMode s =
        .next { s with readData := if s.interpMode = .cubic then 1#64 else 0#64 }) ∧
    (decodeTransaction (readAt 0x070#24 d) = .rdDbgIndex ∧
      exec .rdDbgIndex s = .next { s with readData := BitVec.ofNat 64 s.dbgIndex.toNat })

/-- RD.STATUS: every field at its bit, the reserved bits 0, no other effect (R275). -/
def Obligations.StatusReadLaysOutTheBits : Prop :=
  ∀ (s : State) (d : Word), decodeTransaction (readAt 0x008#24 d) = .rdStatus ∧
    ∃ v : Word, exec .rdStatus s = .next { s with readData := v } ∧
      v.getLsbD 0 = s.status.ready ∧ v.getLsbD 1 = s.status.busy ∧ v.getLsbD 8 = s.status.errCmd ∧
      v.getLsbD 9 = s.status.errBusy ∧ v.getLsbD 10 = s.status.errPrepare ∧
      v.getLsbD 11 = s.status.errChannels ∧ v.getLsbD 12 = s.status.errBlock ∧
      v.getLsbD 13 = s.status.errNonfinite ∧ v.getLsbD 14 = s.status.errAccess ∧
      v.getLsbD 15 = s.status.errDbg ∧
      ∀ k, (2 ≤ k ∧ k ≤ 7) ∨ 16 ≤ k → v.getLsbD k = false

/-- RD.SEQ: the fields of R34 at their places, the reserved bits 0, no other effect (R297). -/
def Obligations.SeqReadLaysOutTheFields : Prop :=
  ∀ (s : State) (d : Word), decodeTransaction (readAt 0x068#24 d) = .rdSeq ∧
    ∃ v : Word, exec .rdSeq s = .next { s with readData := v } ∧
      v.extractLsb' 0 3 = seqCode s.seqState ∧ v.extractLsb' 3 5 = 0#5 ∧ v.extractLsb' 8 8 = s.blkCh ∧
      v.extractLsb' 16 20 = s.blkFrames ∧ v.extractLsb' 36 20 = s.frameIdx ∧ v.extractLsb' 56 8 = 0#8

/-- RD.DBG_DATA: ERR_DBG and 0 in the three refused cases, else the history word at DBG_INDEX (R293). -/
def Obligations.DebugPortReadsTheHistory : Prop :=
  ∀ (s : State) (d : Word), decodeTransaction (readAt 0x078#24 d) = .rdDbgData ∧
    ((s.status.ready = false ∨ s.status.busy = true ∨ s.capacity.toNat ≤ s.dbgIndex.toNat) →
      exec .rdDbgData s = .next { s with readData := 0#64, status := { s.status with errDbg := true } }) ∧
    (s.status.ready = true → s.status.busy = false → s.dbgIndex.toNat < s.capacity.toNat →
      exec .rdDbgData s = .next { s with readData := histWord s s.dbgIndex.toNat })

/-- RD.FRAME, with its encoding: while BUSY ERR_BUSY and any value (a free value, log 6), else the frame
word (R282). -/
def Obligations.FrameReadReturnsTheWord : Prop :=
  ∀ (s : State) (i : Nat) (d : Word), i < 65536 →
    decodeTransaction (readAt (BitVec.ofNat 24 (0x1000 + 8 * i)) d) = .rdFrame i ∧
    (s.status.busy = true →
      ∃ t, exec (.rdFrame i) s = .next t ∧
        t = { s with status := { s.status with errBusy := true }, readData := t.readData, draws := t.draws }) ∧
    (s.status.busy = false →
      exec (.rdFrame i) s = .next { s with readData := frameWord s i })

/-! ### Register and frame writes -/

/-- The five parameter writes, with their encodings: the pattern is stored as it is, at any time (R281). -/
def Obligations.ParameterWritesAreStoredAsTheyAre : Prop :=
  ∀ (s : State) (v : Word),
    (decodeTransaction (writeAt 0x038#24 v) = .wrDelaySecs v ∧
      exec (.wrDelaySecs v) s = .next { s with delaySecs := v }) ∧
    (decodeTransaction (writeAt 0x040#24 v) = .wrFeedback v ∧
      exec (.wrFeedback v) s = .next { s with feedback := v }) ∧
    (decodeTransaction (writeAt 0x048#24 v) = .wrWetmix v ∧
      exec (.wrWetmix v) s = .next { s with wetmix := v }) ∧
    (decodeTransaction (writeAt 0x050#24 v) = .wrAmount v ∧
      exec (.wrAmount v) s = .next { s with amount := v }) ∧
    (decodeTransaction (writeAt 0x058#24 v) = .wrRate v ∧
      exec (.wrRate v) s = .next { s with rate := v })

/-- WR.SAMPLE_RATE: stored while READY = 0, refused with ERR_ACCESS after (R277). -/
def Obligations.SampleRateWriteLocksOnceReady : Prop :=
  ∀ (s : State) (v : Word), decodeTransaction (writeAt 0x018#24 v) = .wrSampleRate v ∧
    (s.status.ready = false → exec (.wrSampleRate v) s = .next { s with sampleRate := v }) ∧
    (s.status.ready = true →
      exec (.wrSampleRate v) s = .next { s with status := { s.status with errAccess := true } })

/-- WR.INTERP_MODE: bits 63:2 must be 0 and MODE 0 or 1; otherwise ERR_ACCESS and no change (R296). -/
def Obligations.InterpModeWriteRejectsReservedValues : Prop :=
  ∀ (s : State) (v : Word), decodeTransaction (writeAt 0x060#24 v) = .wrInterpMode v ∧
    ((v.extractLsb' 2 62 ≠ 0#62 ∨ v.extractLsb' 0 2 = 2#2 ∨ v.extractLsb' 0 2 = 3#2) →
      exec (.wrInterpMode v) s = .next { s with status := { s.status with errAccess := true } }) ∧
    (v.extractLsb' 2 62 = 0#62 → v.extractLsb' 0 2 = 0#2 →
      exec (.wrInterpMode v) s = .next { s with interpMode := .linear }) ∧
    (v.extractLsb' 2 62 = 0#62 → v.extractLsb' 0 2 = 1#2 →
      exec (.wrInterpMode v) s = .next { s with interpMode := .cubic })

/-- WR.DBG_INDEX: bits 63:32 must be 0, otherwise ERR_ACCESS and no change (R299). -/
def Obligations.DbgIndexWriteRejectsHighBits : Prop :=
  ∀ (s : State) (v : Word), decodeTransaction (writeAt 0x070#24 v) = .wrDbgIndex v ∧
    (2 ^ 32 ≤ v.toNat →
      exec (.wrDbgIndex v) s = .next { s with status := { s.status with errAccess := true } }) ∧
    (v.toNat < 2 ^ 32 →
      ∃ t, exec (.wrDbgIndex v) s = .next t ∧ t = { s with dbgIndex := t.dbgIndex } ∧
        t.dbgIndex.toNat = v.toNat)

/-- The seven read-only registers refuse a write, and CMD refuses a read, each with its encoding (R271, R273). -/
def Obligations.ForbiddenDirectionsAreRefused : Prop :=
  ∀ (s : State) (v : Word),
    (decodeTransaction (writeAt 0x000#24 v) = .wrId v ∧
      exec (.wrId v) s = .next { s with status := { s.status with errAccess := true } }) ∧
    (decodeTransaction (writeAt 0x008#24 v) = .wrStatus v ∧
      exec (.wrStatus v) s = .next { s with status := { s.status with errAccess := true } }) ∧
    (decodeTransaction (writeAt 0x020#24 v) = .wrCapacity v ∧
      exec (.wrCapacity v) s = .next { s with status := { s.status with errAccess := true } }) ∧
    (decodeTransaction (writeAt 0x028#24 v) = .wrCursor v ∧
      exec (.wrCursor v) s = .next { s with status := { s.status with errAccess := true } }) ∧
    (decodeTransaction (writeAt 0x030#24 v) = .wrPhase v ∧
      exec (.wrPhase v) s = .next { s with status := { s.status with errAccess := true } }) ∧
    (decodeTransaction (writeAt 0x068#24 v) = .wrSeq v ∧
      exec (.wrSeq v) s = .next { s with status := { s.status with errAccess := true } }) ∧
    (decodeTransaction (writeAt 0x078#24 v) = .wrDbgData v ∧
      exec (.wrDbgData v) s = .next { s with status := { s.status with errAccess := true } }) ∧
    (decodeTransaction (readAt 0x010#24 v) = .rdCmd ∧
      exec .rdCmd s = .next { s with readData := 0#64, status := { s.status with errAccess := true } })

/-- Every transaction that is not 8 bytes, not aligned, or at a reserved or unmapped offset decodes to
BUS.ILLEGAL; it raises ERR_ACCESS, a read returns 0, and nothing else changes (R270). -/
def Obligations.IllegalAccessesAreRefused : Prop :=
  (∀ tr : Transaction,
    (tr.lanesOff ≠ 0#8 ∨ tr.offset.toNat % 8 ≠ 0 ∨ (0x080 ≤ tr.offset.toNat ∧ tr.offset.toNat ≤ 0xFFF) ∨
      0x1000 + 8 * 65536 ≤ tr.offset.toNat) →
    ∃ data, decodeTransaction tr = .busIllegal tr.write tr.offset tr.lanesOff data) ∧
  (∀ (s : State) (offset : BitVec 24) (lanesOff : BitVec 8) (data : Word),
    exec (.busIllegal true offset lanesOff data) s =
      .next { s with status := { s.status with errAccess := true } } ∧
    exec (.busIllegal false offset lanesOff data) s =
      .next { s with readData := 0#64, status := { s.status with errAccess := true } })

/-- WR.FRAME, with its encoding: while BUSY dropped with ERR_BUSY; else the eight bytes at offset 0x1000 + 8i
hold the word, little-endian, every other byte is as before, and nothing but frame memory changes (R283, R67). -/
def Obligations.FrameWriteStoresTheBytes : Prop :=
  ∀ (s : State) (i : Nat) (v : Word), i < 65536 →
    decodeTransaction (writeAt (BitVec.ofNat 24 (0x1000 + 8 * i)) v) = .wrFrame i v ∧
    (s.status.busy = true →
      exec (.wrFrame i v) s = .next { s with status := { s.status with errBusy := true } }) ∧
    (s.status.busy = false →
      ∃ t, exec (.wrFrame i v) s = .next t ∧ t = { s with frame := t.frame } ∧
        (∀ k < 8, frameByte t (0x1000 + 8 * i + k) = v.extractLsb' (8 * k) 8) ∧
        (∀ a, a < 0x1000 + 8 * i ∨ 0x1000 + 8 * i + 8 ≤ a → frameByte t a = frameByte s a))

/-- A frame word read returns the value last written to it, bit for bit, and a write leaves every other
frame word alone (R63). -/
def Obligations.FrameReadAfterWrite : Prop :=
  ∀ (s : State) (i j : Nat) (v : Word), i < 65536 → j < 65536 → s.status.busy = false →
    ∃ t, exec (.wrFrame i v) s = .next t ∧
      exec (.rdFrame j) t = .next { t with readData := if j = i then v else frameWord s j }

/-! ### Commands -/

/-- Any command while BUSY, well formed or not, is dropped with ERR_BUSY and changes nothing else (R229). -/
def Obligations.BusyDropsEveryCommand : Prop :=
  ∀ (s : State) (w : Word) (ch : BitVec 8) (frames : BitVec 20), s.status.busy = true →
    exec (.wrCmd w) s = .next { s with status := { s.status with errBusy := true } } ∧
    exec .cmdNop s = .next { s with status := { s.status with errBusy := true } } ∧
    exec .cmdPrepare s = .next { s with status := { s.status with errBusy := true } } ∧
    exec (.cmdProcess ch frames) s = .next { s with status := { s.status with errBusy := true } } ∧
    exec (.cmdReserved w) s = .next { s with status := { s.status with errBusy := true } }

/-- NOP, word 0, has no effect unless BUSY; with BUSY = 0 a word that is not well formed raises ERR_CMD and
changes nothing else (R230, R231). -/
def Obligations.NopAndReservedCommands : Prop :=
  ∀ s : State, decodeCommand 0#64 = .nop ∧
    (s.status.busy = true → exec .cmdNop s = .next { s with status := { s.status with errBusy := true } }) ∧
    (s.status.busy = false →
      exec .cmdNop s = .next s ∧ exec (.wrCmd 0#64) s = .next s ∧
      (∀ w, exec (.cmdReserved w) s = .next { s with status := { s.status with errCmd := true } }) ∧
      (∀ w, wellFormedCommand w = false →
        exec (.wrCmd w) s = .next { s with status := { s.status with errCmd := true } }))

/-- PREPARE accepted: READY = 0, BUSY = 0 and a finite rate whose floor n is from 1 to 262144. CAPACITY = n,
CURSOR = 0, READY = 1, the history words 0 to n − 1 are +0.0, the others as before, nothing else changes
(R232). -/
def Obligations.PrepareAllocatesTheHistory : Prop :=
  ∀ (s : State) (n : Nat), s.status.busy = false → s.status.ready = false → fmtIsFinite s.sampleRate = true →
    fmtFloorInt s.sampleRate = (n : Int) → 1 ≤ n → n ≤ 262144 →
    ∃ t, exec .cmdPrepare s = .next t ∧ exec (.wrCmd 1#64) s = .next t ∧
      t = { s with
            capacity := t.capacity, cursor := 0#32, hist := t.hist
            status := { s.status with ready := true } } ∧
      t.capacity.toNat = n ∧ (∀ i < n, histWord t i = 0#64) ∧ (∀ i, n ≤ i → histWord t i = histWord s i)

/-- PREPARE refused with BUSY = 0: once READY, or for a rate that is not finite or whose floor is below 1 or
above 262144, ERR_PREPARE is raised and nothing else changes (R232). -/
def Obligations.PrepareRefusesOtherRates : Prop :=
  ∀ s : State, s.status.busy = false →
    (s.status.ready = true ∨ fmtIsFinite s.sampleRate = false ∨ fmtFloorInt s.sampleRate < 1 ∨
      262144 < fmtFloorInt s.sampleRate) →
    exec .cmdPrepare s = .next { s with status := { s.status with errPrepare := true } }

/-- PROCESS with BUSY = 0: CH = 0 raises ERR_CHANNELS, a block over 65536 words ERR_BLOCK, both whatever READY
is and with nothing else changed; any other block is accepted (R234, R320). -/
def Obligations.ProcessAcceptsOrRefusesABlock : Prop :=
  ∀ (s : State) (ch : BitVec 8) (frames : BitVec 20), s.status.busy = false →
    ∃ t, exec (.cmdProcess ch frames) s = .next t ∧ exec (.wrCmd (processWord ch frames)) s = .next t ∧
      t = if ch.toNat = 0 then { s with status := { s.status with errChannels := true } }
          else if 65536 < frames.toNat * ch.toNat then { s with status := { s.status with errBlock := true } }
          else
            { s with
              blkCh := ch, blkFrames := frames, frameIdx := 0#20, seqState := .start
              status := { s.status with busy := true } }

/-! ### Sequencer states -/

/-- IDLE keeps all state. That its row of the table runs as a step that changes nothing is the model's reading
of R237 and R326 (log 14). -/
def Obligations.IdleKeepsTheState : Prop := ∀ s : State, exec .seqIdle s = .next s

/-- START begins the first tick of a ready block and ends any other without touching anything but SEQ_STATE
and BUSY, so that frame memory, H, CURSOR and PHASE are as before and no error is raised (R238, R239). -/
def Obligations.StartGuardsTheBlock : Prop :=
  ∀ s : State,
    (s.status.ready = true → s.blkFrames ≠ 0#20 → exec .seqStart s = .next { s with seqState := .fdlRead }) ∧
    (s.status.ready = false ∨ s.blkFrames = 0#20 →
      exec .seqStart s = .next { s with seqState := .idle, status := { s.status with busy := false } })

/-- FDL_READ at a read position that is not finite: ERR_NONFINITE is raised, WET is any value (a free value,
log 6), nothing else changes but SEQ_STATE, and the tick goes on with DOWNMIX; READY and the history play no
part (R166). -/
def Obligations.NonfiniteReadPositionIsRecorded : Prop :=
  ∀ s : State, fmtIsFinite (readPos (drawn s) s) = false →
    ∃ t, exec .seqFdlRead s = .next t ∧
      t = { s with
            wet := t.wet, draws := t.draws, seqState := .downmix
            status := { s.status with errNonfinite := true } }

/-- FDL_READ in LINEAR mode, complete: the read position from the products and the sums of R161 to R163 in
their order, the taps at the wrapped floor and ceiling, and the interpolation of R168 (R169). The free
values of the operations are the step's own (log 6). -/
def Obligations.LinearReadInterpolatesTwoTaps : Prop :=
  ∀ s : State, s.status.ready = true → s.capacity ≠ 0#32 → s.interpMode = .linear →
    let d := drawn s
    let delay := fmtMul (d 3) s.delaySecs s.sampleRate
    let value := fmtAdd (d 2)
      (fmtMul (d 1) (fmtSin (fmtMul (d 0) 0x401921FB54442D18#64 s.phase)) 0x3FE0000000000000#64)
      0x3FF0000000000000#64
    let pos := fmtAdd (d 7) (fmtSub (d 6) (fmtOfNat s.cursor.toNat) delay)
      (fmtMul (d 5) (fmtMul (d 4) value delay) s.amount)
    let a := histWord s (fmtFloorInt pos % (s.capacity.toNat : Int)).toNat
    let b := histWord s (fmtCeilInt pos % (s.capacity.toNat : Int)).toNat
    let t := fmtSub (d 8) pos (fmtFloor pos)
    fmtIsFinite pos = true →
      exec .seqFdlRead s = .next
        { s with
          wet := fmtAdd (d 12) a (fmtMul (d 11) (fmtSub (d 10) b a) t)
          seqState := .downmix
          draws := s.draws + 1 }

/-- FDL_READ in CUBIC mode: the four taps around the floor of the read position, wrapped as integers, and the
kernel of R170. -/
def Obligations.CubicReadUsesFourTaps : Prop :=
  ∀ s : State, s.status.ready = true → s.capacity ≠ 0#32 → s.interpMode = .cubic →
    let d := drawn s
    let pos := readPos d s
    let n := fmtFloorInt pos
    let at_ := fun m : Int => histWord s (m % (s.capacity.toNat : Int)).toNat
    let xm1 := at_ (n - 1)
    let x0 := at_ n
    let x1 := at_ (n + 1)
    let x2 := at_ (n + 2)
    let t := fmtSub (d 8) pos (fmtFloor pos)
    let c1 := fmtMul (d 11) 0x3FE0000000000000#64 (fmtSub (d 10) x1 xm1)
    let c2 := fmtSub (d 17)
      (fmtAdd (d 15) (fmtSub (d 13) xm1 (fmtMul (d 12) 0x4004000000000000#64 x0))
        (fmtMul (d 14) 0x4000000000000000#64 x1))
      (fmtMul (d 16) 0x3FE0000000000000#64 x2)
    let c3 := fmtAdd (d 22) (fmtMul (d 19) 0x3FE0000000000000#64 (fmtSub (d 18) x2 xm1))
      (fmtMul (d 21) 0x3FF8000000000000#64 (fmtSub (d 20) x0 x1))
    fmtIsFinite pos = true →
      exec .seqFdlRead s = .next
        { s with
          wet := fmtAdd (d 28)
            (fmtMul (d 27) (fmtAdd (d 26) (fmtMul (d 25) (fmtAdd (d 24) (fmtMul (d 23) c3 t) c2) t) c1) t) x0
          seqState := .downmix
          draws := s.draws + 1 }

/-- DOWNMIX: the channels of the frame summed from +0.0 in increasing order, one division by the channel count;
frame memory is only read (R200, R242). -/
def Obligations.DownmixAveragesTheChannels : Prop :=
  ∀ s : State, s.frameIdx.toNat * s.blkCh.toNat + s.blkCh.toNat ≤ 65536 →
    exec .seqDownmix s = .next
      { s with
        monoIn := fmtDiv (drawn s s.blkCh.toNat)
          ((List.range s.blkCh.toNat).foldl
            (fun acc c => fmtAdd (drawn s c) acc (frameWord s (s.frameIdx.toNat * s.blkCh.toNat + c))) 0#64)
          (fmtOfNat s.blkCh.toNat)
        seqState := .upmix
        draws := s.draws + 1 }

/-- UPMIX: wet × wetmix, computed once, is added to every channel of the frame in place; every byte outside
the frame's words is as before, and nothing else changes but SEQ_STATE (R201, R243). -/
def Obligations.UpmixAddsTheWetSignal : Prop :=
  ∀ s : State, s.frameIdx.toNat * s.blkCh.toNat + s.blkCh.toNat ≤ 65536 →
    ∃ t, exec .seqUpmix s = .next t ∧
      t = { s with frame := t.frame, seqState := .writeback, draws := t.draws } ∧
      (∀ c < s.blkCh.toNat,
        frameWord t (s.frameIdx.toNat * s.blkCh.toNat + c) =
          fmtAdd (drawn s (c + 1)) (frameWord s (s.frameIdx.toNat * s.blkCh.toNat + c))
            (fmtMul (drawn s 0) s.wet s.wetmix)) ∧
      (∀ a, a < 0x1000 + 8 * (s.frameIdx.toNat * s.blkCh.toNat) ∨
        0x1000 + 8 * (s.frameIdx.toNat * s.blkCh.toNat + s.blkCh.toNat) ≤ a → frameByte t a = frameByte s a)

/-- WRITEBACK: H[CURSOR] takes MONO_IN + (WET × feedback), every other history word is as before, frame memory
and every register but SEQ_STATE are unchanged (R175, R244). -/
def Obligations.WritebackStoresAtTheCursor : Prop :=
  ∀ s : State, s.status.ready = true → s.cursor.toNat < s.capacity.toNat →
    ∃ t, exec .seqWriteback s = .next t ∧
      t = { s with hist := t.hist, seqState := .cursorAdv, draws := t.draws } ∧
      histWord t s.cursor.toNat = fmtAdd (drawn s 1) s.monoIn (fmtMul (drawn s 0) s.wet s.feedback) ∧
      (∀ i, i ≠ s.cursor.toNat → histWord t i = histWord s i)

/-- CURSOR_ADV: the cursor advances by one modulo the capacity, and only it and SEQ_STATE change (R126, R245). -/
def Obligations.CursorAdvancesModuloCapacity : Prop :=
  ∀ s : State, s.cursor.toNat < s.capacity.toNat →
    ∃ t, exec .seqCursorAdv s = .next t ∧ t = { s with cursor := t.cursor, seqState := .oscAdv } ∧
      t.cursor.toNat = if s.cursor.toNat + 1 = s.capacity.toNat then 0 else s.cursor.toNat + 1

/-- OSC_ADV: the phase takes PHASE + (RATE / SAMPLE_RATE), the frame index one more; the next frame begins, or
the block ends with BUSY = 0 (R145, R246, R247). -/
def Obligations.OscAdvanceEndsTheTick : Prop :=
  ∀ s : State, s.frameIdx.toNat < s.blkFrames.toNat →
    ∃ t, exec .seqOscAdv s = .next t ∧
      t = { s with
            phase := fmtAdd (drawn s 1) s.phase (fmtDiv (drawn s 0) s.rate s.sampleRate)
            frameIdx := t.frameIdx, draws := t.draws, seqState := t.seqState, status := t.status } ∧
      t.frameIdx.toNat = s.frameIdx.toNat + 1 ∧
      (t.frameIdx.toNat < s.blkFrames.toNat → t.seqState = .fdlRead ∧ t.status = s.status) ∧
      (t.frameIdx.toNat = s.blkFrames.toNat → t.seqState = .idle ∧ t.status = { s.status with busy := false })

/-! ### Rules of the whole machine -/

/-- A step that is not a reset clears no sticky error bit, raising a bit that is set changes nothing, and reset
clears them all (R312). -/
def Obligations.ErrorBitsAreSticky : Prop :=
  (∀ s t : State, s.turns.head? ≠ some .reset → step s = .next t → errorsKept s t) ∧
  (∀ (c : ErrorCause) (s : State), statusError c s.status = true → raise c s = s) ∧
  (∀ (s t : State), s.turns.head? = some .reset → step s = .next t → noError t)

/-- A step that is not a reset raises at most one error bit, and of the Sequencer's actions only FDL_READ
raises one, ERR_NONFINITE (R315). -/
def Obligations.AtMostOneErrorPerStep : Prop :=
  (∀ s t : State, s.turns.head? ≠ some .reset → step s = .next t →
    ∃ c : ErrorCause, ∀ e : ErrorCause, e ≠ c → statusError e t.status = statusError e s.status) ∧
  (∀ (s t : State) (q : SeqState), exec (seqInstr q) s = .next t →
    ∀ e : ErrorCause, statusError e t.status = statusError e s.status ∨ (q = .fdlRead ∧ e = .nonfinite))

/-- What the render context owns no transaction of the Host changes, but for an accepted PREPARE, which leaves
the phase and the tick registers alone; while BUSY the Host changes neither frame memory nor SEQ (R43, R321). -/
def Obligations.HostCannotWriteRenderState : Prop :=
  ∀ (s t : State) (tr : Transaction), exec (decodeTransaction tr) s = .next t →
    (renderStateSame s t ∨
      (tr.write = true ∧ tr.offset = 0x010#24 ∧ tr.data = 1#64 ∧ s.status.ready = false ∧ s.status.busy = false ∧
        t.phase = s.phase ∧ t.wet = s.wet ∧ t.monoIn = s.monoIn)) ∧
    (s.status.busy = true → t.frame = s.frame ∧ seqWord t = seqWord s ∧ t.status.busy = true)

/-- No action of the Sequencer changes what the Host owns: the parameters, SAMPLE_RATE, INTERP_MODE, DBG_INDEX;
nor CAPACITY, READY, BLK_CH, BLK_FRAMES or what the Host last read (R43, R321). -/
def Obligations.SequencerCannotWriteHostState : Prop :=
  ∀ (s t : State) (q : SeqState), exec (seqInstr q) s = .next t →
    t.sampleRate = s.sampleRate ∧ t.delaySecs = s.delaySecs ∧ t.feedback = s.feedback ∧ t.wetmix = s.wetmix ∧
    t.amount = s.amount ∧ t.rate = s.rate ∧ t.interpMode = s.interpMode ∧ t.dbgIndex = s.dbgIndex ∧
    t.capacity = s.capacity ∧ t.status.ready = s.status.ready ∧ t.blkCh = s.blkCh ∧
    t.blkFrames = s.blkFrames ∧ t.readData = s.readData ∧ t.host = s.host ∧ t.turns = s.turns

/-- Once READY, nothing but reset clears READY or changes CAPACITY or SAMPLE_RATE (R22, R24, R25). -/
def Obligations.ReadinessIsForLife : Prop :=
  ∀ s t : State, s.status.ready = true → s.turns.head? ≠ some .reset → step s = .next t →
    t.status.ready = true ∧ t.capacity = s.capacity ∧ t.sampleRate = s.sampleRate

/-- The tick order: START, then FDL_READ, DOWNMIX, UPMIX, WRITEBACK, CURSOR_ADV, OSC_ADV, each once per frame; and each
writes what is its own: WET only FDL_READ, MONO_IN only DOWNMIX, frame memory only UPMIX, the history only WRITEBACK,
the cursor only CURSOR_ADV, the phase and the frame index only OSC_ADV (R240 to R246). -/
def Obligations.TickStatesFollowTheOrder : Prop :=
  ∀ s t : State, Inv s → exec (seqInstr s.seqState) s = .next t →
    (s.seqState = .start → t.seqState = .fdlRead ∨ t.seqState = .idle) ∧
    (s.seqState = .fdlRead → t.seqState = .downmix) ∧
    (s.seqState = .downmix → t.seqState = .upmix) ∧
    (s.seqState = .upmix → t.seqState = .writeback) ∧
    (s.seqState = .writeback → t.seqState = .cursorAdv) ∧
    (s.seqState = .cursorAdv → t.seqState = .oscAdv) ∧
    (s.seqState = .oscAdv → t.seqState = .fdlRead ∨ t.seqState = .idle) ∧
    (s.seqState ≠ .fdlRead → t.wet = s.wet) ∧
    (s.seqState ≠ .downmix → t.monoIn = s.monoIn) ∧
    (s.seqState ≠ .upmix → t.frame = s.frame) ∧
    (s.seqState ≠ .writeback → t.hist = s.hist) ∧
    (s.seqState ≠ .cursorAdv → t.cursor = s.cursor) ∧
    (s.seqState ≠ .oscAdv → t.phase = s.phase ∧ t.frameIdx = s.frameIdx)

/-- In any interleaving every action of the Sequencer brings the end of the block exactly one step nearer, and
no transaction of the Host delays it (R236, R318, R373). -/
def Obligations.SequencerProgressIsSteady : Prop :=
  (∀ s t : State, Inv s → s.seqState ≠ .idle → exec (seqInstr s.seqState) s = .next t →
    stepsLeft t + 1 = stepsLeft s) ∧
  (∀ (s t : State) (tr : Transaction), Inv s → s.seqState ≠ .idle → exec (decodeTransaction tr) s = .next t →
    stepsLeft t = stepsLeft s)

/-- A block accepted with READY = 1 ends after exactly 6·BLK_FRAMES + 1 sequencer steps, BUSY until then, with
FRAME_IDX at BLK_FRAMES and the cursor advanced once per frame modulo the capacity; a bypassed or empty block
ends after one step. Stated for the model's schedule with no turns listed (log 3), in which the Sequencer alone
moves (R248, R373). -/
def Obligations.BlockTakesSixStepsPerFrame : Prop :=
  ∀ s : State, Inv s → s.turns = [] → s.seqState = .start →
    (s.status.ready = true → s.blkFrames ≠ 0#20 →
      ∃ t : State, Host.Core.run Sys2Proof.core (6 * s.blkFrames.toNat + 1) s = .next t ∧
        t.seqState = .idle ∧ t.status.busy = false ∧ t.frameIdx = s.blkFrames ∧ t.host = s.host ∧
        t.cursor.toNat = (s.cursor.toNat + s.blkFrames.toNat) % s.capacity.toNat ∧
        (∀ n ≤ 6 * s.blkFrames.toNat, ∃ u : State,
          Host.Core.run Sys2Proof.core n s = .next u ∧ u.status.busy = true)) ∧
    (s.status.ready = false ∨ s.blkFrames = 0#20 →
      Host.Core.run Sys2Proof.core 1 s =
        .next { s with seqState := .idle, status := { s.status with busy := false } })

/-! ### Datapath -/

/-- WRAP(x, c) is the integer r in [0, c) with x − r divisible by c, for every integer x and every c ≥ 1
(R120, R122). -/
def Obligations.WrapIsTheFlooredModulus : Prop :=
  ∀ (x : Int) (c : Nat), 1 ≤ c →
    wrap x c < c ∧ (∃ q : Int, x - (wrap x c : Int) = q * (c : Int)) ∧
      ∀ r : Nat, r < c → (∃ q : Int, x - (r : Int) = q * (c : Int)) → r = wrap x c

/-- The sine the machine uses has the properties (a) to (d) of R142, whatever the configuration's raw sine. -/
def Obligations.SineHasTheAdmittedProperties : Prop :=
  (∀ x y : Word, x = y → fmtSin x = fmtSin y) ∧
  (∀ x : Word, fmtIsFinite x = true →
    fmtIsFinite (fmtSin x) = true ∧ -fmtUnits 0x3FF0000000000000#64 ≤ fmtUnits (fmtSin x) ∧
      fmtUnits (fmtSin x) ≤ fmtUnits 0x3FF0000000000000#64) ∧
  fmtSin 0x0000000000000000#64 = 0x0000000000000000#64 ∧ fmtSin 0x8000000000000000#64 = 0x8000000000000000#64 ∧
  (∀ x : Word, fmtIsFinite x = false → fmtIsNaN (fmtSin x) = true)

/-- 0.5 ≤ OSC.VALUE(phase) ≤ 1.5 wherever TWO_PI × phase does not overflow, and exactly 1.0 at phase +0.0
(R140, R141; the premise is the model's reading of R141, log 16). -/
def Obligations.OscillatorValueIsBounded : Prop :=
  (∀ (d : Nat → Word) (phase : Word), fmtIsFinite (fmtMul (d 0) 0x401921FB54442D18#64 phase) = true →
    fmtIsFinite (oscValue d phase) = true ∧
    (oneUnits : Int) ≤ 2 * fmtUnits (oscValue d phase) ∧ 2 * fmtUnits (oscValue d phase) ≤ 3 * (oneUnits : Int)) ∧
  (∀ d : Nat → Word, oscValue d 0x0000000000000000#64 = 0x3FF0000000000000#64)

/-- The fraction of a finite read position lies in [0, 1], and it is +0.0 at an integer position (R164, R165). -/
def Obligations.FractionLiesInTheUnitInterval : Prop :=
  ∀ (d : Nat → Word) (pos : Word), fmtIsFinite pos = true →
    fmtIsFinite (fraction d pos) = true ∧ 0 ≤ fmtUnits (fraction d pos) ∧
    fmtUnits (fraction d pos) ≤ (oneUnits : Int) ∧
    (fmtUnits pos % (oneUnits : Int) = 0 → fraction d pos = 0x0000000000000000#64)

/-- Floor and ceiling are the integers around the value, exactly, with the sign of a zero kept (R12). -/
def Obligations.FloorAndCeilAreExact : Prop :=
  ∀ x : Word, fmtIsFinite x = true →
    fmtIsFinite (fmtFloor x) = true ∧ fmtIsFinite (fmtCeil x) = true ∧
    (∃ n : Int, fmtUnits (fmtFloor x) = n * (oneUnits : Int) ∧ n * (oneUnits : Int) ≤ fmtUnits x ∧
      fmtUnits x < (n + 1) * (oneUnits : Int)) ∧
    (∃ n : Int, fmtUnits (fmtCeil x) = n * (oneUnits : Int) ∧ fmtUnits x ≤ n * (oneUnits : Int) ∧
      (n - 1) * (oneUnits : Int) < fmtUnits x) ∧
    (fmtUnits (fmtFloor x) = 0 → fmtSign (fmtFloor x) = fmtSign x) ∧
    (fmtUnits (fmtCeil x) = 0 → fmtSign (fmtCeil x) = fmtSign x)

/-- Addition, on every operand (R11, R18; IEEE 754's, log 15). Finite operands: the exact sum in units of 2^-1074 is
rounded once, to nearest, ties to even, to an infinity of the sum's sign exactly from half a unit in the last place past
the largest finite value on, and an exact zero is +0.0 unless both operands are −0.0. A NaN operand, or infinities of
opposite signs, give a NaN; any other infinite operand is the result. Subtraction adds the operand with its sign bit
negated. -/
def Obligations.AdditionRoundsToNearestEven : Prop :=
  ∀ d x y : Word,
    (fmtIsFinite x = true → fmtIsFinite y = true →
      (fmtUnits x + fmtUnits y = 0 → fmtMag (fmtAdd d x y) = 0 ∧
        fmtSign (fmtAdd d x y) = (fmtSign x && fmtSign y)) ∧
      (fmtUnits x + fmtUnits y ≠ 0 →
        roundedTo (fmtAdd d x y) (decide (fmtUnits x + fmtUnits y < 0)) (fmtUnits x + fmtUnits y).natAbs 1)) ∧
    (fmtIsNaN x = true ∨ fmtIsNaN y = true → fmtIsNaN (fmtAdd d x y) = true) ∧
    (fmtIsInf x = true → fmtIsInf y = true → fmtSign x ≠ fmtSign y → fmtIsNaN (fmtAdd d x y) = true) ∧
    (fmtIsInf x = true → fmtIsNaN y = false → (fmtIsInf y = true → fmtSign x = fmtSign y) → fmtAdd d x y = x) ∧
    (fmtIsInf y = true → fmtIsFinite x = true → fmtAdd d x y = y) ∧
    fmtSub d x y = fmtAdd d x (y ^^^ 0x8000000000000000#64)

/-- Multiplication and division, on every operand (R11, R18; IEEE 754's, log 15). Finite operands: the exact product,
x·y / 2^1074 units, and the exact quotient by a non-zero divisor, x·2^1074 / y units, are rounded once, to nearest,
ties to even, to an infinity exactly from half a unit in the last place past the largest finite value on, with the sign
of the operands' signs. A non-zero finite value over zero is an infinity of that sign, and 0/0 a NaN. A NaN operand, an
infinity times zero and an infinity over an infinity give a NaN; otherwise an infinite factor or dividend gives an
infinity and an infinite divisor a zero, with that sign. -/
def Obligations.ProductsAndQuotientsRoundToNearestEven : Prop :=
  ∀ d x y : Word,
    (fmtIsFinite x = true → fmtIsFinite y = true →
      roundedTo (fmtMul d x y) (fmtSign x != fmtSign y) (fmtUnits x * fmtUnits y).natAbs oneUnits ∧
      (fmtMag y ≠ 0 →
        roundedTo (fmtDiv d x y) (fmtSign x != fmtSign y) ((fmtUnits x).natAbs * oneUnits) (fmtUnits y).natAbs) ∧
      (fmtMag y = 0 → fmtMag x ≠ 0 →
        fmtIsInf (fmtDiv d x y) = true ∧ fmtSign (fmtDiv d x y) = (fmtSign x != fmtSign y)) ∧
      (fmtMag y = 0 → fmtMag x = 0 → fmtIsNaN (fmtDiv d x y) = true)) ∧
    (fmtIsNaN x = true ∨ fmtIsNaN y = true →
      fmtIsNaN (fmtMul d x y) = true ∧ fmtIsNaN (fmtDiv d x y) = true) ∧
    ((fmtIsInf x = true ∧ fmtMag y = 0) ∨ (fmtMag x = 0 ∧ fmtIsInf y = true) → fmtIsNaN (fmtMul d x y) = true) ∧
    ((fmtIsInf x = true ∧ fmtMag y ≠ 0 ∧ fmtIsNaN y = false) ∨
        (fmtIsInf y = true ∧ fmtMag x ≠ 0 ∧ fmtIsNaN x = false) →
      fmtIsInf (fmtMul d x y) = true ∧ fmtSign (fmtMul d x y) = (fmtSign x != fmtSign y)) ∧
    (fmtIsInf x = true → fmtIsInf y = true → fmtIsNaN (fmtDiv d x y) = true) ∧
    (fmtIsInf x = true → fmtIsFinite y = true →
      fmtIsInf (fmtDiv d x y) = true ∧ fmtSign (fmtDiv d x y) = (fmtSign x != fmtSign y)) ∧
    (fmtIsFinite x = true → fmtIsInf y = true →
      fmtMag (fmtDiv d x y) = 0 ∧ fmtSign (fmtDiv d x y) = (fmtSign x != fmtSign y))

/-- With amount = +0.0 and a finite product of OSC.VALUE and delay_samples, the oscillator contributes nothing:
the modulation is a zero and read_pos is toF(cursor) − delay_samples, bit for bit (R174). -/
def Obligations.ZeroAmountIgnoresTheOscillator : Prop :=
  ∀ (d : Nat → Word) (s : State), s.amount = 0x0000000000000000#64 →
    fmtIsFinite (fmtMul (d 4) (oscValue d s.phase) (fmtMul (d 3) s.delaySecs s.sampleRate)) = true →
    fmtMag (modulation d s) = 0 ∧
    readPos d s = fmtSub (d 6) (fmtOfNat s.cursor.toNat) (fmtMul (d 3) s.delaySecs s.sampleRate)

/-- The bypass law of one tick: with wetmix = +0.0 and a finite WET, UPMIX leaves every frame word bit for bit,
provided no channel of the frame is −0.0 or a NaN (R178, R201). -/
def Obligations.ZeroWetmixLeavesTheFrame : Prop :=
  ∀ s : State, s.wetmix = 0x0000000000000000#64 → fmtIsFinite s.wet = true →
    s.frameIdx.toNat * s.blkCh.toNat + s.blkCh.toNat ≤ 65536 →
    (∀ c < s.blkCh.toNat,
      frameWord s (s.frameIdx.toNat * s.blkCh.toNat + c) ≠ 0x8000000000000000#64 ∧
      fmtIsNaN (frameWord s (s.frameIdx.toNat * s.blkCh.toNat + c)) = false) →
    ∃ t, exec .seqUpmix s = .next t ∧ ∀ j, frameWord t j = frameWord s j

/-- A rate of +0.0 at a finite positive SAMPLE_RATE leaves the phase unchanged: bit for bit when it is neither −0.0 nor
a NaN; −0.0 becomes +0.0, of the same value, and a NaN stays a NaN (R145). -/
def Obligations.ZeroRateKeepsThePhase : Prop :=
  ∀ s : State, s.rate = 0x0000000000000000#64 → fmtIsFinite s.sampleRate = true → fmtMag s.sampleRate ≠ 0 →
    fmtSign s.sampleRate = false →
    ∃ t, exec .seqOscAdv s = .next t ∧
      (fmtIsNaN s.phase = false → s.phase ≠ 0x8000000000000000#64 → t.phase = s.phase) ∧
      (s.phase = 0x8000000000000000#64 → t.phase = 0x0000000000000000#64) ∧
      (fmtIsNaN s.phase = true → fmtIsNaN t.phase = true)
end

