-- ==== Sys2Proof/Laws/State.lean ====
section
/-! SUPPORT. One lemma per field per named update of State, each true by unfolding the update once, so that
no later proof unfolds a record update. -/

namespace Sys2Proof.Machine

/-! ### `raise` -/

@[simp] theorem raise_status (c : ErrorCause) (s : State) : (raise c s).status = statusWith c s.status := rfl
@[simp] theorem raise_sampleRate (c : ErrorCause) (s : State) : (raise c s).sampleRate = s.sampleRate := rfl
@[simp] theorem raise_capacity (c : ErrorCause) (s : State) : (raise c s).capacity = s.capacity := rfl
@[simp] theorem raise_cursor (c : ErrorCause) (s : State) : (raise c s).cursor = s.cursor := rfl
@[simp] theorem raise_phase (c : ErrorCause) (s : State) : (raise c s).phase = s.phase := rfl
@[simp] theorem raise_delaySecs (c : ErrorCause) (s : State) : (raise c s).delaySecs = s.delaySecs := rfl
@[simp] theorem raise_feedback (c : ErrorCause) (s : State) : (raise c s).feedback = s.feedback := rfl
@[simp] theorem raise_wetmix (c : ErrorCause) (s : State) : (raise c s).wetmix = s.wetmix := rfl
@[simp] theorem raise_amount (c : ErrorCause) (s : State) : (raise c s).amount = s.amount := rfl
@[simp] theorem raise_rate (c : ErrorCause) (s : State) : (raise c s).rate = s.rate := rfl
@[simp] theorem raise_interpMode (c : ErrorCause) (s : State) : (raise c s).interpMode = s.interpMode := rfl
@[simp] theorem raise_seqState (c : ErrorCause) (s : State) : (raise c s).seqState = s.seqState := rfl
@[simp] theorem raise_blkCh (c : ErrorCause) (s : State) : (raise c s).blkCh = s.blkCh := rfl
@[simp] theorem raise_blkFrames (c : ErrorCause) (s : State) : (raise c s).blkFrames = s.blkFrames := rfl
@[simp] theorem raise_frameIdx (c : ErrorCause) (s : State) : (raise c s).frameIdx = s.frameIdx := rfl
@[simp] theorem raise_dbgIndex (c : ErrorCause) (s : State) : (raise c s).dbgIndex = s.dbgIndex := rfl
@[simp] theorem raise_hist (c : ErrorCause) (s : State) : (raise c s).hist = s.hist := rfl
@[simp] theorem raise_frame (c : ErrorCause) (s : State) : (raise c s).frame = s.frame := rfl
@[simp] theorem raise_wet (c : ErrorCause) (s : State) : (raise c s).wet = s.wet := rfl
@[simp] theorem raise_monoIn (c : ErrorCause) (s : State) : (raise c s).monoIn = s.monoIn := rfl
@[simp] theorem raise_readData (c : ErrorCause) (s : State) : (raise c s).readData = s.readData := rfl
@[simp] theorem raise_host (c : ErrorCause) (s : State) : (raise c s).host = s.host := rfl
@[simp] theorem raise_turns (c : ErrorCause) (s : State) : (raise c s).turns = s.turns := rfl
@[simp] theorem raise_draws (c : ErrorCause) (s : State) : (raise c s).draws = s.draws := rfl
@[simp] theorem raise_epoch (c : ErrorCause) (s : State) : (raise c s).epoch = s.epoch := rfl

/-! ### `returned` -/

@[simp] theorem returned_status (v : Word) (s : State) : (returned v s).status = s.status := rfl
@[simp] theorem returned_sampleRate (v : Word) (s : State) : (returned v s).sampleRate = s.sampleRate := rfl
@[simp] theorem returned_capacity (v : Word) (s : State) : (returned v s).capacity = s.capacity := rfl
@[simp] theorem returned_cursor (v : Word) (s : State) : (returned v s).cursor = s.cursor := rfl
@[simp] theorem returned_phase (v : Word) (s : State) : (returned v s).phase = s.phase := rfl
@[simp] theorem returned_delaySecs (v : Word) (s : State) : (returned v s).delaySecs = s.delaySecs := rfl
@[simp] theorem returned_feedback (v : Word) (s : State) : (returned v s).feedback = s.feedback := rfl
@[simp] theorem returned_wetmix (v : Word) (s : State) : (returned v s).wetmix = s.wetmix := rfl
@[simp] theorem returned_amount (v : Word) (s : State) : (returned v s).amount = s.amount := rfl
@[simp] theorem returned_rate (v : Word) (s : State) : (returned v s).rate = s.rate := rfl
@[simp] theorem returned_interpMode (v : Word) (s : State) : (returned v s).interpMode = s.interpMode := rfl
@[simp] theorem returned_seqState (v : Word) (s : State) : (returned v s).seqState = s.seqState := rfl
@[simp] theorem returned_blkCh (v : Word) (s : State) : (returned v s).blkCh = s.blkCh := rfl
@[simp] theorem returned_blkFrames (v : Word) (s : State) : (returned v s).blkFrames = s.blkFrames := rfl
@[simp] theorem returned_frameIdx (v : Word) (s : State) : (returned v s).frameIdx = s.frameIdx := rfl
@[simp] theorem returned_dbgIndex (v : Word) (s : State) : (returned v s).dbgIndex = s.dbgIndex := rfl
@[simp] theorem returned_hist (v : Word) (s : State) : (returned v s).hist = s.hist := rfl
@[simp] theorem returned_frame (v : Word) (s : State) : (returned v s).frame = s.frame := rfl
@[simp] theorem returned_wet (v : Word) (s : State) : (returned v s).wet = s.wet := rfl
@[simp] theorem returned_monoIn (v : Word) (s : State) : (returned v s).monoIn = s.monoIn := rfl
@[simp] theorem returned_readData (v : Word) (s : State) : (returned v s).readData = v := rfl
@[simp] theorem returned_host (v : Word) (s : State) : (returned v s).host = s.host := rfl
@[simp] theorem returned_turns (v : Word) (s : State) : (returned v s).turns = s.turns := rfl
@[simp] theorem returned_draws (v : Word) (s : State) : (returned v s).draws = s.draws := rfl
@[simp] theorem returned_epoch (v : Word) (s : State) : (returned v s).epoch = s.epoch := rfl

/-! ### `drew` -/

@[simp] theorem drew_status (s : State) : (drew s).status = s.status := rfl
@[simp] theorem drew_sampleRate (s : State) : (drew s).sampleRate = s.sampleRate := rfl
@[simp] theorem drew_capacity (s : State) : (drew s).capacity = s.capacity := rfl
@[simp] theorem drew_cursor (s : State) : (drew s).cursor = s.cursor := rfl
@[simp] theorem drew_phase (s : State) : (drew s).phase = s.phase := rfl
@[simp] theorem drew_delaySecs (s : State) : (drew s).delaySecs = s.delaySecs := rfl
@[simp] theorem drew_feedback (s : State) : (drew s).feedback = s.feedback := rfl
@[simp] theorem drew_wetmix (s : State) : (drew s).wetmix = s.wetmix := rfl
@[simp] theorem drew_amount (s : State) : (drew s).amount = s.amount := rfl
@[simp] theorem drew_rate (s : State) : (drew s).rate = s.rate := rfl
@[simp] theorem drew_interpMode (s : State) : (drew s).interpMode = s.interpMode := rfl
@[simp] theorem drew_seqState (s : State) : (drew s).seqState = s.seqState := rfl
@[simp] theorem drew_blkCh (s : State) : (drew s).blkCh = s.blkCh := rfl
@[simp] theorem drew_blkFrames (s : State) : (drew s).blkFrames = s.blkFrames := rfl
@[simp] theorem drew_frameIdx (s : State) : (drew s).frameIdx = s.frameIdx := rfl
@[simp] theorem drew_dbgIndex (s : State) : (drew s).dbgIndex = s.dbgIndex := rfl
@[simp] theorem drew_hist (s : State) : (drew s).hist = s.hist := rfl
@[simp] theorem drew_frame (s : State) : (drew s).frame = s.frame := rfl
@[simp] theorem drew_wet (s : State) : (drew s).wet = s.wet := rfl
@[simp] theorem drew_monoIn (s : State) : (drew s).monoIn = s.monoIn := rfl
@[simp] theorem drew_readData (s : State) : (drew s).readData = s.readData := rfl
@[simp] theorem drew_host (s : State) : (drew s).host = s.host := rfl
@[simp] theorem drew_turns (s : State) : (drew s).turns = s.turns := rfl
@[simp] theorem drew_draws (s : State) : (drew s).draws = s.draws + 1 := rfl
@[simp] theorem drew_epoch (s : State) : (drew s).epoch = s.epoch := rfl

/-! ### `goto` -/

@[simp] theorem goto_status (q : SeqState) (s : State) : (goto q s).status = s.status := rfl
@[simp] theorem goto_sampleRate (q : SeqState) (s : State) : (goto q s).sampleRate = s.sampleRate := rfl
@[simp] theorem goto_capacity (q : SeqState) (s : State) : (goto q s).capacity = s.capacity := rfl
@[simp] theorem goto_cursor (q : SeqState) (s : State) : (goto q s).cursor = s.cursor := rfl
@[simp] theorem goto_phase (q : SeqState) (s : State) : (goto q s).phase = s.phase := rfl
@[simp] theorem goto_delaySecs (q : SeqState) (s : State) : (goto q s).delaySecs = s.delaySecs := rfl
@[simp] theorem goto_feedback (q : SeqState) (s : State) : (goto q s).feedback = s.feedback := rfl
@[simp] theorem goto_wetmix (q : SeqState) (s : State) : (goto q s).wetmix = s.wetmix := rfl
@[simp] theorem goto_amount (q : SeqState) (s : State) : (goto q s).amount = s.amount := rfl
@[simp] theorem goto_rate (q : SeqState) (s : State) : (goto q s).rate = s.rate := rfl
@[simp] theorem goto_interpMode (q : SeqState) (s : State) : (goto q s).interpMode = s.interpMode := rfl
@[simp] theorem goto_seqState (q : SeqState) (s : State) : (goto q s).seqState = q := rfl
@[simp] theorem goto_blkCh (q : SeqState) (s : State) : (goto q s).blkCh = s.blkCh := rfl
@[simp] theorem goto_blkFrames (q : SeqState) (s : State) : (goto q s).blkFrames = s.blkFrames := rfl
@[simp] theorem goto_frameIdx (q : SeqState) (s : State) : (goto q s).frameIdx = s.frameIdx := rfl
@[simp] theorem goto_dbgIndex (q : SeqState) (s : State) : (goto q s).dbgIndex = s.dbgIndex := rfl
@[simp] theorem goto_hist (q : SeqState) (s : State) : (goto q s).hist = s.hist := rfl
@[simp] theorem goto_frame (q : SeqState) (s : State) : (goto q s).frame = s.frame := rfl
@[simp] theorem goto_wet (q : SeqState) (s : State) : (goto q s).wet = s.wet := rfl
@[simp] theorem goto_monoIn (q : SeqState) (s : State) : (goto q s).monoIn = s.monoIn := rfl
@[simp] theorem goto_readData (q : SeqState) (s : State) : (goto q s).readData = s.readData := rfl
@[simp] theorem goto_host (q : SeqState) (s : State) : (goto q s).host = s.host := rfl
@[simp] theorem goto_turns (q : SeqState) (s : State) : (goto q s).turns = s.turns := rfl
@[simp] theorem goto_draws (q : SeqState) (s : State) : (goto q s).draws = s.draws := rfl
@[simp] theorem goto_epoch (q : SeqState) (s : State) : (goto q s).epoch = s.epoch := rfl

/-! ### `blockEnd` -/

@[simp] theorem blockEnd_status (s : State) : (blockEnd s).status = { s.status with busy := false } := rfl
@[simp] theorem blockEnd_sampleRate (s : State) : (blockEnd s).sampleRate = s.sampleRate := rfl
@[simp] theorem blockEnd_capacity (s : State) : (blockEnd s).capacity = s.capacity := rfl
@[simp] theorem blockEnd_cursor (s : State) : (blockEnd s).cursor = s.cursor := rfl
@[simp] theorem blockEnd_phase (s : State) : (blockEnd s).phase = s.phase := rfl
@[simp] theorem blockEnd_delaySecs (s : State) : (blockEnd s).delaySecs = s.delaySecs := rfl
@[simp] theorem blockEnd_feedback (s : State) : (blockEnd s).feedback = s.feedback := rfl
@[simp] theorem blockEnd_wetmix (s : State) : (blockEnd s).wetmix = s.wetmix := rfl
@[simp] theorem blockEnd_amount (s : State) : (blockEnd s).amount = s.amount := rfl
@[simp] theorem blockEnd_rate (s : State) : (blockEnd s).rate = s.rate := rfl
@[simp] theorem blockEnd_interpMode (s : State) : (blockEnd s).interpMode = s.interpMode := rfl
@[simp] theorem blockEnd_seqState (s : State) : (blockEnd s).seqState = .idle := rfl
@[simp] theorem blockEnd_blkCh (s : State) : (blockEnd s).blkCh = s.blkCh := rfl
@[simp] theorem blockEnd_blkFrames (s : State) : (blockEnd s).blkFrames = s.blkFrames := rfl
@[simp] theorem blockEnd_frameIdx (s : State) : (blockEnd s).frameIdx = s.frameIdx := rfl
@[simp] theorem blockEnd_dbgIndex (s : State) : (blockEnd s).dbgIndex = s.dbgIndex := rfl
@[simp] theorem blockEnd_hist (s : State) : (blockEnd s).hist = s.hist := rfl
@[simp] theorem blockEnd_frame (s : State) : (blockEnd s).frame = s.frame := rfl
@[simp] theorem blockEnd_wet (s : State) : (blockEnd s).wet = s.wet := rfl
@[simp] theorem blockEnd_monoIn (s : State) : (blockEnd s).monoIn = s.monoIn := rfl
@[simp] theorem blockEnd_readData (s : State) : (blockEnd s).readData = s.readData := rfl
@[simp] theorem blockEnd_host (s : State) : (blockEnd s).host = s.host := rfl
@[simp] theorem blockEnd_turns (s : State) : (blockEnd s).turns = s.turns := rfl
@[simp] theorem blockEnd_draws (s : State) : (blockEnd s).draws = s.draws := rfl
@[simp] theorem blockEnd_epoch (s : State) : (blockEnd s).epoch = s.epoch := rfl

/-! ### `frameSet` -/

@[simp] theorem frameSet_status (s : State) (i : Nat) (v : Word) : (frameSet s i v).status = s.status := rfl
@[simp] theorem frameSet_sampleRate (s : State) (i : Nat) (v : Word) : (frameSet s i v).sampleRate = s.sampleRate := rfl
@[simp] theorem frameSet_capacity (s : State) (i : Nat) (v : Word) : (frameSet s i v).capacity = s.capacity := rfl
@[simp] theorem frameSet_cursor (s : State) (i : Nat) (v : Word) : (frameSet s i v).cursor = s.cursor := rfl
@[simp] theorem frameSet_phase (s : State) (i : Nat) (v : Word) : (frameSet s i v).phase = s.phase := rfl
@[simp] theorem frameSet_delaySecs (s : State) (i : Nat) (v : Word) : (frameSet s i v).delaySecs = s.delaySecs := rfl
@[simp] theorem frameSet_feedback (s : State) (i : Nat) (v : Word) : (frameSet s i v).feedback = s.feedback := rfl
@[simp] theorem frameSet_wetmix (s : State) (i : Nat) (v : Word) : (frameSet s i v).wetmix = s.wetmix := rfl
@[simp] theorem frameSet_amount (s : State) (i : Nat) (v : Word) : (frameSet s i v).amount = s.amount := rfl
@[simp] theorem frameSet_rate (s : State) (i : Nat) (v : Word) : (frameSet s i v).rate = s.rate := rfl
@[simp] theorem frameSet_interpMode (s : State) (i : Nat) (v : Word) : (frameSet s i v).interpMode = s.interpMode := rfl
@[simp] theorem frameSet_seqState (s : State) (i : Nat) (v : Word) : (frameSet s i v).seqState = s.seqState := rfl
@[simp] theorem frameSet_blkCh (s : State) (i : Nat) (v : Word) : (frameSet s i v).blkCh = s.blkCh := rfl
@[simp] theorem frameSet_blkFrames (s : State) (i : Nat) (v : Word) : (frameSet s i v).blkFrames = s.blkFrames := rfl
@[simp] theorem frameSet_frameIdx (s : State) (i : Nat) (v : Word) : (frameSet s i v).frameIdx = s.frameIdx := rfl
@[simp] theorem frameSet_dbgIndex (s : State) (i : Nat) (v : Word) : (frameSet s i v).dbgIndex = s.dbgIndex := rfl
@[simp] theorem frameSet_hist (s : State) (i : Nat) (v : Word) : (frameSet s i v).hist = s.hist := rfl
@[simp] theorem frameSet_frame (s : State) (i : Nat) (v : Word) : (frameSet s i v).frame = putBytes s.frame (frameOffset i) v 8 := rfl
@[simp] theorem frameSet_wet (s : State) (i : Nat) (v : Word) : (frameSet s i v).wet = s.wet := rfl
@[simp] theorem frameSet_monoIn (s : State) (i : Nat) (v : Word) : (frameSet s i v).monoIn = s.monoIn := rfl
@[simp] theorem frameSet_readData (s : State) (i : Nat) (v : Word) : (frameSet s i v).readData = s.readData := rfl
@[simp] theorem frameSet_host (s : State) (i : Nat) (v : Word) : (frameSet s i v).host = s.host := rfl
@[simp] theorem frameSet_turns (s : State) (i : Nat) (v : Word) : (frameSet s i v).turns = s.turns := rfl
@[simp] theorem frameSet_draws (s : State) (i : Nat) (v : Word) : (frameSet s i v).draws = s.draws := rfl
@[simp] theorem frameSet_epoch (s : State) (i : Nat) (v : Word) : (frameSet s i v).epoch = s.epoch := rfl

/-! ### The sticky bits -/

@[simp] theorem statusWith_ready (c : ErrorCause) (st : Status) : (statusWith c st).ready = st.ready := by
  cases c <;> rfl

@[simp] theorem statusWith_busy (c : ErrorCause) (st : Status) : (statusWith c st).busy = st.busy := by
  cases c <;> rfl

/-- Raising a cause sets its bit and no other (R310, R312). -/
@[simp] theorem statusError_statusWith (c e : ErrorCause) (st : Status) :
    statusError e (statusWith c st) = (decide (e = c) || statusError e st) := by
  cases c <;> cases e <;> rfl

/-- Block end and acceptance touch no error bit. -/
@[simp] theorem statusError_withBusy (e : ErrorCause) (st : Status) (b : Bool) :
    statusError e { st with busy := b } = statusError e st := by
  cases e <;> rfl

@[simp] theorem statusError_withReady (e : ErrorCause) (st : Status) (b : Bool) :
    statusError e { st with ready := b } = statusError e st := by
  cases e <;> rfl

/-- Raising a bit that is set changes nothing (R312). -/
theorem statusWith_of_set {c : ErrorCause} {st : Status} (h : statusError c st = true) : statusWith c st = st := by
  cases c <;> cases st <;> simp_all [statusError, statusWith]

/-- UPMIX changes the frame memory and nothing else (R201, R243). -/
theorem upmixInto_frame_only (d : Nat → Word) (p : Word) (base n : Nat) (s : State) :
    upmixInto d p base n s = { s with frame := (upmixInto d p base n s).frame } := by
  induction n with
  | zero => rfl
  | succ n ih =>
    rw [upmixInto, ih]
    rfl

@[simp] theorem upmixInto_status (d : Nat → Word) (p : Word) (base n : Nat) (s : State) :
    (upmixInto d p base n s).status = s.status := by rw [upmixInto_frame_only]

@[simp] theorem upmixInto_sampleRate (d : Nat → Word) (p : Word) (base n : Nat) (s : State) :
    (upmixInto d p base n s).sampleRate = s.sampleRate := by rw [upmixInto_frame_only]

@[simp] theorem upmixInto_capacity (d : Nat → Word) (p : Word) (base n : Nat) (s : State) :
    (upmixInto d p base n s).capacity = s.capacity := by rw [upmixInto_frame_only]

@[simp] theorem upmixInto_cursor (d : Nat → Word) (p : Word) (base n : Nat) (s : State) :
    (upmixInto d p base n s).cursor = s.cursor := by rw [upmixInto_frame_only]

@[simp] theorem upmixInto_phase (d : Nat → Word) (p : Word) (base n : Nat) (s : State) :
    (upmixInto d p base n s).phase = s.phase := by rw [upmixInto_frame_only]

@[simp] theorem upmixInto_delaySecs (d : Nat → Word) (p : Word) (base n : Nat) (s : State) :
    (upmixInto d p base n s).delaySecs = s.delaySecs := by rw [upmixInto_frame_only]

@[simp] theorem upmixInto_feedback (d : Nat → Word) (p : Word) (base n : Nat) (s : State) :
    (upmixInto d p base n s).feedback = s.feedback := by rw [upmixInto_frame_only]

@[simp] theorem upmixInto_wetmix (d : Nat → Word) (p : Word) (base n : Nat) (s : State) :
    (upmixInto d p base n s).wetmix = s.wetmix := by rw [upmixInto_frame_only]

@[simp] theorem upmixInto_amount (d : Nat → Word) (p : Word) (base n : Nat) (s : State) :
    (upmixInto d p base n s).amount = s.amount := by rw [upmixInto_frame_only]

@[simp] theorem upmixInto_rate (d : Nat → Word) (p : Word) (base n : Nat) (s : State) :
    (upmixInto d p base n s).rate = s.rate := by rw [upmixInto_frame_only]

@[simp] theorem upmixInto_interpMode (d : Nat → Word) (p : Word) (base n : Nat) (s : State) :
    (upmixInto d p base n s).interpMode = s.interpMode := by rw [upmixInto_frame_only]

@[simp] theorem upmixInto_seqState (d : Nat → Word) (p : Word) (base n : Nat) (s : State) :
    (upmixInto d p base n s).seqState = s.seqState := by rw [upmixInto_frame_only]

@[simp] theorem upmixInto_blkCh (d : Nat → Word) (p : Word) (base n : Nat) (s : State) :
    (upmixInto d p base n s).blkCh = s.blkCh := by rw [upmixInto_frame_only]

@[simp] theorem upmixInto_blkFrames (d : Nat → Word) (p : Word) (base n : Nat) (s : State) :
    (upmixInto d p base n s).blkFrames = s.blkFrames := by rw [upmixInto_frame_only]

@[simp] theorem upmixInto_frameIdx (d : Nat → Word) (p : Word) (base n : Nat) (s : State) :
    (upmixInto d p base n s).frameIdx = s.frameIdx := by rw [upmixInto_frame_only]

@[simp] theorem upmixInto_dbgIndex (d : Nat → Word) (p : Word) (base n : Nat) (s : State) :
    (upmixInto d p base n s).dbgIndex = s.dbgIndex := by rw [upmixInto_frame_only]

@[simp] theorem upmixInto_hist (d : Nat → Word) (p : Word) (base n : Nat) (s : State) :
    (upmixInto d p base n s).hist = s.hist := by rw [upmixInto_frame_only]

@[simp] theorem upmixInto_wet (d : Nat → Word) (p : Word) (base n : Nat) (s : State) :
    (upmixInto d p base n s).wet = s.wet := by rw [upmixInto_frame_only]

@[simp] theorem upmixInto_monoIn (d : Nat → Word) (p : Word) (base n : Nat) (s : State) :
    (upmixInto d p base n s).monoIn = s.monoIn := by rw [upmixInto_frame_only]

@[simp] theorem upmixInto_readData (d : Nat → Word) (p : Word) (base n : Nat) (s : State) :
    (upmixInto d p base n s).readData = s.readData := by rw [upmixInto_frame_only]

@[simp] theorem upmixInto_host (d : Nat → Word) (p : Word) (base n : Nat) (s : State) :
    (upmixInto d p base n s).host = s.host := by rw [upmixInto_frame_only]

@[simp] theorem upmixInto_turns (d : Nat → Word) (p : Word) (base n : Nat) (s : State) :
    (upmixInto d p base n s).turns = s.turns := by rw [upmixInto_frame_only]

@[simp] theorem upmixInto_draws (d : Nat → Word) (p : Word) (base n : Nat) (s : State) :
    (upmixInto d p base n s).draws = s.draws := by rw [upmixInto_frame_only]

@[simp] theorem upmixInto_epoch (d : Nat → Word) (p : Word) (base n : Nat) (s : State) :
    (upmixInto d p base n s).epoch = s.epoch := by rw [upmixInto_frame_only]

end Sys2Proof.Machine
end

