-- ==== Sys2Proof/Laws/Memory.lean ====
section
/-! SUPPORT. What the memories do: a read after a write, the canonical forms, and the word laws of the
frame memory and the history (R62, R63, R67). -/

namespace Sys2Proof.Machine

/-! ### Cells -/

theorem cellGet_put {α : Type} (m : List (Nat × α)) (a c : Nat) (v : α) :
    cellGet (cellPut m a v) c = if c = a then some v else cellGet m c := by
  induction m with
  | nil => simp [cellPut, cellGet]
  | cons x m ih =>
    obtain ⟨b, w⟩ := x
    simp only [cellPut]
    split
    · simp [cellGet]
    · split
      · subst_vars
        simp only [cellGet]
        split <;> simp_all
      · simp only [cellGet, ih]
        split <;> split <;> simp_all

theorem cellGet_put_same {α : Type} (m : List (Nat × α)) (a : Nat) (v : α) :
    cellGet (cellPut m a v) a = some v := by
  simp [cellGet_put]

theorem cellGet_put_other {α : Type} {m : List (Nat × α)} {a c : Nat} {v : α} (h : c ≠ a) :
    cellGet (cellPut m a v) c = cellGet m c := by
  simp [cellGet_put, h]

/-- A filter on the addresses hides exactly the addresses it drops. -/
theorem cellGet_filter {α : Type} (p : Nat → Bool) (m : List (Nat × α)) (c : Nat) :
    cellGet (m.filter fun x => p x.1) c = if p c then cellGet m c else none := by
  induction m with
  | nil => simp [cellGet]
  | cons x m ih =>
    obtain ⟨b, w⟩ := x
    by_cases hb : p b
    · simp only [List.filter_cons, hb, if_true, cellGet, ih]
      split <;> simp_all
    · simp only [List.filter_cons, hb, Bool.false_eq_true, if_false, cellGet, ih]
      by_cases hc : c = b
      · subst hc; simp [hb]
      · simp [hc]

theorem cellGet_drop {α : Type} (m : List (Nat × α)) (a c : Nat) :
    cellGet (cellDrop m a) c = if c = a then none else cellGet m c := by
  have h := cellGet_filter (fun b => decide (b ≠ a)) m c
  simp only [cellDrop]
  rw [h]
  by_cases hc : c = a <;> simp [hc]

theorem mem_cellPut {α : Type} {m : List (Nat × α)} {a : Nat} {v : α} {x : Nat × α}
    (h : x ∈ cellPut m a v) : x = (a, v) ∨ x ∈ m := by
  induction m with
  | nil => simp_all [cellPut]
  | cons y m ih =>
    obtain ⟨b, w⟩ := y
    simp only [cellPut] at h
    split at h
    · simpa using h
    · split at h
      · rcases List.mem_cons.mp h with h | h <;> simp_all
      · rcases List.mem_cons.mp h with h | h
        · simp_all
        · rcases ih h with h | h <;> simp_all

theorem cellsRising_put {α : Type} {m : List (Nat × α)} (h : cellsRising m) (a : Nat) (v : α) :
    cellsRising (cellPut m a v) := by
  induction m with
  | nil => simp [cellPut, cellsRising]
  | cons y m ih =>
    obtain ⟨b, w⟩ := y
    have hm : cellsRising m := (List.pairwise_cons.mp h).2
    have hb : ∀ x ∈ m, b < x.1 := fun x hx => (List.pairwise_cons.mp h).1 x hx
    simp only [cellPut]
    split
    · rename_i hlt
      refine List.pairwise_cons.mpr ⟨fun x hx => ?_, h⟩
      rcases List.mem_cons.mp hx with rfl | hx
      · exact hlt
      · exact Nat.lt_trans hlt (hb x hx)
    · split
      · subst_vars
        exact List.pairwise_cons.mpr ⟨hb, hm⟩
      · rename_i hnlt hne
        refine List.pairwise_cons.mpr ⟨fun x hx => ?_, ih hm⟩
        rcases mem_cellPut hx with rfl | hx
        · show b < a; omega
        · exact hb x hx

theorem cellsRising_filter {α : Type} {m : List (Nat × α)} (h : cellsRising m) (p : Nat × α → Bool) :
    cellsRising (m.filter p) := List.Pairwise.filter p h

/-- In a rising list an entry is what its address reads as. -/
theorem cellGet_of_mem {α : Type} {m : List (Nat × α)} (h : cellsRising m) {x : Nat × α} (hx : x ∈ m) :
    cellGet m x.1 = some x.2 := by
  induction m with
  | nil => simp at hx
  | cons y m ih =>
    obtain ⟨b, w⟩ := y
    simp only [cellGet]
    rcases List.mem_cons.mp hx with rfl | hx
    · simp
    · have hlt : b < x.1 := (List.pairwise_cons.mp h).1 x hx
      simp [Nat.ne_of_gt hlt, ih (List.pairwise_cons.mp h).2 hx]

/-- A rising list reads as nothing at an address it does not list. -/
theorem mem_of_cellGet {α : Type} {m : List (Nat × α)} {a : Nat} {v : α} (h : cellGet m a = some v) :
    (a, v) ∈ m := by
  induction m with
  | nil => simp [cellGet] at h
  | cons y m ih =>
    obtain ⟨b, w⟩ := y
    simp only [cellGet] at h
    split at h
    · simp_all
    · exact List.mem_cons_of_mem _ (ih h)

/-! ### Canonical forms are kept -/

theorem putBytes_rising {m : Memory} (h : cellsRising m) (a : Nat) (v : Word) (n : Nat) :
    cellsRising (putBytes m a v n) := by
  induction n with
  | zero => exact h
  | succ n ih => exact cellsRising_put ih _ _

theorem mem_putBytes {m : Memory} {a : Nat} {v : Word} {n : Nat} {x : Nat × Byte}
    (h : x ∈ putBytes m a v n) : x ∈ m ∨ ∃ k < n, x = (a + k, leByte v k) := by
  induction n with
  | zero => exact .inl h
  | succ n ih =>
    rcases mem_cellPut h with h | h
    · exact .inr ⟨n, Nat.lt_succ_self n, h⟩
    · rcases ih h with h | ⟨k, hk, h⟩
      · exact .inl h
      · exact .inr ⟨k, Nat.lt_succ_of_lt hk, h⟩

/-- Storing a frame word keeps the frame memory canonical. -/
theorem frameSet_wf {s : State} (h : s.frame.wf) {i : Nat} (hi : i < Config.frameMemWords) (v : Word) :
    (frameSet s i v).frame.wf := by
  refine ⟨putBytes_rising h.1 _ _ _, fun x hx => ?_⟩
  rcases mem_putBytes hx with hx | ⟨k, hk, rfl⟩
  · exact h.2 x hx
  · simp only [frameOffset, Config.frameBase, Config.frameEnd, Config.frameMemWords] at hi ⊢
    omega

/-- UPMIX keeps the frame memory canonical. -/
theorem upmixInto_wf {s : State} (h : s.frame.wf) (d : Nat → Word) (p : Word) {base n : Nat}
    (hr : base + n ≤ Config.frameMemWords) : (upmixInto d p base n s).frame.wf := by
  induction n with
  | zero => exact h
  | succ n ih => exact frameSet_wf (ih (by omega)) (by omega) _

/-- Storing a history word keeps the history canonical. -/
theorem histPut_wf {h : History} (hw : h.wf) {i : Nat} (hi : i < Config.maxCapacity) (v : Word) :
    (histPut h i v).wf := by
  unfold histPut
  split
  · exact ⟨cellsRising_filter hw.1 _, fun x hx => hw.2 x (List.mem_filter.mp hx).1⟩
  · rename_i hv
    refine ⟨cellsRising_put hw.1 _ _, fun x hx => ?_⟩
    rcases mem_cellPut hx with rfl | hx
    · exact ⟨hi, hv⟩
    · exact hw.2 x hx

/-- A stored history word lies below any bound its index and the old words lie below. -/
theorem histPut_below {h : History} {n : Nat} (hb : ∀ c ∈ h, c.1 < n) {i : Nat} (hi : i < n) (v : Word) :
    ∀ c ∈ histPut h i v, c.1 < n := by
  intro x hx
  unfold histPut at hx
  split at hx
  · exact hb x (List.mem_filter.mp hx).1
  · rcases mem_cellPut hx with rfl | hx
    · exact hi
    · exact hb x hx

/-- The zero fill keeps the history canonical. -/
theorem histZeroFill_wf {h : History} (hw : h.wf) (n : Nat) : (histZeroFill h n).wf :=
  ⟨cellsRising_filter hw.1 _, fun x hx => hw.2 x (List.mem_filter.mp hx).1⟩

/-! ### The history's words -/

/-- A read after a write of the history (R62, R124). -/
theorem histPut_get (h : History) (i j : Nat) (v : Word) :
    (cellGet (histPut h i v) j).getD 0#64 = if j = i then v else (cellGet h j).getD 0#64 := by
  unfold histPut
  split
  · rw [cellGet_drop]; split <;> simp_all
  · rw [cellGet_put]; split <;> simp_all

/-- After the zero fill the first n words hold +0.0 and the others what they held (R232). -/
theorem histZeroFill_get (h : History) (n j : Nat) :
    (cellGet (histZeroFill h n) j).getD 0#64 = if j < n then 0#64 else (cellGet h j).getD 0#64 := by
  have hf := cellGet_filter (fun b => decide (n ≤ b)) h j
  simp only [histZeroFill]
  rw [hf]
  by_cases hj : n ≤ j <;> simp [hj, Nat.not_lt.mpr, Nat.lt_of_not_le]

/-! ### Bytes of a word -/

/-- The byte order loses nothing: the word of a word's bytes is the word (R67). -/
theorem leWord_leByte (v : Word) : leWord (leByte v) = v := by
  unfold leWord leByte
  apply BitVec.eq_of_getLsbD_eq
  intro i hi
  simp only [BitVec.getLsbD_append, BitVec.getLsbD_extractLsb']
  repeat' split
  all_goals first
    | (simp; done)
    | (rw [decide_eq_true (by omega), Bool.true_and]; congr 1; omega)

/-- Byte k of the word with bytes f is `f k` (R67). -/
theorem leByte_leWord (f : Nat → Byte) {k : Nat} (hk : k < 8) : leByte (leWord f) k = f k := by
  unfold leWord leByte
  apply BitVec.eq_of_getLsbD_eq
  intro i hi
  simp only [BitVec.getLsbD_append, BitVec.getLsbD_extractLsb', decide_eq_true hi, Bool.true_and]
  interval_cases k
  all_goals
    repeat' split
    all_goals first
      | omega
      | (congr 1; omega)

/-! ### The frame memory's words -/

/-- Which byte a store of the first n bytes of a word leaves at an address. -/
theorem cellGet_putBytes (m : Memory) (a c n : Nat) (v : Word) :
    cellGet (putBytes m a v n) c = if a ≤ c ∧ c < a + n then some (leByte v (c - a)) else cellGet m c := by
  induction n with
  | zero => simp [putBytes]
  | succ n ih =>
    rw [putBytes, cellGet_put, ih]
    by_cases h : c = a + n
    · subst h; simp
    · rw [if_neg h]
      by_cases h' : a ≤ c ∧ c < a + n
      · rw [if_pos h', if_pos (by omega)]
      · rw [if_neg h', if_neg (by omega)]

/-- The bytes after a store to frame word i: its own eight, little-endian, and every other as before (R67). -/
theorem frameByte_set (s : State) (i a : Nat) (v : Word) :
    frameByte (frameSet s i v) a =
      if frameOffset i ≤ a ∧ a < frameOffset i + 8 then leByte v (a - frameOffset i) else frameByte s a := by
  simp only [frameByte, frameSet, cellGet_putBytes]
  split <;> simp

/-- A read after a write of the frame memory (R63). -/
theorem frameWord_set (s : State) (i j : Nat) (v : Word) :
    frameWord (frameSet s i v) j = if j = i then v else frameWord s j := by
  by_cases h : j = i
  · subst h
    rw [if_pos rfl]
    conv_rhs => rw [← leWord_leByte v]
    simp only [frameWord, frameByte_set, leWord]
    simp
  · rw [if_neg h]
    simp only [frameWord, frameByte_set, leWord, frameOffset]
    simp only [show ∀ k, k < 8 → ¬(Config.frameBase + 8 * i ≤ Config.frameBase + 8 * j + k ∧
      Config.frameBase + 8 * j + k < Config.frameBase + 8 * i + 8) from fun k hk => by omega,
      Nat.reduceLT, if_false]

theorem frameWord_set_same (s : State) (i : Nat) (v : Word) : frameWord (frameSet s i v) i = v := by
  simp [frameWord_set]

/-- A frame word read depends on the frame memory and the epoch alone. -/
theorem frameWord_congr {s t : State} (hf : s.frame = t.frame) (he : s.epoch = t.epoch) (i : Nat) :
    frameWord s i = frameWord t i := by
  simp only [frameWord, frameByte, hf, he]

/-- A history word read depends on the history alone. -/
theorem histWord_congr {s t : State} (h : s.hist = t.hist) (i : Nat) : histWord s i = histWord t i := by
  simp only [histWord, h]

/-- What UPMIX leaves in each frame word: the words of the first n channels have p added, each from its own
value before, every other word is as before (R201). -/
theorem frameWord_upmixInto (d : Nat → Word) (p : Word) (base n : Nat) (s : State) (j : Nat) :
    frameWord (upmixInto d p base n s) j =
      if base ≤ j ∧ j < base + n then fmtAdd (d (j - base + 1)) (frameWord s j) p else frameWord s j := by
  induction n with
  | zero => simp [upmixInto]
  | succ n ih =>
    rw [upmixInto, frameWord_set]
    by_cases h : j = base + n
    · subst h
      rw [if_pos rfl, ih, if_neg (by omega), if_pos (by omega)]
      simp
    · rw [if_neg h, ih]
      by_cases h' : base ≤ j ∧ j < base + n
      · rw [if_pos h', if_pos (by omega)]
      · rw [if_neg h', if_neg (by omega)]

/-- UPMIX leaves every byte outside the frame's words as it was (R201). -/
theorem frameByte_upmixInto (d : Nat → Word) (p : Word) (base n : Nat) (s : State) {a : Nat}
    (ha : a < frameOffset base ∨ frameOffset (base + n) ≤ a) :
    frameByte (upmixInto d p base n s) a = frameByte s a := by
  induction n with
  | zero => rfl
  | succ n ih =>
    rw [upmixInto, frameByte_set, if_neg, ih]
    · simp only [frameOffset] at *; omega
    · simp only [frameOffset] at *; omega

end Sys2Proof.Machine
end

