-- ==== Sys2Proof/Laws/Decode.lean ====
section
/-! SUPPORT. What the decoder can answer, said once: which instruction a transaction is, and that the bytes of
a transaction decode to it. -/

namespace Sys2Proof

open Sys2Proof.Machine

@[simp] theorem regAt_regOffset (r : Reg) : regAt (regOffset r) = some r := by
  cases r <;> rfl

theorem regAt_of_le {n : Nat} (h : 0x080 ≤ n) : regAt n = none := by
  unfold regAt
  split <;> first | rfl | omega

/-- Below the reserved range every aligned offset is a register's (R64). -/
theorem regAt_isSome {n : Nat} (h : n < 0x080) (ha : n % 8 = 0) : (regAt n).isSome = true := by
  obtain ⟨k, rfl⟩ : ∃ k, n = 8 * k := ⟨n / 8, by omega⟩
  have hk : k < 16 := by omega
  interval_cases k <;> rfl

theorem regAt_eq_some {n : Nat} {r : Reg} (h : regAt n = some r) : n = regOffset r := by
  unfold regAt at h
  split at h <;> simp_all <;> subst h <;> rfl

/-- A full-size access at a register's offset is that register's read or write (R91 step 2). -/
theorem decodeTransaction_register (write : Bool) (r : Reg) (v : Word) :
    decodeTransaction { write := write, offset := BitVec.ofNat 24 (regOffset r), lanesOff := 0#8, data := v } =
      if write then writeInstr v r else readInstr r := by
  have ho : (BitVec.ofNat 24 (regOffset r)).toNat = regOffset r := by cases r <;> rfl
  have ha : regOffset r % 8 = 0 := by cases r <;> rfl
  unfold decodeTransaction
  simp only [ho, ha, regAt_regOffset]
  simp

/-- A full-size access at a frame word's offset is that word's read or write (R91 step 2). -/
theorem decodeTransaction_frame (write : Bool) {i : Nat} (hi : i < Config.frameMemWords) (v : Word) :
    decodeTransaction { write := write, offset := BitVec.ofNat 24 (frameOffset i), lanesOff := 0#8, data := v } =
      if write then .wrFrame i v else .rdFrame i := by
  simp only [Config.frameMemWords] at hi
  have ho : (BitVec.ofNat 24 (frameOffset i)).toNat = 0x1000 + 8 * i := by
    simp only [frameOffset, Config.frameBase, BitVec.toNat_ofNat]
    omega
  have hr : regAt (0x1000 + 8 * i) = none := regAt_of_le (by omega)
  have ha : (0x1000 + 8 * i) % 8 = 0 := by omega
  have hf : Config.frameBase ≤ 0x1000 + 8 * i ∧ 0x1000 + 8 * i < Config.frameEnd := by
    simp only [Config.frameBase, Config.frameEnd, Config.frameMemWords]
    omega
  have hq : (0x1000 + 8 * i - Config.frameBase) / 8 = i := by
    simp only [Config.frameBase]
    omega
  unfold decodeTransaction
  rw [ho, hr, ha, if_neg (fun h => h.elim (fun h => h rfl) (fun h => h rfl))]
  dsimp only
  rw [if_pos hf, hq]

/-- What a transaction can be: a register read, a register write, a frame access in range, or a refused
access (R91). -/
theorem decodeTransaction_cases (t : Transaction) :
    (∃ r, t.write = false ∧ t.offset.toNat = regOffset r ∧ decodeTransaction t = readInstr r) ∨
    (∃ r, t.write = true ∧ t.offset.toNat = regOffset r ∧ decodeTransaction t = writeInstr t.data r) ∨
    (∃ i < Config.frameMemWords, t.write = false ∧ decodeTransaction t = .rdFrame i) ∨
    (∃ i < Config.frameMemWords, t.write = true ∧ decodeTransaction t = .wrFrame i t.data) ∨
    (illegalAccess t.offset t.lanesOff = true ∧ decodeTransaction t = illegalInstr t) := by
  unfold decodeTransaction
  split
  · rename_i h
    refine .inr (.inr (.inr (.inr ⟨?_, rfl⟩)))
    unfold illegalAccess
    rcases h with h | h <;> simp [h]
  · rename_i h
    cases hr : regAt t.offset.toNat with
    | some r =>
      have ho := regAt_eq_some hr
      cases hw : t.write
      · exact .inl ⟨r, rfl, ho, by simp⟩
      · exact .inr (.inl ⟨r, rfl, ho, by simp⟩)
    | none =>
      have hal : t.offset.toNat % 8 = 0 := by
        by_contra hc
        exact h (.inr hc)
      have hlow : 0x080 ≤ t.offset.toNat := by
        by_contra hc
        have := regAt_isSome (n := t.offset.toNat) (by omega) hal
        simp [hr] at this
      by_cases hf : Config.frameBase ≤ t.offset.toNat ∧ t.offset.toNat < Config.frameEnd
      · have hi : (t.offset.toNat - Config.frameBase) / 8 < Config.frameMemWords := by
          simp only [Config.frameEnd, Config.frameBase, Config.frameMemWords] at *
          omega
        simp only [if_pos hf]
        cases hw : t.write
        · exact .inr (.inr (.inl ⟨_, hi, rfl, by simp⟩))
        · exact .inr (.inr (.inr (.inl ⟨_, hi, rfl, by simp⟩)))
      · simp only [if_neg hf]
        refine .inr (.inr (.inr (.inr ⟨?_, trivial⟩)))
        unfold illegalAccess
        simp only [Bool.or_eq_true, Bool.and_eq_true, decide_eq_true_eq]
        omega

/-- The bytes of a transaction decode to it (R67, R91). -/
theorem transactionOfBytes_bytes (t : Transaction) : transactionOfBytes (transactionBytes t) = .ok t := by
  obtain ⟨w, o, l, d⟩ := t
  have hd : (leWord fun k => (transactionBytes ⟨w, o, l, d⟩).getD (4 + k) 0#8) = d := by
    conv_rhs => rw [← leWord_leByte d]
    rfl
  have ho : o.extractLsb' 16 8 ++ o.extractLsb' 8 8 ++ o.extractLsb' 0 8 = o := by
    apply BitVec.eq_of_getLsbD_eq
    intro i hi
    simp only [BitVec.getLsbD_append, BitVec.getLsbD_extractLsb']
    repeat' split
    · simp_all
    · rename_i h1 h2
      simp only [h2, decide_true, Bool.true_and]
      congr 1
      omega
    · rename_i h1 h2
      have h3 : i - 8 - 8 < 8 := by omega
      simp only [h3, decide_true, Bool.true_and]
      congr 1
      omega
  unfold transactionOfBytes
  rw [hd]
  cases w <;> simp [transactionBytes, wordBytes, ho]

theorem decode_transactionBytes (t : Transaction) : decode .bus (transactionBytes t) = .ok (decodeTransaction t) := by
  unfold decode
  rw [if_neg (by simp [transactionBytes, wordBytes, formLength])]
  simp only [transactionOfBytes_bytes]

theorem decode_wordBytes (w : Word) : decode .cmd (wordBytes w) = .ok (commandInstr (decodeCommand w)) := by
  have h : (leWord fun k => (wordBytes w).getD k 0#8) = w := by
    conv_rhs => rw [← leWord_leByte w]
    rfl
  unfold decode
  rw [if_neg (by simp [wordBytes, formLength])]
  simp only [h]

theorem decode_seqCode (q : SeqState) : decode .seq [(seqCode q).setWidth 8] = .ok (seqInstr q) := by
  cases q <;> rfl

end Sys2Proof
end

