-- ==== Sys2Proof/Laws/Fmt.lean ====
section
/-! SUPPORT. Lemmas on the FMT operations: bit patterns and their parts, the scale of magnitudes, and the
rounding (R11, R12). Powers of two stay folded in them. -/

namespace Sys2Proof.Machine

/-! ### Packing and unpacking -/

theorem fmtMag_lt (x : Word) : fmtMag x < 2 ^ 63 := Nat.mod_lt _ (by decide)

theorem infMag_lt : infMag < 2 ^ 63 := by decide

theorem fmtPack_toNat (neg : Bool) {m : Nat} (hm : m < 2 ^ 63) :
    (fmtPack neg m).toNat = if neg then 2 ^ 63 + m else m := by
  unfold fmtPack
  cases neg
  · simp; omega
  · simp; omega

@[simp] theorem fmtMag_pack (neg : Bool) {m : Nat} (hm : m < 2 ^ 63) : fmtMag (fmtPack neg m) = m := by
  unfold fmtMag
  rw [fmtPack_toNat neg hm]
  cases neg
  · simp; omega
  · simp; omega

theorem fmtSign_eq (x : Word) : fmtSign x = decide (2 ^ 63 ≤ x.toNat) := by
  unfold fmtSign
  rw [BitVec.msb_eq_decide]

@[simp] theorem fmtSign_pack (neg : Bool) {m : Nat} (hm : m < 2 ^ 63) : fmtSign (fmtPack neg m) = neg := by
  rw [fmtSign_eq, fmtPack_toNat neg hm]
  cases neg
  · simp; omega
  · simp

/-- A bit pattern is its sign and its magnitude. -/
theorem fmtPack_parts (x : Word) : fmtPack (fmtSign x) (fmtMag x) = x := by
  apply BitVec.eq_of_toNat_eq
  rw [fmtPack_toNat _ (fmtMag_lt x), fmtSign_eq]
  have h := x.isLt
  unfold fmtMag
  by_cases hs : 2 ^ 63 ≤ x.toNat
  · rw [decide_eq_true hs, if_pos rfl]; omega
  · rw [decide_eq_false hs, if_neg Bool.false_ne_true]; omega

/-- Two patterns with equal parts are equal. -/
theorem fmt_ext {x y : Word} (hs : fmtSign x = fmtSign y) (hm : fmtMag x = fmtMag y) : x = y := by
  rw [← fmtPack_parts x, ← fmtPack_parts y, hs, hm]

@[simp] theorem fmtMag_neg (x : Word) : fmtMag (fmtNeg x) = fmtMag x := fmtMag_pack _ (fmtMag_lt x)

@[simp] theorem fmtSign_neg (x : Word) : fmtSign (fmtNeg x) = !fmtSign x := fmtSign_pack _ (fmtMag_lt x)

/-- −x negates the sign bit and nothing else (R11). -/
theorem fmtNeg_eq_xor (x : Word) : fmtNeg x = x ^^^ 0x8000000000000000#64 := by
  apply fmt_ext
  · rw [fmtSign_neg]
    unfold fmtSign
    rw [BitVec.msb_xor, show (0x8000000000000000#64).msb = true by decide]
    simp
  · rw [fmtMag_neg]
    unfold fmtMag
    rw [BitVec.toNat_xor, Nat.xor_mod_two_pow]
    simp

@[simp] theorem fmtUnits_neg (x : Word) : fmtUnits (fmtNeg x) = -fmtUnits x := by
  unfold fmtUnits
  rw [fmtSign_neg, fmtMag_neg]
  cases fmtSign x <;> simp

/-! ### The scale of magnitudes -/

theorem magUnits_of_lt {p : Nat} (h : p < 2 ^ 52) : magUnits p = p := if_pos h

/-- The magnitude k·2^52 + n is n·2^k units when n has its hidden bit. -/
theorem magUnits_scaled {k n : Nat} (hn : 2 ^ 52 ≤ n) (hn' : n ≤ 2 ^ 53) :
    magUnits (k * 2 ^ 52 + n) = n * 2 ^ k := by
  unfold magUnits
  rw [if_neg (by omega)]
  rcases Nat.lt_or_eq_of_le hn' with h | h
  · rw [show (k * 2 ^ 52 + n) % 2 ^ 52 = n - 2 ^ 52 by omega, show (k * 2 ^ 52 + n) / 2 ^ 52 = k + 1 by omega]
    rw [Nat.add_sub_cancel, Nat.add_sub_cancel' hn]
  · subst h
    rw [show (k * 2 ^ 52 + 2 ^ 53) % 2 ^ 52 = 0 by omega, show (k * 2 ^ 52 + 2 ^ 53) / 2 ^ 52 = k + 2 by omega]
    rw [show k + 2 - 1 = k + 1 by omega, pow_succ]
    ring

/-- Every magnitude is k·2^52 + n for the scale 2^k of its binade: k = 0 below the hidden bit. -/
theorem mag_cases (p : Nat) :
    ∃ k n, p = k * 2 ^ 52 + n ∧ n < 2 ^ 53 ∧ (k = 0 ∨ 2 ^ 52 ≤ n) ∧ magUnits p = n * 2 ^ k := by
  by_cases h : p < 2 ^ 52
  · exact ⟨0, p, by omega, by omega, .inl rfl, by rw [magUnits_of_lt h, pow_zero, Nat.mul_one]⟩
  · have h1 : p = (p / 2 ^ 52 - 1) * 2 ^ 52 + (2 ^ 52 + p % 2 ^ 52) := by omega
    refine ⟨p / 2 ^ 52 - 1, 2 ^ 52 + p % 2 ^ 52, h1, by omega, .inr (by omega), ?_⟩
    conv_lhs => rw [h1]
    exact magUnits_scaled (by omega) (by omega)

/-- One more in the magnitude is the next value up: 2^k units more at the scale 2^k. -/
theorem magUnits_succ {k n : Nat} (hk : k = 0 ∨ 2 ^ 52 ≤ n) (hn : n < 2 ^ 53) :
    magUnits (k * 2 ^ 52 + n + 1) = (n + 1) * 2 ^ k := by
  by_cases h : 2 ^ 52 ≤ n + 1
  · rw [Nat.add_assoc]; exact magUnits_scaled h (by omega)
  · have hk0 : k = 0 := hk.resolve_right (by omega)
    subst hk0
    rw [magUnits_of_lt (by omega), pow_zero]
    omega

/-- Greater magnitudes are greater values. -/
theorem magUnits_strictMono : StrictMono magUnits := by
  refine strictMono_nat_of_lt_succ fun p => ?_
  obtain ⟨k, n, hp, hn, hk, hm⟩ := mag_cases p
  rw [hm, hp, magUnits_succ hk hn]
  exact Nat.mul_lt_mul_of_pos_right (Nat.lt_succ_self n) (Nat.two_pow_pos k)

theorem magUnits_le {p q : Nat} : magUnits p ≤ magUnits q ↔ p ≤ q := magUnits_strictMono.le_iff_le

theorem magUnits_lt {p q : Nat} : magUnits p < magUnits q ↔ p < q := magUnits_strictMono.lt_iff_lt

theorem magUnits_inj {p q : Nat} : magUnits p = magUnits q ↔ p = q := magUnits_strictMono.injective.eq_iff

@[simp] theorem magUnits_zero : magUnits 0 = 0 := magUnits_of_lt (by decide)

/-! ### Rounding -/

/-- The rounded quotient is within half of the exact one, and even at a tie. -/
theorem roundQuot_spec (num : Nat) {den : Nat} (hd : 0 < den) :
    2 * (roundQuot num den * den) ≤ 2 * num + den ∧ 2 * num ≤ 2 * (roundQuot num den * den) + den ∧
    ((2 * (roundQuot num den * den) = 2 * num + den ∨ 2 * num = 2 * (roundQuot num den * den) + den) →
      roundQuot num den % 2 = 0) := by
  have hdiv := Nat.div_add_mod num den
  have hlt := Nat.mod_lt num hd
  rw [Nat.mul_comm] at hdiv
  unfold roundQuot
  simp only
  generalize hn : num / den = n at *
  generalize hr : num % den = r at *
  split
  · rw [Nat.add_mul, Nat.one_mul]
    omega
  · omega

/-- A whole quotient is not rounded. -/
theorem roundQuot_mul (n : Nat) {den : Nat} (hd : 0 < den) : roundQuot (n * den) den = n := by
  unfold roundQuot
  simp only [Nat.mul_div_cancel n hd, Nat.mul_mod_left, Nat.mul_zero]
  rw [if_neg (by omega)]

/-- The shift of a quotient at the scale 2^k is k. -/
theorem roundShift_scaled {k n : Nat} (hn : n < 2 ^ 53) (hk : k = 0 ∨ 2 ^ 52 ≤ n) : roundShift (n * 2 ^ k) = k := by
  unfold roundShift
  rcases hk with rfl | hk
  · rw [pow_zero, Nat.mul_one, if_pos hn]
  · rcases Nat.eq_zero_or_pos k with rfl | hpos
    · rw [pow_zero, Nat.mul_one, if_pos hn]
    · have h2 : 2 ≤ 2 ^ k := by
        calc 2 = 2 ^ 1 := rfl
          _ ≤ 2 ^ k := Nat.pow_le_pow_right (by decide) hpos
      have hge : 2 ^ 53 ≤ n * 2 ^ k := by
        calc 2 ^ 53 = 2 ^ 52 * 2 := by decide
          _ ≤ n * 2 ^ k := Nat.mul_le_mul hk h2
      rw [if_neg (by omega)]
      have hlog : (n * 2 ^ k).log2 = 52 + k := by
        rw [Nat.log2_eq_iff (by omega)]
        constructor
        · rw [pow_add]; exact Nat.mul_le_mul_right _ hk
        · rw [show 52 + k + 1 = 53 + k by omega, pow_add]
          exact Nat.mul_lt_mul_of_pos_right hn (Nat.two_pow_pos k)
      omega

/-- Rounding leaves a value of the format as it is. -/
theorem roundUnits_exact {p den : Nat} (hp : p ≤ infMag) (hd : 0 < den) :
    roundUnits (magUnits p * den) den = p := by
  obtain ⟨k, n, hpk, hn, hk, hm⟩ := mag_cases p
  unfold roundUnits
  simp only [Nat.mul_div_cancel _ hd]
  rw [hm, roundShift_scaled hn hk, Nat.mul_assoc, Nat.mul_comm (2 ^ k) den,
    roundQuot_mul n (Nat.mul_pos hd (Nat.two_pow_pos k)), ← hpk]
  exact Nat.min_eq_left hp

theorem roundUnits_exact_one {p : Nat} (hp : p ≤ infMag) : roundUnits (magUnits p) 1 = p := by
  simpa using roundUnits_exact hp Nat.one_pos

@[simp] theorem roundUnits_zero {den : Nat} (hd : 0 < den) : roundUnits 0 den = 0 := by
  simpa using roundUnits_exact (p := 0) (Nat.zero_le _) hd

theorem roundUnits_le_inf (num den : Nat) : roundUnits num den ≤ infMag := Nat.min_le_right _ _

theorem roundUnits_lt (num den : Nat) : roundUnits num den < 2 ^ 63 :=
  Nat.lt_of_le_of_lt (roundUnits_le_inf num den) infMag_lt

/-- What rounding does, whatever the value: it picks the scale of the quotient's binade and rounds to a
multiple n of it, at the most to infinity. -/
theorem roundUnits_cases (num den : Nat) :
    ∃ k, k = roundShift (num / den) ∧
      roundUnits num den = min (k * 2 ^ 52 + roundQuot num (den * 2 ^ k)) infMag := ⟨_, rfl, rfl⟩

/-- The multiple rounding picks has at most 53 bits, and at a scale above 1 its hidden bit. -/
theorem roundQuot_bounds (num den : Nat) :
    roundQuot num (den * 2 ^ roundShift (num / den)) ≤ 2 ^ 53 ∧
    (roundShift (num / den) = 0 ∨ 2 ^ 52 ≤ roundQuot num (den * 2 ^ roundShift (num / den))) := by
  have key : ∀ k, num / den / 2 ^ k < 2 ^ 53 → roundQuot num (den * 2 ^ k) ≤ 2 ^ 53 := by
    intro k hk
    unfold roundQuot
    simp only [Nat.div_div_eq_div_mul] at hk ⊢
    split <;> omega
  have key' : ∀ k, 2 ^ 52 ≤ num / den / 2 ^ k → 2 ^ 52 ≤ roundQuot num (den * 2 ^ k) := by
    intro k hk
    unfold roundQuot
    simp only [Nat.div_div_eq_div_mul] at hk ⊢
    split <;> omega
  by_cases hq : num / den < 2 ^ 53
  · have hs : roundShift (num / den) = 0 := if_pos hq
    rw [hs]
    exact ⟨key 0 (by simpa using hq), .inl rfl⟩
  · have hs : roundShift (num / den) = (num / den).log2 - 52 := if_neg hq
    rw [hs]
    have hne : num / den ≠ 0 := by omega
    have hlo : 2 ^ (num / den).log2 ≤ num / den := Nat.log2_self_le hne
    have hhi : num / den < 2 ^ ((num / den).log2 + 1) := Nat.lt_log2_self
    have h53 : 53 ≤ (num / den).log2 := by
      rw [Nat.le_log2 hne]; omega
    constructor
    · apply key
      rw [Nat.div_lt_iff_lt_mul (Nat.two_pow_pos _), ← pow_add]
      rwa [show 53 + ((num / den).log2 - 52) = (num / den).log2 + 1 by omega]
    · right
      apply key'
      rw [Nat.le_div_iff_mul_le (Nat.two_pow_pos _), ← pow_add]
      rwa [show 52 + ((num / den).log2 - 52) = (num / den).log2 by omega]

/-- The value of a rounding that does not overflow. -/
theorem magUnits_roundUnits {num den : Nat} (hfin : roundUnits num den < infMag) :
    magUnits (roundUnits num den) =
      roundQuot num (den * 2 ^ roundShift (num / den)) * 2 ^ roundShift (num / den) := by
  obtain ⟨hle, hcase⟩ := roundQuot_bounds num den
  have hval : roundUnits num den =
      roundShift (num / den) * 2 ^ 52 + roundQuot num (den * 2 ^ roundShift (num / den)) := by
    have : roundUnits num den =
      min (roundShift (num / den) * 2 ^ 52 + roundQuot num (den * 2 ^ roundShift (num / den))) infMag := rfl
    omega
  rw [hval]
  by_cases h52 : 2 ^ 52 ≤ roundQuot num (den * 2 ^ roundShift (num / den))
  · exact magUnits_scaled h52 hle
  · have h0 := hcase.resolve_right h52
    rw [h0] at h52 ⊢
    rw [magUnits_of_lt (by omega), pow_zero]
    omega

/-! ### Finite results -/

theorem fmtUnits_pack (neg : Bool) {m : Nat} (hm : m < 2 ^ 63) :
    fmtUnits (fmtPack neg m) = if neg then -(magUnits m : Int) else (magUnits m : Int) := by
  unfold fmtUnits
  rw [fmtMag_pack neg hm, fmtSign_pack neg hm]

theorem fmtUnits_natAbs (x : Word) : (fmtUnits x).natAbs = magUnits (fmtMag x) := by
  unfold fmtUnits
  split <;> simp

theorem fmtUnits_eq_zero {x : Word} : fmtUnits x = 0 ↔ fmtMag x = 0 := by
  rw [← Int.natAbs_eq_zero, fmtUnits_natAbs]
  conv_lhs => rw [← magUnits_zero]
  exact magUnits_inj

theorem fmtIsFinite_iff {x : Word} : fmtIsFinite x = true ↔ fmtMag x < infMag := decide_eq_true_iff

theorem fmtIsNaN_of_finite {x : Word} (h : fmtIsFinite x = true) : fmtIsNaN x = false := by
  have := fmtIsFinite_iff.mp h
  exact decide_eq_false (by omega)

theorem fmtIsInf_of_finite {x : Word} (h : fmtIsFinite x = true) : fmtIsInf x = false := by
  have := fmtIsFinite_iff.mp h
  exact decide_eq_false (by omega)

theorem fmtIsNaN_of_inf {x : Word} (h : fmtIsInf x = true) : fmtIsNaN x = false := by
  have : fmtMag x = infMag := of_decide_eq_true h
  exact decide_eq_false (by omega)

theorem fmtIsFinite_of_inf {x : Word} (h : fmtIsInf x = true) : fmtIsFinite x = false := by
  have : fmtMag x = infMag := of_decide_eq_true h
  exact decide_eq_false (by omega)

/-- A NaN result is a NaN, whatever the free value (R18). -/
theorem fmtIsNaN_fmtNaN (d : Word) : fmtIsNaN (fmtNaN d) = true := by
  unfold fmtNaN
  split
  · assumption
  · decide

/-- Addition of finite values (R11). -/
theorem fmtAdd_finite {d x y : Word} (hx : fmtIsFinite x = true) (hy : fmtIsFinite y = true) :
    fmtAdd d x y =
      if fmtUnits x + fmtUnits y = 0 then fmtPack (fmtSign x && fmtSign y) 0
      else fmtPack (decide (fmtUnits x + fmtUnits y < 0)) (roundUnits (fmtUnits x + fmtUnits y).natAbs 1) := by
  unfold fmtAdd
  rw [fmtIsNaN_of_finite hx, fmtIsNaN_of_finite hy, fmtIsInf_of_finite hx, fmtIsInf_of_finite hy]
  simp

/-- Multiplication of finite values (R11). -/
theorem fmtMul_finite {d x y : Word} (hx : fmtIsFinite x = true) (hy : fmtIsFinite y = true) :
    fmtMul d x y =
      fmtPack (fmtSign x != fmtSign y)
        (roundUnits (magUnits (fmtMag x) * magUnits (fmtMag y)) oneUnits) := by
  unfold fmtMul
  rw [fmtIsNaN_of_finite hx, fmtIsNaN_of_finite hy, fmtIsInf_of_finite hx, fmtIsInf_of_finite hy]
  simp

/-- Division of finite values by a value that is not zero (R11). -/
theorem fmtDiv_finite {d x y : Word} (hx : fmtIsFinite x = true) (hy : fmtIsFinite y = true)
    (h0 : fmtMag y ≠ 0) :
    fmtDiv d x y =
      fmtPack (fmtSign x != fmtSign y)
        (roundUnits (magUnits (fmtMag x) * oneUnits) (magUnits (fmtMag y))) := by
  unfold fmtDiv
  rw [fmtIsNaN_of_finite hx, fmtIsNaN_of_finite hy, fmtIsInf_of_finite hx, fmtIsInf_of_finite hy]
  simp [h0]

theorem fmtIsFinite_neg (x : Word) : fmtIsFinite (fmtNeg x) = fmtIsFinite x := by
  unfold fmtIsFinite
  rw [fmtMag_neg]

/-- x − x is +0.0 for a finite x (R164). -/
theorem fmtSub_self {d x : Word} (hx : fmtIsFinite x = true) : fmtSub d x x = fmtPack false 0 := by
  unfold fmtSub
  rw [fmtAdd_finite hx (by rw [fmtIsFinite_neg]; exact hx), fmtUnits_neg, fmtSign_neg]
  simp

/-! ### Whole numbers -/

theorem two_pow_le_oneUnits {k : Nat} (h : k ≤ 1074) : 2 ^ k ≤ oneUnits := by
  unfold oneUnits
  exact (Nat.pow_le_pow_iff_right Nat.one_lt_two).mpr h

theorem oneUnits_pos : 0 < oneUnits := two_pow_le_oneUnits (Nat.zero_le _)

/-- The magnitude of a negative number's floor is its own magnitude's ceiling. -/
theorem natAbs_neg_ediv (u : Nat) {c : Nat} (hc : 0 < c) :
    (-(u : Int) / (c : Int)).natAbs = if u % c = 0 then u / c else u / c + 1 := by
  have hdm := Nat.div_add_mod u c
  have hml := Nat.mod_lt u hc
  have hdm' : (c : Int) * ((u / c : Nat) : Int) + ((u % c : Nat) : Int) = (u : Int) := by exact_mod_cast hdm
  have hc' : (0 : Int) < (c : Int) := by exact_mod_cast hc
  split
  · rename_i h
    rw [h] at hdm'
    have : -(u : Int) = (c : Int) * (-((u / c : Nat) : Int)) := by rw [← hdm']; push_cast; ring
    rw [this, Int.mul_ediv_cancel_left _ (ne_of_gt hc'), Int.natAbs_neg, Int.natAbs_natCast]
  · rename_i h
    have h1 : -(u : Int) / (c : Int) = -((u / c : Nat) : Int) - 1 := by
      have hb : (1 : Int) ≤ ((u % c : Nat) : Int) := by exact_mod_cast Nat.one_le_iff_ne_zero.mpr h
      have hb' : ((u % c : Nat) : Int) < (c : Int) := by exact_mod_cast hml
      rw [Int.ediv_eq_iff_of_pos hc']
      constructor <;> nlinarith
    rw [h1]
    generalize u / c = a
    omega

/-- A whole number of at most 53 bits is a value of the format. -/
theorem whole_representable {n : Nat} (hn : n ≤ 2 ^ 53) : ∃ p, p < infMag ∧ magUnits p = n * oneUnits := by
  rcases Nat.eq_zero_or_pos n with rfl | hpos
  · exact ⟨0, by decide, by simp⟩
  · rcases Nat.lt_or_eq_of_le hn with hlt | rfl
    · have hlog : n.log2 < 53 := (Nat.log2_lt (by omega)).mpr hlt
      have hlo : 2 ^ n.log2 ≤ n := Nat.log2_self_le (by omega)
      have hhi : n < 2 ^ (n.log2 + 1) := Nat.lt_log2_self
      generalize n.log2 = j at *
      have hm : 2 ^ 52 ≤ n * 2 ^ (52 - j) := by
        calc 2 ^ 52 = 2 ^ j * 2 ^ (52 - j) := by rw [← pow_add]; congr 1; omega
          _ ≤ n * 2 ^ (52 - j) := Nat.mul_le_mul_right _ hlo
      have hm' : n * 2 ^ (52 - j) ≤ 2 ^ 53 := by
        calc n * 2 ^ (52 - j) ≤ 2 ^ (j + 1) * 2 ^ (52 - j) := Nat.mul_le_mul_right _ (by omega)
          _ = 2 ^ 53 := by rw [← pow_add]; congr 1; omega
      refine ⟨(1022 + j) * 2 ^ 52 + n * 2 ^ (52 - j), ?_, ?_⟩
      · have : infMag = 2047 * 2 ^ 52 := by decide
        omega
      · rw [magUnits_scaled hm hm', Nat.mul_assoc, ← pow_add]
        unfold oneUnits
        congr 2
        omega
    · refine ⟨1075 * 2 ^ 52 + 2 ^ 52, by decide, ?_⟩
      rw [magUnits_scaled (le_refl _) (by decide)]
      unfold oneUnits
      rw [← pow_add, ← pow_add]

/-- A whole number of at most 53 bits is converted exactly (R12). -/
theorem magUnits_whole {n : Nat} (hn : n ≤ 2 ^ 53) : magUnits (roundUnits (n * oneUnits) 1) = n * oneUnits := by
  obtain ⟨p, hp, hm⟩ := whole_representable hn
  rw [← hm, roundUnits_exact_one (Nat.le_of_lt hp)]

/-- toF(n) is n and finite for n of at most 53 bits (R12). -/
theorem fmtUnits_ofNat {n : Nat} (hn : n ≤ 2 ^ 53) : fmtUnits (fmtOfNat n) = (n * oneUnits : Nat) := by
  unfold fmtOfNat fmtWhole
  rw [fmtUnits_pack _ (roundUnits_lt _ _), magUnits_whole hn]
  rfl

theorem fmtIsFinite_ofNat {n : Nat} (hn : n ≤ 2 ^ 53) : fmtIsFinite (fmtOfNat n) = true := by
  obtain ⟨p, hp, hm⟩ := whole_representable hn
  unfold fmtOfNat fmtWhole
  rw [fmtIsFinite_iff, fmtMag_pack _ (roundUnits_lt _ _), ← hm, roundUnits_exact_one (Nat.le_of_lt hp)]
  exact hp

/-- The integer part of a magnitude is a value of the format, and so is the next integer up. -/
theorem integer_representable {p n : Nat} (hp : p < infMag)
    (hn : n = magUnits p / oneUnits ∨ (n = magUnits p / oneUnits + 1 ∧ magUnits p % oneUnits ≠ 0)) :
    ∃ q, q < infMag ∧ magUnits q = n * oneUnits := by
  obtain ⟨k, m, hpk, hm, hk, hval⟩ := mag_cases p
  by_cases h1074 : 1074 ≤ k
  · have hdvd : magUnits p = m * 2 ^ (k - 1074) * oneUnits := by
      rw [hval, Nat.mul_assoc]
      unfold oneUnits
      rw [← pow_add]
      congr 2
      omega
    have hdiv : magUnits p / oneUnits = m * 2 ^ (k - 1074) := by rw [hdvd, Nat.mul_div_cancel _ oneUnits_pos]
    rcases hn with rfl | ⟨_, hmod⟩
    · exact ⟨p, hp, by rw [hdiv, hdvd]⟩
    · exact absurd (by rw [hdvd, Nat.mul_mod_left]) hmod
  · apply whole_representable
    have hle : magUnits p < 2 ^ 53 * oneUnits := by
      rw [hval]
      calc m * 2 ^ k < 2 ^ 53 * 2 ^ k := Nat.mul_lt_mul_of_pos_right hm (Nat.two_pow_pos k)
        _ ≤ 2 ^ 53 * oneUnits := Nat.mul_le_mul_left _ (two_pow_le_oneUnits (by omega))
    have : magUnits p / oneUnits < 2 ^ 53 := (Nat.div_lt_iff_lt_mul oneUnits_pos).mpr hle
    omega

theorem fmtFloor_units {x : Word} (hx : fmtIsFinite x = true) :
    fmtUnits (fmtFloor x) = fmtFloorInt x * (oneUnits : Int) ∧ fmtIsFinite (fmtFloor x) = true := by
  have hp := fmtIsFinite_iff.mp hx
  have hpos : (0 : Int) < (oneUnits : Int) := by exact_mod_cast oneUnits_pos
  obtain ⟨q, hq, hqm⟩ : ∃ q, q < infMag ∧ magUnits q = (fmtFloorInt x).natAbs * oneUnits := by
    apply integer_representable hp
    unfold fmtFloorInt fmtUnits
    cases fmtSign x
    · left
      rw [if_neg Bool.false_ne_true, ← Int.natCast_ediv, Int.natAbs_natCast]
    · rw [if_pos rfl, natAbs_neg_ediv _ oneUnits_pos]
      split
      · exact .inl rfl
      · exact .inr ⟨rfl, ‹_›⟩
  have hround : roundUnits ((fmtFloorInt x).natAbs * oneUnits) 1 = q := by
    rw [← hqm, roundUnits_exact_one (Nat.le_of_lt hq)]
  unfold fmtFloor fmtWhole
  rw [if_pos hx, hround]
  refine ⟨?_, by rw [fmtIsFinite_iff, fmtMag_pack _ (Nat.lt_trans hq infMag_lt)]; exact hq⟩
  rw [fmtUnits_pack _ (Nat.lt_trans hq infMag_lt), hqm]
  have hsign : fmtSign x = true → fmtFloorInt x ≤ 0 := by
    intro h
    unfold fmtFloorInt fmtUnits
    rw [h, if_pos rfl]
    exact Int.ediv_nonpos_of_nonpos_of_neg (by omega) hpos
  have hsign' : fmtSign x = false → 0 ≤ fmtFloorInt x := by
    intro h
    unfold fmtFloorInt fmtUnits
    rw [h]
    exact Int.ediv_nonneg (by simp) (le_of_lt hpos)
  rw [Nat.cast_mul]
  cases hs : fmtSign x
  · rw [if_neg Bool.false_ne_true, Int.natAbs_of_nonneg (hsign' hs)]
  · rw [if_pos rfl, Int.ofNat_natAbs_of_nonpos (hsign hs), neg_mul, neg_neg]

/-- toInt(floor(x)) is the integer below a finite x (R12, R164). -/
theorem fmtToInt_floor {x : Word} (hx : fmtIsFinite x = true) : fmtToInt (fmtFloor x) = fmtFloorInt x := by
  have hpos : (oneUnits : Int) ≠ 0 := by exact_mod_cast Nat.ne_of_gt oneUnits_pos
  conv_lhs => unfold fmtToInt fmtFloorInt
  rw [(fmtFloor_units hx).1, Int.mul_ediv_cancel _ hpos]

theorem fmtCeil_eq {x : Word} (hx : fmtIsFinite x = true) : fmtCeil x = fmtNeg (fmtFloor (fmtNeg x)) := by
  unfold fmtCeil fmtFloor
  rw [fmtIsFinite_neg, if_pos hx, if_pos hx]
  unfold fmtNeg fmtWhole
  rw [fmtSign_pack _ (roundUnits_lt _ _), fmtMag_pack _ (roundUnits_lt _ _)]
  rw [fmtSign_pack _ (fmtMag_lt x), Bool.not_not]
  unfold fmtCeilInt fmtFloorInt
  rw [← fmtUnits_neg, Int.natAbs_neg]
  rfl

/-- ceil(x) is the integer above a finite x, exactly (R12). -/
theorem fmtCeil_units {x : Word} (hx : fmtIsFinite x = true) :
    fmtUnits (fmtCeil x) = fmtCeilInt x * (oneUnits : Int) ∧ fmtIsFinite (fmtCeil x) = true := by
  have hx' : fmtIsFinite (fmtNeg x) = true := by rw [fmtIsFinite_neg]; exact hx
  have h := fmtFloor_units hx'
  rw [fmtCeil_eq hx, fmtUnits_neg, h.1, fmtIsFinite_neg]
  refine ⟨?_, h.2⟩
  unfold fmtCeilInt fmtFloorInt
  rw [fmtUnits_neg, neg_mul]

/-- toInt(ceil(x)) is the integer above a finite x (R12, R164). -/
theorem fmtToInt_ceil {x : Word} (hx : fmtIsFinite x = true) : fmtToInt (fmtCeil x) = fmtCeilInt x := by
  have hpos : (oneUnits : Int) ≠ 0 := by exact_mod_cast Nat.ne_of_gt oneUnits_pos
  conv_lhs => unfold fmtToInt fmtFloorInt
  rw [(fmtCeil_units hx).1, Int.mul_ediv_cancel _ hpos]

/-- The order of finite values is the order of their exact values. -/
theorem fmtLt_finite {x y : Word} (hx : fmtIsFinite x = true) (hy : fmtIsFinite y = true) :
    fmtLt x y = decide (fmtUnits x < fmtUnits y) := by
  unfold fmtLt
  rw [fmtIsNaN_of_finite hx, fmtIsNaN_of_finite hy]
  simp only [Bool.not_false, Bool.true_and, decide_eq_decide]
  unfold fmtKey fmtUnits
  have h1 := @magUnits_lt (fmtMag x) (fmtMag y)
  have h2 := @magUnits_lt (fmtMag y) (fmtMag x)
  have h3 := @magUnits_lt 0 (fmtMag x)
  have h4 := @magUnits_lt 0 (fmtMag y)
  rw [magUnits_zero] at h3 h4
  cases fmtSign x <;> cases fmtSign y <;> simp only [Bool.false_eq_true, if_true, if_false] <;> omega

/-- What SIN can answer (R142 (b) to (d)): a NaN for an infinity or a NaN, and otherwise a magnitude of at
most 1. -/
theorem fmtSin_cases (x : Word) :
    (fmtIsFinite x = false ∧ fmtIsNaN (fmtSin x) = true) ∨
    (fmtIsFinite x = true ∧ fmtMag (fmtSin x) ≤ fmtMag fmtOne) := by
  unfold fmtSin
  by_cases h0 : fmtMag x = 0
  · right
    rw [if_pos h0]
    refine ⟨fmtIsFinite_iff.mpr (by rw [h0]; decide), by rw [h0]; exact Nat.zero_le _⟩
  · rw [if_neg h0]
    cases hf : fmtIsFinite x
    · left; simp [fmtIsNaN_fmtNaN]
    · right
      refine ⟨rfl, ?_⟩
      simp only [Bool.not_true, Bool.false_eq_true, if_false]
      split
      · assumption
      · exact Nat.zero_le _


end Sys2Proof.Machine
end

