-- ==== Sys2Proof/Laws/Ops.lean ====
section
/-! SUPPORT. For each shared operation, once, everything it can do. -/

namespace Sys2Proof.Machine

/-! ### WRAP and the cursor -/

/-- WRAP lands in the history (R122). -/
theorem wrap_lt (x : Int) {c : Nat} (hc : 0 < c) : wrap x c < c := by
  have h := Int.emod_lt_of_pos (x % (c : Int) + (c : Int)) (show (0 : Int) < (c : Int) by exact_mod_cast hc)
  have h' := Int.emod_nonneg (x % (c : Int) + (c : Int)) (show (c : Int) ≠ 0 by exact_mod_cast Nat.ne_of_gt hc)
  unfold wrap
  omega

/-- WRAP is the floored modulus (R10, R120). -/
theorem wrap_eq_emod (x : Int) {c : Nat} (hc : 0 < c) : (wrap x c : Int) = x % (c : Int) := by
  have h' := Int.emod_nonneg (x % (c : Int) + (c : Int)) (show (c : Int) ≠ 0 by exact_mod_cast Nat.ne_of_gt hc)
  unfold wrap
  rw [Int.toNat_of_nonneg h', Int.add_emod_right, Int.emod_emod_of_dvd _ (dvd_refl _)]

/-- The next cursor is a valid index (R44, R126). -/
theorem cursorNext_toNat {s : State} (hc : 0 < s.capacity.toNat) :
    (cursorNext s).toNat = (s.cursor.toNat + 1) % s.capacity.toNat := by
  have := Nat.mod_lt (s.cursor.toNat + 1) hc
  have := s.capacity.isLt
  unfold cursorNext
  rw [BitVec.toNat_ofNat, Nat.mod_eq_of_lt (by omega)]

theorem cursorNext_lt {s : State} (hc : 0 < s.capacity.toNat) : (cursorNext s).toNat < s.capacity.toNat := by
  rw [cursorNext_toNat hc]
  exact Nat.mod_lt _ hc

/-! ### The memories' accesses -/

theorem histRead_ok {s : State} {i : Nat} {v : Word} (h : histRead s i = .ok v) :
    s.status.ready = true ∧ i < s.capacity.toNat ∧ v = histWord s i := by
  unfold histRead histOk at h
  split at h
  · rename_i hc
    simp_all
  · cases h

theorem histRead_of_ready {s : State} {i : Nat} (hr : s.status.ready = true) (hi : i < s.capacity.toNat) :
    histRead s i = .ok (histWord s i) := by
  simp [histRead, histOk, hr, hi]

theorem histWrite_ok {s t : State} {i : Nat} {v : Word} (h : histWrite s i v = .ok t) :
    s.status.ready = true ∧ i < s.capacity.toNat ∧ t = { s with hist := histPut s.hist i v } := by
  unfold histWrite histOk at h
  split at h
  · rename_i hc
    simp_all
  · cases h

theorem histWrite_of_ready {s : State} {i : Nat} (v : Word) (hr : s.status.ready = true)
    (hi : i < s.capacity.toNat) : histWrite s i v = .ok { s with hist := histPut s.hist i v } := by
  simp [histWrite, histOk, hr, hi]

theorem frameRead_ok {s : State} {i : Nat} {v : Word} (h : frameRead s i = .ok v) :
    i < Config.frameMemWords ∧ v = frameWord s i := by
  unfold frameRead at h
  split at h
  · simp_all
  · cases h

theorem frameWrite_ok {s t : State} {i : Nat} {v : Word} (h : frameWrite s i v = .ok t) :
    i < Config.frameMemWords ∧ t = frameSet s i v := by
  unfold frameWrite at h
  split at h
  · simp_all
  · cases h

/-- A tap of a prepared core is a history word (R122, R167, R172). -/
theorem tap_of_ready {s : State} (n : Int) (hr : s.status.ready = true) (hc : 0 < s.capacity.toNat) :
    tap s n = .ok (histWord s (wrap n s.capacity.toNat)) :=
  histRead_of_ready hr (wrap_lt n hc)

/-- LINEAR: the read of a prepared core (R169). -/
theorem readLinear_of_ready (d : Nat → Word) {s : State} (pos : Word) (hr : s.status.ready = true)
    (hc : 0 < s.capacity.toNat) :
    readLinear d s pos = .ok (lerp d
      (histWord s (wrap (fmtToInt (fmtFloor pos)) s.capacity.toNat))
      (histWord s (wrap (fmtToInt (fmtCeil pos)) s.capacity.toNat)) (fraction d pos)) := by
  unfold readLinear
  rw [tap_of_ready _ hr hc, tap_of_ready _ hr hc]
  rfl

/-- CUBIC: the read of a prepared core (R170). -/
theorem readCubic_of_ready (d : Nat → Word) {s : State} (pos : Word) (hr : s.status.ready = true)
    (hc : 0 < s.capacity.toNat) :
    readCubic d s pos = .ok (cubicKernel d
      (histWord s (wrap (fmtToInt (fmtFloor pos) - 1) s.capacity.toNat))
      (histWord s (wrap (fmtToInt (fmtFloor pos)) s.capacity.toNat))
      (histWord s (wrap (fmtToInt (fmtFloor pos) + 1) s.capacity.toNat))
      (histWord s (wrap (fmtToInt (fmtFloor pos) + 2) s.capacity.toNat)) (fraction d pos)) := by
  unfold readCubic
  simp only [tap_of_ready _ hr hc]
  rfl

/-- The read of a prepared core never fails, whatever the mode and the position (R172). -/
theorem readHistory_of_ready (d : Nat → Word) {s : State} (pos : Word) (hr : s.status.ready = true)
    (hc : 0 < s.capacity.toNat) : ∃ w, readHistory d s pos = .ok w := by
  unfold readHistory
  cases s.interpMode
  · exact ⟨_, readLinear_of_ready d pos hr hc⟩
  · exact ⟨_, readCubic_of_ready d pos hr hc⟩

/-! ### Commands -/

/-- A command never stops; while BUSY it only raises ERR_BUSY (R229). -/
theorem unlessBusy_next {s t : State} {act : State → State} (h : unlessBusy s act = .next t) :
    (s.status.busy = true ∧ t = raise .busy s) ∨ (s.status.busy = false ∧ t = act s) := by
  unfold unlessBusy at h
  split at h
  · rename_i hb
    exact .inl ⟨hb, by simpa using h.symm⟩
  · rename_i hb
    exact .inr ⟨by simpa using hb, by simpa using h.symm⟩

/-- What PREPARE can do with BUSY = 0: refuse, or allocate for an accepted rate (R232). -/
theorem prepare_cases (s : State) :
    ((s.status.ready = true ∨ rateAccepted s.sampleRate = false) ∧ prepare s = raise .prepare s) ∨
    (s.status.ready = false ∧ rateAccepted s.sampleRate = true ∧
      prepare s =
        { s with
          capacity := BitVec.ofNat 32 (fmtToInt (fmtFloor s.sampleRate)).toNat
          hist := histZeroFill s.hist (fmtToInt (fmtFloor s.sampleRate)).toNat
          cursor := 0#32
          status := { s.status with ready := true } }) := by
  unfold prepare
  cases hr : s.status.ready <;> cases ha : rateAccepted s.sampleRate <;> simp

/-- What PROCESS can do with BUSY = 0: refuse, or accept a block that has channels and fits (R234). -/
theorem process_cases (ch : BitVec 8) (frames : BitVec 20) (s : State) :
    (ch = 0#8 ∧ process ch frames s = raise .channels s) ∨
    (ch ≠ 0#8 ∧ Config.frameMemWords < frames.toNat * ch.toNat ∧ process ch frames s = raise .block s) ∨
    (ch ≠ 0#8 ∧ frames.toNat * ch.toNat ≤ Config.frameMemWords ∧
      process ch frames s =
        { s with
          blkCh := ch
          blkFrames := frames
          frameIdx := 0#20
          status := { s.status with busy := true }
          seqState := .start }) := by
  unfold process
  by_cases hc : ch = 0#8
  · left; exact ⟨hc, if_pos hc⟩
  · by_cases hf : Config.frameMemWords < frames.toNat * ch.toNat
    · right; left; exact ⟨hc, hf, by rw [if_neg hc, if_pos hf]⟩
    · right; right; exact ⟨hc, by omega, by rw [if_neg hc, if_neg hf]⟩

/-- The rates PREPARE accepts, as numbers: finite, and a floor from 1 to MAX_CAPACITY (R232). -/
theorem rateAccepted_iff (sr : Word) :
    rateAccepted sr = true ↔
      fmtIsFinite sr = true ∧ 1 ≤ fmtFloorInt sr ∧ fmtFloorInt sr ≤ (Config.maxCapacity : Int) := by
  unfold rateAccepted
  cases hf : fmtIsFinite sr
  · simp
  · obtain ⟨hu, hfin⟩ := fmtFloor_units hf
    have hpos : (0 : Int) < (oneUnits : Int) := by exact_mod_cast oneUnits_pos
    have h1 : fmtUnits fmtOne = (oneUnits : Int) := by
      have : fmtOne = fmtOfNat 1 := by decide +kernel
      rw [this, fmtUnits_ofNat (by decide), Nat.one_mul]
    rw [fmtLt_finite hfin (by decide), fmtLt_finite (fmtIsFinite_ofNat (by decide)) hfin]
    rw [fmtUnits_ofNat (by decide), hu, h1]
    push_cast
    simp only [Bool.true_and, Bool.and_eq_true, Bool.not_eq_true', decide_eq_false_iff_not, Int.not_lt, true_and]
    rw [mul_le_mul_iff_left₀ hpos]
    rw [le_mul_iff_one_le_left hpos]

/-! ### Fetching -/

/-- The code of a sequencer state is read back as that state (R100). -/
@[simp] theorem seqOfCode_seqCode (q : SeqState) : seqOfCode (seqCode q) = q := by
  cases q <;> rfl

theorem fetchSequencer_eq (s : State) : fetchSequencer s = .run (seqInstr s.seqState) s := by
  unfold fetchSequencer
  rw [seqOfCode_seqCode]

/-- The state a step starts from: the turn consumed, if there was one. -/
def afterTurn (s : State) : State := { s with turns := s.turns.tail }

/-- Everything a fetch can be: a reset, nothing pending at the Host, the Host's transaction, or the
Sequencer's action (R14, R70, R350). -/
theorem fetch_cases (s : State) :
    (s.turns.head? = some .reset ∧ fetch s = .quiet (coreReset (afterTurn s))) ∨
    (s.turns.head? ≠ some .reset ∧ s.host = [] ∧ fetch s = .quiet (afterTurn s)) ∨
    (s.turns.head? ≠ some .reset ∧ ∃ item rest, s.host = item :: rest ∧
      fetch s = .run (decodeTransaction (hostTransaction item))
        { afterTurn s with host := hostRest s item rest }) ∨
    (s.turns.head? ≠ some .reset ∧ fetch s = .run (seqInstr s.seqState) (afterTurn s)) := by
  have hostCase : ∀ u : State, (u.host = [] ∧ fetchHost u = .quiet u) ∨
      ∃ item rest, u.host = item :: rest ∧
        fetchHost u = .run (decodeTransaction (hostTransaction item)) { u with host := hostRest u item rest } := by
    intro u
    unfold fetchHost
    cases h : u.host with
    | nil => exact .inl ⟨rfl, rfl⟩
    | cons item rest => exact .inr ⟨item, rest, rfl, rfl⟩
  cases ht : s.turns with
  | nil =>
    have ha : afterTurn s = s := by
      unfold afterTurn
      rw [ht]
      cases s
      simp_all
    rw [ha]
    have hfetch : fetch s = if s.seqState = .idle then fetchHost s else fetchSequencer s := by
      unfold fetch
      rw [ht]
    rw [hfetch]
    by_cases hq : s.seqState = .idle
    · rw [if_pos hq]
      rcases hostCase s with ⟨h, hf⟩ | ⟨item, rest, h, hf⟩
      · exact .inr (.inl ⟨by simp, h, hf⟩)
      · exact .inr (.inr (.inl ⟨by simp, item, rest, h, hf⟩))
    · rw [if_neg hq]
      exact .inr (.inr (.inr ⟨by simp, fetchSequencer_eq s⟩))
  | cons turn ts =>
    have ha : afterTurn s = { s with turns := ts } := by
      unfold afterTurn
      rw [ht]
      rfl
    rw [ha]
    unfold fetch
    rw [ht]
    cases turn with
    | host =>
      rcases hostCase { s with turns := ts } with ⟨h, hf⟩ | ⟨item, rest, h, hf⟩
      · exact .inr (.inl ⟨by simp, h, hf⟩)
      · exact .inr (.inr (.inl ⟨by simp, item, rest, h, hf⟩))
    | sequencer => exact .inr (.inr (.inr ⟨by simp, fetchSequencer_eq _⟩))
    | reset => exact .inl ⟨rfl, rfl⟩

theorem step_of_run {s u : State} {i : Instr} (h : fetch s = .run i u) : step s = exec i u := by
  unfold step
  rw [h]

theorem step_of_quiet {s u : State} (h : fetch s = .quiet u) : step s = .next u := by
  unfold step
  rw [h]

end Sys2Proof.Machine
end

