-- ==== Sys2Proof/Laws/PerInstr.lean ====
section
/-! SUPPORT. Statements made of every instruction, one lemma per constructor. -/

namespace Sys2Proof.Laws

/-- The encoding of an instruction has the fixed length of its form (R90). -/
def FixedLength.Statement (i : Instr) : Prop := (encode i).2.length = formLength (encode i).1

theorem FixedLength.rdId : FixedLength.Statement .rdId := rfl
theorem FixedLength.wrId (data : Word) : FixedLength.Statement (.wrId data) := rfl
theorem FixedLength.rdStatus : FixedLength.Statement .rdStatus := rfl
theorem FixedLength.wrStatus (data : Word) : FixedLength.Statement (.wrStatus data) := rfl
theorem FixedLength.rdCmd : FixedLength.Statement .rdCmd := rfl
theorem FixedLength.wrCmd (w : Word) : FixedLength.Statement (.wrCmd w) := rfl
theorem FixedLength.rdSampleRate : FixedLength.Statement .rdSampleRate := rfl
theorem FixedLength.wrSampleRate (v : Word) : FixedLength.Statement (.wrSampleRate v) := rfl
theorem FixedLength.rdCapacity : FixedLength.Statement .rdCapacity := rfl
theorem FixedLength.wrCapacity (data : Word) : FixedLength.Statement (.wrCapacity data) := rfl
theorem FixedLength.rdCursor : FixedLength.Statement .rdCursor := rfl
theorem FixedLength.wrCursor (data : Word) : FixedLength.Statement (.wrCursor data) := rfl
theorem FixedLength.rdPhase : FixedLength.Statement .rdPhase := rfl
theorem FixedLength.wrPhase (data : Word) : FixedLength.Statement (.wrPhase data) := rfl
theorem FixedLength.rdDelaySecs : FixedLength.Statement .rdDelaySecs := rfl
theorem FixedLength.wrDelaySecs (v : Word) : FixedLength.Statement (.wrDelaySecs v) := rfl
theorem FixedLength.rdFeedback : FixedLength.Statement .rdFeedback := rfl
theorem FixedLength.wrFeedback (v : Word) : FixedLength.Statement (.wrFeedback v) := rfl
theorem FixedLength.rdWetmix : FixedLength.Statement .rdWetmix := rfl
theorem FixedLength.wrWetmix (v : Word) : FixedLength.Statement (.wrWetmix v) := rfl
theorem FixedLength.rdAmount : FixedLength.Statement .rdAmount := rfl
theorem FixedLength.wrAmount (v : Word) : FixedLength.Statement (.wrAmount v) := rfl
theorem FixedLength.rdRate : FixedLength.Statement .rdRate := rfl
theorem FixedLength.wrRate (v : Word) : FixedLength.Statement (.wrRate v) := rfl
theorem FixedLength.rdInterpMode : FixedLength.Statement .rdInterpMode := rfl
theorem FixedLength.wrInterpMode (v : Word) : FixedLength.Statement (.wrInterpMode v) := rfl
theorem FixedLength.rdSeq : FixedLength.Statement .rdSeq := rfl
theorem FixedLength.wrSeq (data : Word) : FixedLength.Statement (.wrSeq data) := rfl
theorem FixedLength.rdDbgIndex : FixedLength.Statement .rdDbgIndex := rfl
theorem FixedLength.wrDbgIndex (v : Word) : FixedLength.Statement (.wrDbgIndex v) := rfl
theorem FixedLength.rdDbgData : FixedLength.Statement .rdDbgData := rfl
theorem FixedLength.wrDbgData (data : Word) : FixedLength.Statement (.wrDbgData data) := rfl
theorem FixedLength.rdFrame (i : Nat) : FixedLength.Statement (.rdFrame i) := rfl
theorem FixedLength.wrFrame (i : Nat) (v : Word) : FixedLength.Statement (.wrFrame i v) := rfl
theorem FixedLength.busIllegal (write : Bool) (offset : BitVec 24) (lanesOff : BitVec 8) (data : Word) : FixedLength.Statement (.busIllegal write offset lanesOff data) := rfl
theorem FixedLength.cmdNop : FixedLength.Statement .cmdNop := rfl
theorem FixedLength.cmdPrepare : FixedLength.Statement .cmdPrepare := rfl
theorem FixedLength.cmdProcess (ch : BitVec 8) (frames : BitVec 20) : FixedLength.Statement (.cmdProcess ch frames) := rfl
theorem FixedLength.cmdReserved (w : Word) : FixedLength.Statement (.cmdReserved w) := rfl
theorem FixedLength.seqIdle : FixedLength.Statement .seqIdle := rfl
theorem FixedLength.seqStart : FixedLength.Statement .seqStart := rfl
theorem FixedLength.seqFdlRead : FixedLength.Statement .seqFdlRead := rfl
theorem FixedLength.seqDownmix : FixedLength.Statement .seqDownmix := rfl
theorem FixedLength.seqUpmix : FixedLength.Statement .seqUpmix := rfl
theorem FixedLength.seqWriteback : FixedLength.Statement .seqWriteback := rfl
theorem FixedLength.seqCursorAdv : FixedLength.Statement .seqCursorAdv := rfl
theorem FixedLength.seqOscAdv : FixedLength.Statement .seqOscAdv := rfl

end Sys2Proof.Laws
end

