-- ==== Sys2Proof/Laws/Round.lean ====
section
/-! SUPPORT. The one rounding of the FMT operations, said once: packing `roundUnits num den` rounds num / den
units to nearest, ties to even (R11, R18). -/

namespace Sys2Proof.Machine

/-- The scale of a quotient that is not the least: the quotient has its hidden bit there. -/
theorem quot_ge_of_scale {num den : Nat} (hk : roundShift (num / den) ≠ 0) :
    2 ^ 52 * 2 ^ roundShift (num / den) ≤ num / den := by
  unfold roundShift at hk ⊢
  split at hk
  · exact absurd rfl hk
  · rename_i h
    rw [if_neg h]
    have hne : num / den ≠ 0 := by omega
    have h53 : 53 ≤ (num / den).log2 := by
      rw [Nat.le_log2 hne]
      omega
    rw [← pow_add, show 52 + ((num / den).log2 - 52) = (num / den).log2 by omega]
    exact Nat.log2_self_le hne

/-- Every quotient is below 2^53 steps of its scale. -/
theorem quot_lt_scale (num den : Nat) : num / den < 2 ^ 53 * 2 ^ roundShift (num / den) := by
  unfold roundShift
  split
  · simpa using ‹num / den < 2 ^ 53›
  · rename_i h
    have hne : num / den ≠ 0 := by omega
    have h53 : 53 ≤ (num / den).log2 := by
      rw [Nat.le_log2 hne]
      omega
    rw [← pow_add, show 53 + ((num / den).log2 - 52) = (num / den).log2 + 1 by omega]
    exact Nat.lt_log2_self

/-- The magnitude before the cut at infinity: k·2^52 + n. -/
theorem roundUnits_eq_min (num den : Nat) :
    roundUnits num den =
      min (roundShift (num / den) * 2 ^ 52 + roundQuot num (den * 2 ^ roundShift (num / den))) infMag := rfl

/-- Rounding overflows exactly from half a unit in the last place past the largest finite value on, with
T = 2^2044 that half unit. -/
theorem roundUnits_inf_iff_of_eq (num : Nat) {den T : Nat} (hd : 0 < den) (hT : T = 2 ^ 2044) :
    roundUnits num den = infMag ↔ (2 ^ 54 - 1) * (T * den) ≤ num := by
  have hlow : ∀ k < 2045, 2 ^ k ≤ T := fun k hk => by
    rw [hT]
    exact Nat.pow_le_pow_right Nat.two_pos (Nat.le_of_lt_succ hk)
  have hlast : ∀ k, k = 2045 → 2 ^ k = 2 * T := fun k hk => by
    obtain ⟨j, rfl⟩ : ∃ j, k = j + 1 := ⟨2044, hk⟩
    obtain rfl : j = 2044 := by omega
    rw [hT, Nat.pow_succ']
  have hhigh : ∀ k, 2045 < k → 4 * T ≤ 2 ^ k := fun k hk => by
    obtain ⟨j, rfl⟩ : ∃ j, k = j + 2 := ⟨k - 2, by omega⟩
    have h : T ≤ 2 ^ j := by
      rw [hT]
      exact Nat.pow_le_pow_right Nat.two_pos (by omega)
    rw [Nat.pow_succ', Nat.pow_succ']
    omega
  clear hT
  have hlt := quot_lt_scale num den
  have hge := @quot_ge_of_scale num den
  obtain ⟨hn, hcase⟩ := roundQuot_bounds num den
  rw [roundUnits_eq_min, min_eq_right_iff, show infMag = 2047 * 2 ^ 52 by decide]
  generalize roundShift (num / den) = k at *
  have hD : 0 < den * 2 ^ k := Nat.mul_pos hd (Nat.two_pow_pos k)
  obtain ⟨hs1, hs2, hs3⟩ := roundQuot_spec num hD
  generalize roundQuot num (den * 2 ^ k) = n at *
  rcases Nat.lt_trichotomy k 2045 with h | h | h
  · -- below the last binade: finite, and the quotient is below 2^2097
    have h1 : num < 2 ^ 53 * (2 ^ k * den) := by
      rw [← Nat.mul_assoc, ← Nat.div_lt_iff_lt_mul hd]
      exact hlt
    have h2 : 2 ^ k * den ≤ T * den := Nat.mul_le_mul_right _ (hlow k h)
    clear hlow hlast hhigh hlt hge hcase hs1 hs2 hs3 hD
    generalize 2 ^ k * den = V at *
    generalize T * den = U at *
    exact ⟨fun he => by omega, fun he => by omega⟩
  · -- the last binade: overflow exactly when the multiple rounds up to 2^53
    have hU : den * 2 ^ k = 2 * (T * den) := by
      rw [hlast k h, Nat.mul_left_comm, Nat.mul_comm den T]
    rw [hU] at hs1 hs2 hs3 hD
    clear hU hlow hlast hhigh hlt hge hcase
    generalize T * den = U at *
    rw [show n * (2 * U) = 2 * (n * U) by ring] at hs1 hs2 hs3
    subst h
    constructor
    · intro he
      obtain rfl : n = 2 ^ 53 := by omega
      omega
    · intro hle
      rcases Nat.lt_or_ge n (2 ^ 53 - 1) with h5 | h5
      · have h3 : n * U ≤ (2 ^ 53 - 2) * U := Nat.mul_le_mul_right _ (by omega)
        omega
      · by_contra hc
        obtain rfl : n = 2 ^ 53 - 1 := by omega
        have := hs3 (.inr (by omega))
        omega
  · -- past it: always overflow
    have h1 : 2 ^ 52 * (2 ^ k * den) ≤ num := by
      rw [← Nat.mul_assoc]
      exact (Nat.le_div_iff_mul_le hd).mp (hge (by omega))
    have h2 : 4 * T * den ≤ 2 ^ k * den := Nat.mul_le_mul_right _ (hhigh k h)
    rw [Nat.mul_assoc] at h2
    have hn52 := hcase.resolve_left (by omega)
    clear hlow hlast hhigh hlt hge hcase hs1 hs2 hs3 hD
    generalize 2 ^ k * den = V at *
    generalize T * den = U at *
    exact ⟨fun _ => by omega, fun _ => by omega⟩

/-- Rounding overflows exactly from 2^2098 − 2^2044 units on (R18). -/
theorem roundUnits_inf_iff (num : Nat) {den : Nat} (hd : 0 < den) :
    roundUnits num den = infMag ↔ ((2 : Int) ^ 2098 - 2 ^ 2044) * (den : Int) ≤ (num : Int) := by
  obtain ⟨T, hT⟩ : ∃ T : Nat, T = 2 ^ 2044 := ⟨_, rfl⟩
  rw [roundUnits_inf_iff_of_eq num hd hT]
  have hTI : (2 : Int) ^ 2044 = (T : Int) := by rw [hT, Nat.cast_pow, Nat.cast_ofNat]
  have hp : (2 : Int) ^ 2098 = 2 ^ 54 * (T : Int) := by
    rw [show (2098 : Nat) = 54 + 2044 from rfl, pow_add, hTI]
  rw [hp, hTI, show ((2 : Int) ^ 54 * T - T) * den = (((2 ^ 54 - 1) * (T * den) : Nat) : Int) by push_cast; ring]
  exact Int.ofNat_le.symm

/-- A finite rounding is as near to the exact quotient as any magnitude is, and even where another
is as near. Distances are doubled
to stay whole. -/
theorem roundUnits_nearest {num den : Nat} (hd : 0 < den) (hfin : roundUnits num den < infMag) (p : Nat) :
    |(magUnits (roundUnits num den) : Int) * den - num| ≤ |(magUnits p : Int) * den - num| ∧
    (|(magUnits (roundUnits num den) : Int) * den - num| = |(magUnits p : Int) * den - num| →
      p ≠ roundUnits num den → roundUnits num den % 2 = 0) := by
  have hmag := magUnits_roundUnits hfin
  have hge := @quot_ge_of_scale num den
  obtain ⟨hn, hcase⟩ := roundQuot_bounds num den
  have hval : roundUnits num den =
      roundShift (num / den) * 2 ^ 52 + roundQuot num (den * 2 ^ roundShift (num / den)) := by
    have := roundUnits_eq_min num den
    omega
  generalize hm : roundUnits num den = m at *
  generalize hk : roundShift (num / den) = k at *
  have hD : 0 < den * 2 ^ k := Nat.mul_pos hd (Nat.two_pow_pos k)
  obtain ⟨hs1, hs2, hs3⟩ := roundQuot_spec num hD
  generalize hq : roundQuot num (den * 2 ^ k) = n at *
  have hmD : magUnits m * den = n * (den * 2 ^ k) := by
    rw [hmag]
    ring
  have heven : n % 2 = 0 → m % 2 = 0 := by omega
  -- a neighbour above is a whole step away, one below too unless the exact value is not below m
  have habove : m < p → (n + 1) * (den * 2 ^ k) ≤ magUnits p * den := by
    intro hp
    have h1 : magUnits (m + 1) ≤ magUnits p := magUnits_le.mpr hp
    have h2 : (n + 1) * 2 ^ k ≤ magUnits (m + 1) := by
      rcases Nat.lt_or_eq_of_le hn with hn' | rfl
      · rw [hval, magUnits_succ hcase hn']
      · rw [hval, show k * 2 ^ 52 + 2 ^ 53 + 1 = (k + 1) * 2 ^ 52 + (2 ^ 52 + 1) by omega,
          magUnits_scaled (by omega) (by omega), Nat.pow_succ]
        have := Nat.two_pow_pos k
        omega
    calc (n + 1) * (den * 2 ^ k) = (n + 1) * 2 ^ k * den := by ring
      _ ≤ magUnits p * den := Nat.mul_le_mul_right _ (Nat.le_trans h2 h1)
  have hbelow : p < m → num < n * (den * 2 ^ k) → magUnits p * den + den * 2 ^ k ≤ n * (den * 2 ^ k) := by
    intro hp hlt
    have hn52 : k = 0 ∨ 2 ^ 52 < n := by
      rcases Nat.eq_zero_or_pos k with h | h
      · exact .inl h
      · right
        have h1 : 2 ^ 52 * 2 ^ k * den ≤ num := (Nat.le_div_iff_mul_le hd).mp (hge (by omega))
        have h2 : 2 ^ 52 * (den * 2 ^ k) < n * (den * 2 ^ k) := by
          calc 2 ^ 52 * (den * 2 ^ k) = 2 ^ 52 * 2 ^ k * den := by ring
            _ ≤ num := h1
            _ < _ := hlt
        exact Nat.lt_of_mul_lt_mul_right h2
    have hn1 : 1 ≤ n := by
      by_contra hc
      have : n = 0 := by omega
      subst this
      omega
    have h1 : magUnits p ≤ magUnits (m - 1) := magUnits_le.mpr (by omega)
    have h2 : magUnits (m - 1) + 2 ^ k = n * 2 ^ k := by
      have hup := magUnits_succ (k := k) (n := n - 1) (by omega) (by omega)
      have hdown : magUnits (k * 2 ^ 52 + (n - 1)) = (n - 1) * 2 ^ k := by
        rcases hn52 with rfl | h52
        · rw [Nat.zero_mul, Nat.zero_add, pow_zero, Nat.mul_one]
          rcases Nat.lt_or_ge (n - 1) (2 ^ 52) with h | h
          · exact magUnits_of_lt h
          · have := magUnits_scaled (k := 0) h (by omega)
            simpa using this
        · exact magUnits_scaled (by omega) (by omega)
      rw [show m - 1 = k * 2 ^ 52 + (n - 1) by omega, hdown]
      obtain ⟨j, rfl⟩ : ∃ j, n = j + 1 := ⟨n - 1, by omega⟩
      rw [Nat.add_sub_cancel, Nat.add_mul, Nat.one_mul]
    calc magUnits p * den + den * 2 ^ k ≤ magUnits (m - 1) * den + den * 2 ^ k :=
          Nat.add_le_add_right (Nat.mul_le_mul_right _ h1) _
      _ = (magUnits (m - 1) + 2 ^ k) * den := by ring
      _ = n * (den * 2 ^ k) := by rw [h2]; ring
  have hstrict : p < m → magUnits p * den < magUnits m * den := fun hp =>
    Nat.mul_lt_mul_of_pos_right (magUnits_lt.mpr hp) hd
  have hsucc : (n + 1) * (den * 2 ^ k) = n * (den * 2 ^ k) + den * 2 ^ k := by ring
  rw [hsucc] at habove
  rw [hmD] at hstrict
  have hmI : (magUnits m : Int) * den = ((n * (den * 2 ^ k) : Nat) : Int) := by exact_mod_cast hmD
  have hpI : (magUnits p : Int) * den = ((magUnits p * den : Nat) : Int) := by push_cast; rfl
  rw [hmI, hpI]
  generalize n * (den * 2 ^ k) = M at *
  generalize magUnits p * den = P at *
  generalize den * 2 ^ k = D at *
  simp only [Int.abs_eq_natAbs]
  rcases Nat.lt_trichotomy p m with hp | hp | hp
  · have h1 := hstrict hp
    have h2 := hbelow hp
    exact ⟨by omega, fun he _ => heven (hs3 (by omega))⟩
  · subst hp
    exact ⟨by omega, fun _ hne => absurd rfl hne⟩
  · have h1 := habove hp
    exact ⟨by omega, fun he _ => heven (hs3 (by omega))⟩

/-- The last bit of a packed even magnitude is 0. -/
theorem fmtPack_lsb (neg : Bool) {m : Nat} (hm : m < 2 ^ 63) (he : m % 2 = 0) : (fmtPack neg m).getLsbD 0 = false := by
  rw [BitVec.getLsbD, fmtPack_toNat neg hm, Nat.testBit_zero]
  cases neg <;> simp <;> omega

/-- Packing the rounded magnitude is rounding: what every FMT operation ends with (R11, R18). -/
theorem roundedTo_pack (neg : Bool) (num : Nat) {den : Nat} (hd : 0 < den) :
    roundedTo (fmtPack neg (roundUnits num den)) neg num den := by
  have hlt := roundUnits_lt num den
  have hle := roundUnits_le_inf num den
  refine ⟨fmtSign_pack neg hlt, ?_, ?_, fun hw z hz => ?_⟩
  · unfold fmtIsNaN
    rw [fmtMag_pack neg hlt]
    exact decide_eq_false (by omega)
  · rw [← roundUnits_inf_iff num hd, ← Bool.not_eq_true, fmtIsFinite_iff, fmtMag_pack neg hlt]
    omega
  · rw [fmtIsFinite_iff, fmtMag_pack neg hlt] at hw
    have hnear := roundUnits_nearest hd hw
    -- the value of a magnitude with this sign is as far from the exact value as its magnitude is
    have hdist : ∀ u : Nat, |(if neg then -(u : Int) else (u : Int)) * den - (if neg then -(num : Int) else (num : Int))| =
        |(u : Int) * den - num| := by
      intro u
      cases neg
      · simp
      · simp only [if_true]
        rw [← abs_neg]
        congr 1
        ring
    have hwu : fmtUnits (fmtPack neg (roundUnits num den)) =
        if neg then -(magUnits (roundUnits num den) : Int) else (magUnits (roundUnits num den) : Int) :=
      fmtUnits_pack neg hlt
    rw [hwu, hdist]
    by_cases hs : fmtSign z = neg ∨ fmtMag z = 0
    · have hzu : fmtUnits z = if neg then -(magUnits (fmtMag z) : Int) else (magUnits (fmtMag z) : Int) := by
        rcases hs with hs | hs
        · unfold fmtUnits
          rw [hs]
        · rw [fmtUnits_eq_zero.mpr hs, hs]
          simp
      rw [hzu, hdist]
      refine ⟨(hnear (fmtMag z)).1, fun he hne => fmtPack_lsb neg hlt ((hnear (fmtMag z)).2 he ?_)⟩
      rintro hp
      rw [hp] at hne
      exact hne rfl
    · -- the other sign: farther than zero is
      rw [not_or] at hs
      have hzu : fmtUnits z = if neg then (magUnits (fmtMag z) : Int) else -(magUnits (fmtMag z) : Int) := by
        unfold fmtUnits
        revert hs
        cases neg <;> cases fmtSign z <;> simp
      have hzpos : 0 < magUnits (fmtMag z) := by
        rw [← magUnits_zero]
        exact magUnits_lt.mpr (Nat.pos_of_ne_zero hs.2)
      have hzero := (hnear 0).1
      rw [magUnits_zero, Nat.cast_zero, zero_mul, zero_sub, abs_neg, abs_of_nonneg (Int.natCast_nonneg num)] at hzero
      have hp : (0 : Int) < (magUnits (fmtMag z) : Int) * den :=
        mul_pos (by exact_mod_cast hzpos) (by exact_mod_cast hd)
      have hfar : |fmtUnits z * den - (if neg then -(num : Int) else (num : Int))| =
          (magUnits (fmtMag z) : Int) * den + num := by
        rw [hzu]
        cases neg
        · rw [if_neg Bool.false_ne_true, if_neg Bool.false_ne_true, ← abs_neg, abs_of_nonneg]
          · ring
          · have := Int.natCast_nonneg num
            linarith
        · rw [if_pos rfl, if_pos rfl, abs_of_nonneg]
          · ring
          · have := Int.natCast_nonneg num
            linarith
      rw [hfar]
      exact ⟨by linarith, fun he => by linarith⟩

end Sys2Proof.Machine
end

