-- ==== Sys2Proof/Laws/Steps.lean ====
section
/-! SUPPORT. Everything a Host transaction and a sequencer action can do, said once: later proofs take a
next state apart with `cases` and unfold no meaning. -/

namespace Sys2Proof.Machine

/-- What a transaction can leave behind in a state s (R228, R270 to R299). -/
inductive HostEffect (tr : Transaction) (s : State) : State → Prop
  /-- A read returns a value and changes nothing else. -/
  | answers (v : Word) : HostEffect tr s (returned v s)
  /-- A refused read returns a value and raises an error. -/
  | refusesRead (c : ErrorCause) (v : Word) : HostEffect tr s (returned v (raise c s))
  /-- A refused write or command raises an error. -/
  | refuses (c : ErrorCause) : HostEffect tr s (raise c s)
  /-- A frame read while BUSY returns a free value. -/
  | freeRead (hb : s.status.busy = true) : HostEffect tr s (drew (returned (drawn s 0) (raise .busy s)))
  /-- A frame write. -/
  | storesFrame (hb : s.status.busy = false) (i : Nat) (hi : i < Config.frameMemWords) (v : Word) :
      HostEffect tr s (frameSet s i v)
  /-- NOP. -/
  | nop (hb : s.status.busy = false) : HostEffect tr s s
  /-- PREPARE with BUSY = 0. -/
  | prepares (hb : s.status.busy = false) (hw : tr.write = true) (ho : tr.offset.toNat = 0x010)
      (hd : tr.data = 1#64) : HostEffect tr s (prepare s)
  /-- PROCESS with BUSY = 0. -/
  | processes (hb : s.status.busy = false) (ch : BitVec 8) (frames : BitVec 20) :
      HostEffect tr s (process ch frames s)
  | setsSampleRate (hr : s.status.ready = false) (v : Word) : HostEffect tr s { s with sampleRate := v }
  | setsDelaySecs (v : Word) : HostEffect tr s { s with delaySecs := v }
  | setsFeedback (v : Word) : HostEffect tr s { s with feedback := v }
  | setsWetmix (v : Word) : HostEffect tr s { s with wetmix := v }
  | setsAmount (v : Word) : HostEffect tr s { s with amount := v }
  | setsRate (v : Word) : HostEffect tr s { s with rate := v }
  | setsInterpMode (m : InterpMode) : HostEffect tr s { s with interpMode := m }
  | setsDbgIndex (i : BitVec 32) : HostEffect tr s { s with dbgIndex := i }

theorem decodeCommand_eq_prepare {w : Word} (h : decodeCommand w = .prepare) : w = 1#64 := by
  unfold decodeCommand at h
  split at h
  · cases h
  · split at h
    · cases h
    · split at h
      · cases h
      · split at h
        · assumption
        · cases h

/-- The command dispatch. -/
theorem hostEffect_of_cmd {tr : Transaction} {s t : State} (hw : tr.write = true) (ho : tr.offset.toNat = 0x010)
    (h : exec (.wrCmd tr.data) s = .next t) : HostEffect tr s t := by
  simp only [exec, execWrCmd] at h
  split at h
  · rcases unlessBusy_next h with ⟨_, rfl⟩ | ⟨hb, rfl⟩
    · exact .refuses .busy
    · exact .nop hb
  · rename_i hd
    rcases unlessBusy_next h with ⟨_, rfl⟩ | ⟨hb, rfl⟩
    · exact .refuses .busy
    · exact .prepares hb hw ho (decodeCommand_eq_prepare hd)
  · rcases unlessBusy_next h with ⟨_, rfl⟩ | ⟨hb, rfl⟩
    · exact .refuses .busy
    · exact .processes hb _ _
  · rcases unlessBusy_next h with ⟨_, rfl⟩ | ⟨_, rfl⟩
    · exact .refuses .busy
    · exact .refuses .cmd

/-- A transaction that answers a next state has one of these effects. -/
theorem hostEffect_of_next {tr : Transaction} {s t : State} (h : exec (decodeTransaction tr) s = .next t) :
    HostEffect tr s t := by
  rcases decodeTransaction_cases tr with
    ⟨r, hw, ho, hd⟩ | ⟨r, hw, ho, hd⟩ | ⟨i, hi, hw, hd⟩ | ⟨i, hi, hw, hd⟩ | ⟨hi, hd⟩
  all_goals rw [hd] at h
  · cases r
    case cmd => cases h; exact .refusesRead .access 0#64
    case dbgData =>
      simp only [readInstr, exec, execRdDbgData] at h
      split at h
      · cases h; exact .refusesRead .dbg 0#64
      · cases h; exact .answers _
    all_goals
      cases h
      exact .answers _
  · cases r
    case cmd => exact hostEffect_of_cmd hw ho h
    case sampleRate =>
      simp only [writeInstr, exec, execWrSampleRate] at h
      split at h
      · cases h; exact .refuses .access
      · rename_i hr
        cases h
        exact .setsSampleRate (by simpa using hr) _
    case interpMode =>
      simp only [writeInstr, exec, execWrInterpMode] at h
      split at h
      · cases h; exact .setsInterpMode _
      · cases h; exact .refuses .access
    case dbgIndex =>
      simp only [writeInstr, exec, execWrDbgIndex] at h
      split at h
      · cases h; exact .setsDbgIndex _
      · cases h; exact .refuses .access
    all_goals
      cases h
      first
      | exact .refuses .access
      | exact .setsDelaySecs _
      | exact .setsFeedback _
      | exact .setsWetmix _
      | exact .setsAmount _
      | exact .setsRate _
  · simp only [exec, execRdFrame, frameRead, hi, if_true] at h
    split at h
    · rename_i hb
      cases h
      exact .freeRead hb
    · cases h; exact .answers _
  · simp only [exec, execWrFrame, frameWrite, hi, if_true] at h
    split at h
    · cases h; exact .refuses .busy
    · rename_i hb
      cases h
      exact .storesFrame (by simpa using hb) i hi _
  · simp only [illegalInstr, exec, execBusIllegal] at h
    split at h
    · cases h; exact .refuses .access
    · cases h; exact .refusesRead .access 0#64

/-- What an action of the Sequencer can leave behind in a state s (R237 to R247). -/
inductive SeqEffect (s : State) : SeqState → State → Prop
  | idles : SeqEffect s .idle s
  | bypasses (h : s.status.ready = false ∨ s.blkFrames = 0#20) : SeqEffect s .start (blockEnd s)
  | begins (hr : s.status.ready = true) (hf : s.blkFrames ≠ 0#20) : SeqEffect s .start (goto .fdlRead s)
  | reads (hp : fmtIsFinite (readPos (drawn s) s) = true) (w : Word)
      (hw : readHistory (drawn s) s (readPos (drawn s) s) = .ok w) :
      SeqEffect s .fdlRead (drew (goto .downmix { s with wet := w }))
  | readsNothing (hp : fmtIsFinite (readPos (drawn s) s) = false) :
      SeqEffect s .fdlRead (drew (goto .downmix (raise .nonfinite { s with wet := drawn s 9 })))
  | mixesDown (hf : frameInRange s = true) :
      SeqEffect s .downmix (drew (goto .upmix { s with monoIn := downmixValue (drawn s) s }))
  | mixesUp (hf : frameInRange s = true) :
      SeqEffect s .upmix (drew (goto .writeback
        (upmixInto (drawn s) (upmixAddend (drawn s) s) (frameStart s) s.blkCh.toNat s)))
  | writesBack (hr : s.status.ready = true) (hc : s.cursor.toNat < s.capacity.toNat) :
      SeqEffect s .writeback (drew (goto .cursorAdv
        { s with hist := histPut s.hist s.cursor.toNat (writebackValue (drawn s) s) }))
  | advancesCursor (hc : s.capacity ≠ 0#32) :
      SeqEffect s .cursorAdv (goto .oscAdv { s with cursor := cursorNext s })
  | nextFrame (hl : (s.frameIdx + 1#20).toNat < s.blkFrames.toNat) :
      SeqEffect s .oscAdv (goto .fdlRead
        (drew { s with phase := oscNext (drawn s) s, frameIdx := s.frameIdx + 1#20 }))
  | lastFrame (hl : s.blkFrames.toNat ≤ (s.frameIdx + 1#20).toNat) :
      SeqEffect s .oscAdv (blockEnd
        (drew { s with phase := oscNext (drawn s) s, frameIdx := s.frameIdx + 1#20 }))

/-- An action of the Sequencer that answers a next state has its state's effect. -/
theorem seqEffect_of_next {s t : State} {q : SeqState} (h : exec (seqInstr q) s = .next t) : SeqEffect s q t := by
  cases q <;> simp only [seqInstr, exec] at h
  · cases h; exact .idles
  · unfold execSeqStart at h
    split at h
    · rename_i hc
      cases h
      exact .bypasses hc
    · rename_i hc
      cases h
      simp only [not_or, Bool.not_eq_false] at hc
      exact .begins hc.1 hc.2
  · unfold execSeqFdlRead at h
    simp only at h
    split at h
    · rename_i hp
      split at h
      · rename_i hw
        cases h
        exact .reads hp _ hw
      · cases h
    · rename_i hp
      cases h
      exact .readsNothing (by simpa using hp)
  · unfold execSeqDownmix at h
    split at h
    · rename_i hf
      cases h
      exact .mixesDown hf
    · cases h
  · unfold execSeqUpmix at h
    split at h
    · rename_i hf
      cases h
      exact .mixesUp hf
    · cases h
  · unfold execSeqWriteback at h
    split at h
    · rename_i hw
      cases h
      obtain ⟨hr, hc, rfl⟩ := histWrite_ok hw
      exact .writesBack hr hc
    · cases h
  · unfold execSeqCursorAdv at h
    split at h
    · cases h
    · rename_i hc
      cases h
      exact .advancesCursor hc
  · unfold execSeqOscAdv at h
    simp only at h
    split at h
    · rename_i hl
      cases h
      exact .nextFrame hl
    · rename_i hl
      cases h
      exact .lastFrame (Nat.not_lt.mp hl)

end Sys2Proof.Machine
end

