-- ==== Sys2Proof/Tests/Slice0.lean ====
section
/-! SUPPORT. Our own tests: the well-formedness smoke, the decoding of words written out from the spec's
encodings, one-step meanings with expected results from spec/95_test_vectors.md (named by its vector ids)
or by hand from the rule named, and for every statement with hypotheses a state that meets them. -/

namespace Sys2Proof.Tests

open Sys2Proof Sys2Proof.Machine

-- One kernel evaluation at a time: checked in parallel, each would hold a thread waiting for the others.
set_option Elab.async false

/-! ### Helpers -/

/-- A binary64 pattern from its upper 16 bits. -/
def hi (n : Nat) : Word := BitVec.ofNat 64 (n * 2 ^ 48)

/-- What a next state shows; nothing if the step stopped. -/
def look {α : Type} (o : Host.Outcome State Fault Refusal) (f : State → α) : Option α :=
  match o with
  | .next t => some (f t)
  | .fault _ => none
  | .refused _ => none

/-- A full-size transaction from its descriptor {W, OFFSET} and its data. -/
def bus (descriptor : Nat) (data : Word) : Option Instr :=
  (decode .bus ([BitVec.ofNat 8 descriptor, BitVec.ofNat 8 (descriptor / 2 ^ 8),
    BitVec.ofNat 8 (descriptor / 2 ^ 16), BitVec.ofNat 8 (descriptor / 2 ^ 24)]
      ++ wordBytes data ++ [0#8])).toOption

/-- A command word. -/
def cmd (w : Word) : Option Instr := (decode .cmd (wordBytes w)).toOption

/-- A prepared core: SAMPLE_RATE 8.0, CAPACITY 8, the given cursor and history. -/
def ready8 (cursor : BitVec 32) (hist : History) : State :=
  { State.reset with
    sampleRate := hi 0x4020, capacity := 8#32, cursor := cursor, hist := hist
    status := { Status.reset with ready := true } }

/-- A block of ch channels and n frames in progress at frame k, the Sequencer about to act in state q. -/
def inBlock (q : SeqState) (ch : BitVec 8) (n k : BitVec 20) (s : State) : State :=
  { s with
    seqState := q, blkCh := ch, blkFrames := n, frameIdx := k
    status := { s.status with busy := true } }

/-- Frame words from index i on. -/
def withFrame (i : Nat) : List Word → State → State
  | [], s => s
  | v :: vs, s => withFrame (i + 1) vs (frameSet s i v)

/-- The Host's turn with one transaction pending. -/
def hostTurn (t : Transaction) (s : State) : State := { s with turns := [.host], host := [.transaction t] }

/-! ### Well-formedness smoke: each check refuses an ill-formed term -/

theorem test_wellFormed_refuses_frame_index :
    wellFormed (.rdFrame 65536) = false ∧ wellFormed (.wrFrame 65536 0#64) = false ∧
    wellFormed (.rdFrame 65535) = true ∧ wellFormed (.wrFrame 65535 0#64) = true := by decide +kernel

theorem test_wellFormed_refuses_legal_as_illegal :
    wellFormed (.busIllegal false 0x008#24 0#8 0#64) = false ∧
    wellFormed (.busIllegal true 0x1000#24 0#8 5#64) = false ∧
    wellFormed (.busIllegal false 0x004#24 0#8 7#64) = false ∧
    wellFormed (.busIllegal true 0x004#24 0#8 7#64) = true := by decide +kernel

theorem test_wellFormed_refuses_command_as_reserved :
    wellFormed (.cmdReserved 0#64) = false ∧ wellFormed (.cmdReserved 1#64) = false ∧
    wellFormed (.cmdReserved 0x4012#64) = false ∧ wellFormed (.cmdReserved 3#64) = true := by decide +kernel

/-! ### Decoding: words written out from the encoding tables (R64, R91, R93, R100) -/

theorem test_decode_register_reads :
    bus 0x0000000 0#64 = some .rdId ∧ bus 0x0000008 0#64 = some .rdStatus ∧
    bus 0x0000010 0#64 = some .rdCmd ∧ bus 0x0000018 0#64 = some .rdSampleRate ∧
    bus 0x0000020 0#64 = some .rdCapacity ∧ bus 0x0000028 0#64 = some .rdCursor ∧
    bus 0x0000030 0#64 = some .rdPhase ∧ bus 0x0000038 0#64 = some .rdDelaySecs ∧
    bus 0x0000040 0#64 = some .rdFeedback ∧ bus 0x0000048 0#64 = some .rdWetmix ∧
    bus 0x0000050 0#64 = some .rdAmount ∧ bus 0x0000058 0#64 = some .rdRate ∧
    bus 0x0000060 0#64 = some .rdInterpMode ∧ bus 0x0000068 0#64 = some .rdSeq ∧
    bus 0x0000070 0#64 = some .rdDbgIndex ∧ bus 0x0000078 0#64 = some .rdDbgData := by decide +kernel

theorem test_decode_register_writes :
    bus 0x1000000 1#64 = some (.wrId 1#64) ∧ bus 0x1000008 2#64 = some (.wrStatus 2#64) ∧
    bus 0x1000010 0xC022#64 = some (.wrCmd 0xC022#64) ∧
    bus 0x1000018 0x40E7700000000000#64 = some (.wrSampleRate 0x40E7700000000000#64) ∧
    bus 0x1000020 3#64 = some (.wrCapacity 3#64) ∧ bus 0x1000028 5#64 = some (.wrCursor 5#64) ∧
    bus 0x1000030 6#64 = some (.wrPhase 6#64) ∧
    bus 0x1000038 0x3F90624DD2F1A9FC#64 = some (.wrDelaySecs 0x3F90624DD2F1A9FC#64) ∧
    bus 0x1000040 7#64 = some (.wrFeedback 7#64) ∧ bus 0x1000048 8#64 = some (.wrWetmix 8#64) ∧
    bus 0x1000050 9#64 = some (.wrAmount 9#64) ∧ bus 0x1000058 10#64 = some (.wrRate 10#64) ∧
    bus 0x1000060 1#64 = some (.wrInterpMode 1#64) ∧ bus 0x1000068 11#64 = some (.wrSeq 11#64) ∧
    bus 0x1000070 4#64 = some (.wrDbgIndex 4#64) ∧ bus 0x1000078 12#64 = some (.wrDbgData 12#64) := by
  decide +kernel

theorem test_decode_frame_accesses :
    bus 0x0001000 0#64 = some (.rdFrame 0) ∧ bus 0x0002800 0#64 = some (.rdFrame 768) ∧
    bus 0x0080FF8 0#64 = some (.rdFrame 65535) ∧ bus 0x1001008 0x4008000000000000#64 =
      some (.wrFrame 1 0x4008000000000000#64) := by decide +kernel

/-- V-BUS: misaligned, reserved, beyond frame memory, and a 4-byte access (its upper lanes off). -/
theorem test_decode_illegal_accesses :
    bus 0x0000004 0#64 = some (.busIllegal false 0x004#24 0#8 0#64) ∧
    bus 0x0000080 0#64 = some (.busIllegal false 0x080#24 0#8 0#64) ∧
    bus 0x1081000 9#64 = some (.busIllegal true 0x081000#24 0#8 9#64) ∧
    (decode .bus [8#8, 0#8, 0#8, 0#8, 0#8, 0#8, 0#8, 0#8, 0#8, 0#8, 0#8, 0#8, 0xF0#8]).toOption =
      some (.busIllegal false 0x008#24 0xF0#8 0#64) := by decide +kernel

/-- V-CMD, the decoding of each word. -/
theorem test_decode_commands :
    cmd 0x0#64 = some .cmdNop ∧ cmd 0x1#64 = some .cmdPrepare ∧
    cmd 0x2#64 = some (.cmdProcess 0#8 0#20) ∧ cmd 0x4012#64 = some (.cmdProcess 1#8 4#20) ∧
    cmd 0xC022#64 = some (.cmdProcess 2#8 12#20) ∧ cmd 0x101FF2#64 = some (.cmdProcess 255#8 257#20) ∧
    cmd 0x3#64 = some (.cmdReserved 0x3#64) ∧ cmd 0x11#64 = some (.cmdReserved 0x11#64) ∧
    cmd 0x100000000#64 = some (.cmdReserved 0x100000000#64) ∧
    cmd 0x100000002#64 = some (.cmdReserved 0x100000002#64) := by decide +kernel

theorem test_decode_sequencer_states :
    decodeTableWord 8 0 = some .seqIdle ∧ decodeTableWord 8 1 = some .seqStart ∧
    decodeTableWord 8 2 = some .seqFdlRead ∧ decodeTableWord 8 3 = some .seqDownmix ∧
    decodeTableWord 8 4 = some .seqUpmix ∧ decodeTableWord 8 5 = some .seqWriteback ∧
    decodeTableWord 8 6 = some .seqCursorAdv ∧ decodeTableWord 8 7 = some .seqOscAdv := by decide +kernel

theorem test_decode_refuses_by_name :
    (match decode .seq [8#8] with | .error e => some e | .ok _ => none) = some .stateBits ∧
    (match decode .cmd [0#8] with | .error e => some e | .ok _ => none) = some .wrongLength ∧
    bus 0x2000008 0#64 = none := by decide +kernel

theorem test_fetch_word_runs_first :
    look (step (State.reset.withFetchWord 32 0x0000000)) (fun t => t.readData) = some 0x3145524F434C4446#64 ∧
    look (step (State.reset.withFetchWord 64 0x3)) (fun t => statusWord t.status) = some 0x100#64 ∧
    look (step (State.reset.withFetchWord 8 6)) (fun t => t.seqState) = some .oscAdv := by decide +kernel

/-! ### FMT: values from the vectors -/

/-- V-LERP and V-FDL-PARTS: 0.016 × 48000.0 = 768.0; LERP(1, 2, 0.375) = 1.375; LERP(1e308, −1e308, 0.5) = −∞. -/
theorem test_fmt_vectors :
    fmtMul 0#64 0x3F90624DD2F1A9FC#64 0x40E7700000000000#64 = hi 0x4088 ∧
    lerp (fun _ => 0#64) (hi 0x3FF0) (hi 0x4000) (hi 0x3FD8) = hi 0x3FF6 ∧
    lerp (fun _ => 0#64) 0x7FE1CCF385EBC8A0#64 0xFFE1CCF385EBC8A0#64 (hi 0x3FE0) = hi 0xFFF0 := by
  decide +kernel

/-- V-OSCADV: 40.0 / 48000.0 = 0x3F4B4E81B4E81B4F, and −2.0 / 8.0 = −0.25. -/
theorem test_fmt_division :
    fmtDiv 0#64 (hi 0x4044) 0x40E7700000000000#64 = 0x3F4B4E81B4E81B4F#64 ∧
    fmtDiv 0#64 (hi 0xC000) (hi 0x4020) = hi 0xBFD0 := by decide +kernel

/-- V-FLOOR: −1.25 → −2, −1; −0.5 → −1, −0.0; 7.5 → 7, 8. -/
theorem test_fmt_floor_ceil :
    (fmtFloor (hi 0xBFF4), fmtCeil (hi 0xBFF4)) = (hi 0xC000, hi 0xBFF0) ∧
    (fmtFloor (hi 0xBFE0), fmtCeil (hi 0xBFE0)) = (hi 0xBFF0, hi 0x8000) ∧
    (fmtFloor (hi 0x401E), fmtCeil (hi 0x401E)) = (hi 0x401C, hi 0x4020) := by decide +kernel

/-- V-WRAP, and its fractional case −0.5 mod 8 = 7.5. -/
theorem test_wrap :
    [wrap (-1) 8, wrap 8 8, wrap 17 8, wrap (-9) 8, wrap (-16) 8, wrap (-1) 1, wrap (-768) 48000] =
      [7, 0, 1, 7, 0, 0, 47232] ∧
    2 * wrapUnits (fmtUnits (hi 0xBFE0)) 8 = 15 * (oneUnits : Int) := by decide +kernel

/-- V-CUBIC: (0, 0, 0, 1, 0.5) → −0.0625, (1, 4, 9, 16, 0.5) → 6.25, (0, 0, 1, 0, 0.25) → 0.2265625. -/
theorem test_cubic_kernel :
    cubicKernel (fun _ => 0#64) 0#64 0#64 0#64 (hi 0x3FF0) (hi 0x3FE0) = hi 0xBFB0 ∧
    cubicKernel (fun _ => 0#64) (hi 0x3FF0) (hi 0x4010) (hi 0x4022) (hi 0x4030) (hi 0x3FE0) = hi 0x4019 ∧
    cubicKernel (fun _ => 0#64) 0#64 0#64 (hi 0x3FF0) 0#64 (hi 0x3FD0) = hi 0x3FCD := by decide +kernel

/-! ### Register and frame accesses -/

/-- V-SEQ-1: the SEQ word of P2's finished block; R303's cursor; V-PREP's STATUS. -/
theorem test_reads :
    look (exec .rdSeq { State.reset with blkCh := 2#8, blkFrames := 12#20, frameIdx := 12#20 })
      (fun t => t.readData) = some 0xC0000C0200#64 ∧
    look (exec .rdStatus (ready8 0#32 [])) (fun t => t.readData) = some 0x1#64 ∧
    look (exec .rdCursor (ready8 4#32 [])) (fun t => t.readData) = some 4#64 ∧
    look (exec .rdCapacity (ready8 4#32 [])) (fun t => t.readData) = some 8#64 ∧
    look (exec .rdCmd (ready8 0#32 [])) (fun t => (t.readData, statusWord t.status)) =
      some (0#64, 0x4001#64) := by decide +kernel

/-- V-BUS: DBG 3, DBG 8 with CAPACITY 8, and DBG 0 before PREPARE. -/
theorem test_debug_port :
    look (exec .rdDbgData { ready8 0#32 [(3, hi 0x3FE0)] with dbgIndex := 3#32 }) (fun t => t.readData) =
      some (hi 0x3FE0) ∧
    look (exec .rdDbgData { ready8 0#32 [] with dbgIndex := 8#32 })
      (fun t => (t.readData, statusWord t.status)) = some (0#64, 0x8001#64) ∧
    look (exec .rdDbgData State.reset) (fun t => statusWord t.status) = some 0x8000#64 := by decide +kernel

/-- V-BUS: WR SAMPLE_RATE 16.0 once READY, INTERP_MODE 2 and 1, DBG_INDEX 1 << 32, CURSOR 5. -/
theorem test_writes :
    look (exec (.wrSampleRate (hi 0x4030)) (ready8 0#32 []))
      (fun t => (t.sampleRate, statusWord t.status)) = some (hi 0x4020, 0x4001#64) ∧
    look (exec (.wrInterpMode 2#64) State.reset) (fun t => (t.interpMode, statusWord t.status)) =
      some (.linear, 0x4000#64) ∧
    look (exec (.wrInterpMode 1#64) State.reset) (fun t => (t.interpMode, statusWord t.status)) =
      some (.cubic, 0#64) ∧
    look (exec (.wrDbgIndex 0x100000000#64) State.reset) (fun t => statusWord t.status) = some 0x4000#64 ∧
    look (exec (.wrCursor 5#64) (ready8 1#32 [])) (fun t => (t.cursor, statusWord t.status)) =
      some (1#32, 0x4001#64) := by decide +kernel

/-- V-BUS: WRF and RDF with BUSY = 0 and 1. -/
theorem test_frame_port :
    look (exec (.wrFrame 1 (hi 0x4008)) State.reset) (fun t => (frameWord t 1, frameByte t 0x100F)) =
      some (hi 0x4008, 0x40#8) ∧
    look (exec (.rdFrame 1) (withFrame 1 [hi 0x4008] State.reset)) (fun t => t.readData) = some (hi 0x4008) ∧
    look (exec (.wrFrame 0 (hi 0x4022)) (inBlock .start 1#8 4#20 0#20 (ready8 0#32 [])))
      (fun t => (t.frame, statusWord t.status)) = some ([], 0x203#64) ∧
    look (exec (.rdFrame 0) (inBlock .start 1#8 4#20 0#20 (ready8 0#32 []))) (fun t => statusWord t.status) =
      some 0x203#64 := by decide +kernel

theorem test_illegal_access :
    look (exec (.busIllegal false 0x004#24 0#8 0#64) { State.reset with readData := 7#64 })
      (fun t => (t.readData, statusWord t.status)) = some (0#64, 0x4000#64) := by decide +kernel

/-! ### Commands (V-CMD, V-PREP) -/

/-- V-CMD: the STATUS each word leaves after reset. -/
theorem test_commands :
    [0x0, 0x3, 0xF, 0x11, 0x100000000, 0x100000002, 0x2, 0x4002, 0x4012, 0x8000022, 0x8001022, 0x101FF2,
      0x10001012].map
      (fun w => look (exec (.wrCmd (BitVec.ofNat 64 w)) State.reset) fun t => statusWord t.status) =
    [some 0#64, some 0x100#64, some 0x100#64, some 0x100#64, some 0x100#64, some 0x100#64, some 0x800#64,
      some 0x800#64, some 2#64, some 2#64, some 0x1000#64, some 2#64, some 0x1000#64] := by decide +kernel

/-- V-PREP: the capacity, or 0 where PREPARE is refused. -/
theorem test_prepare :
    [0x40E7700000000000#64, 0x40E5889666666666#64, hi 0x3FF0, 0x411000039999999A#64, 0x3FECCCCCCCCCCCCD#64,
      0#64, 0xC0E7700000000000#64, hi 0x7FF0, hi 0x7FF8, 0x4110000400000000#64].map
      (fun sr => look (exec .cmdPrepare { State.reset with sampleRate := sr })
        fun t => (t.capacity.toNat, statusWord t.status)) =
    [some (48000, 1#64), some (44100, 1#64), some (1, 1#64), some (262144, 1#64), some (0, 0x400#64),
      some (0, 0x400#64), some (0, 0x400#64), some (0, 0x400#64), some (0, 0x400#64), some (0, 0x400#64)] := by
  decide +kernel

/-- V-SEQ-1: between accepting P5's PROCESS 1, 4 and its START step. -/
theorem test_process_accepts :
    look (exec (.cmdProcess 1#8 4#20) State.reset) (fun t => seqWord t) = some 0x40101#64 := by decide +kernel

theorem test_nop_and_reserved :
    look (exec .cmdNop (ready8 3#32 [])) (fun t => t == ready8 3#32 []) = some true ∧
    look (exec (.cmdReserved 3#64) (inBlock .start 1#8 1#20 0#20 State.reset)) (fun t => statusWord t.status) =
      some 0x202#64 := by decide +kernel

/-! ### Sequencer states -/

/-- R237; the guard of R238 for a block before PREPARE, and for a ready one. -/
theorem test_idle_and_start :
    look (exec .seqIdle (ready8 0#32 [])) (fun t => t == ready8 0#32 []) = some true ∧
    look (exec .seqStart (inBlock .start 1#8 4#20 0#20 State.reset)) (fun t => (seqWord t, t.status.busy)) =
      some (0x40100#64, false) ∧
    look (exec .seqStart (inBlock .start 1#8 4#20 0#20 (ready8 0#32 []))) (fun t => t.seqState) =
      some .fdlRead := by decide +kernel

/-- P2, tick 6: cursor 6, tap 4 holds 0.5, so WET is 0.5. -/
theorem test_fdl_read_linear :
    look (exec .seqFdlRead
      { inBlock .fdlRead 2#8 12#20 6#20 (ready8 6#32 [(4, hi 0x3FE0)]) with delaySecs := hi 0x3FD0 })
      (fun t => (t.wet, t.seqState)) = some (hi 0x3FE0, .downmix) := by decide +kernel

/-- Read position −0.5 (cursor 0, delay 0.5 samples): taps 6, 7, 0, 1 hold 1, 4, 9, 16, cubic gives 6.25. -/
theorem test_fdl_read_cubic :
    look (exec .seqFdlRead
      { inBlock .fdlRead 1#8 1#20 0#20
          (ready8 0#32 [(0, hi 0x4022), (1, hi 0x4030), (6, hi 0x3FF0), (7, hi 0x4010)]) with
        delaySecs := hi 0x3FB0, interpMode := .cubic })
      (fun t => t.wet) = some (hi 0x4019) := by decide +kernel

/-- R166 by hand: DELAY_SECS = +∞ and AMOUNT = −1.0 put the read position at −∞. -/
theorem test_fdl_read_nonfinite :
    look (exec .seqFdlRead
      { inBlock .fdlRead 1#8 2#20 0#20 (ready8 0#32 []) with
        delaySecs := hi 0x7FF0, amount := hi 0xBFF0 })
      (fun t => (statusWord t.status, t.seqState)) = some (0x2003#64, .downmix) := by decide +kernel

/-- V-DOWN: [1.0, 2.0, 4.0] and [−0.0]. -/
theorem test_downmix :
    look (exec .seqDownmix (withFrame 3 [hi 0x3FF0, hi 0x4000, hi 0x4010]
      (inBlock .downmix 3#8 2#20 1#20 (ready8 0#32 [])))) (fun t => t.monoIn) = some 0x4002AAAAAAAAAAAB#64 ∧
    look (exec .seqDownmix (withFrame 0 [hi 0x8000] (inBlock .downmix 1#8 1#20 0#20 (ready8 0#32 []))))
      (fun t => t.monoIn) = some 0#64 := by decide +kernel

/-- V-UP: frame [1.0, 3.0], WET 0.5, WETMIX 0.5. -/
theorem test_upmix :
    look (exec .seqUpmix (withFrame 0 [hi 0x3FF0, hi 0x4008, hi 0x4010]
      { inBlock .upmix 2#8 1#20 0#20 (ready8 0#32 []) with wet := hi 0x3FE0, wetmix := hi 0x3FE0 }))
      (fun t => (frameWord t 0, frameWord t 1, frameWord t 2)) =
      some (hi 0x3FF4, hi 0x400A, hi 0x4010) := by decide +kernel

/-- V-WB: MONO_IN 2.0, WET 0.5, FEEDBACK 0.5, CURSOR 3 → H[3] = 2.25. -/
theorem test_writeback :
    look (exec .seqWriteback
      { inBlock .writeback 1#8 1#20 0#20 (ready8 3#32 [(2, hi 0x3FF0)]) with
        monoIn := hi 0x4000, wet := hi 0x3FE0, feedback := hi 0x3FE0 })
      (fun t => t.hist) = some [(2, hi 0x3FF0), (3, hi 0x4002)] := by decide +kernel

/-- V-CUR: CAPACITY 8, 7 → 0 and 6 → 7. -/
theorem test_cursor_adv :
    look (exec .seqCursorAdv (inBlock .cursorAdv 1#8 1#20 0#20 (ready8 7#32 []))) (fun t => t.cursor) =
      some 0#32 ∧
    look (exec .seqCursorAdv (inBlock .cursorAdv 1#8 1#20 0#20 (ready8 6#32 []))) (fun t => t.cursor) =
      some 7#32 := by decide +kernel

/-- V-OSCADV: phase 0, RATE 2.0, SAMPLE_RATE 8.0 → 0.25; the last frame ends the block. -/
theorem test_osc_adv :
    look (exec .seqOscAdv { inBlock .oscAdv 1#8 2#20 0#20 (ready8 0#32 []) with rate := hi 0x4000 })
      (fun t => (t.phase, t.seqState, t.frameIdx)) = some (hi 0x3FD0, .fdlRead, 1#20) ∧
    look (exec .seqOscAdv (inBlock .oscAdv 1#8 2#20 1#20 (ready8 0#32 [])))
      (fun t => (t.seqState, t.status.busy, t.frameIdx)) = some (.idle, false, 2#20) := by decide +kernel

/-! ### Host programs (R101, R102) -/

/-- P1's and P2's encodings: 0.016, 48000.0, CMD PROCESS 2, 12, LOADF and DBG. -/
theorem test_assemble :
    hostValueWord (.decimal false 16 (-3)) = 0x3F90624DD2F1A9FC#64 ∧
    hostValueWord (.decimal false 480000 (-1)) = 0x40E7700000000000#64 ∧
    assemble (.cmdProcess 2 12) = [writeItem 0x010 0xC022#64] ∧
    assemble (.loadf 0 [.pattern 1#64, .pattern 2#64]) = [writeItem 0x1000 1#64, writeItem 0x1008 2#64] ∧
    assemble (.dbg 4) = [writeItem 0x070 4#64, readItem 0x078] := by decide +kernel

/-! ### Witnesses: for each statement with hypotheses, states and operands that meet them -/

theorem test_witness_DecodeOfEncode :
    wellFormed (.rdFrame 0) = true ∧ wellFormed (.wrFrame 65535 1#64) = true ∧
    wellFormed (.busIllegal true 0xFFFFFF#24 0#8 1#64) = true ∧
    wellFormed (.busIllegal false 0x008#24 0xF0#8 0#64) = true ∧
    wellFormed (.cmdProcess 255#8 0xFFFFF#20) = true ∧ wellFormed (.cmdReserved 0x100000002#64) = true := by
  decide +kernel

theorem test_witness_DecodedInstructionsAreWellFormed :
    bus 0x0080FF8 0#64 = some (.rdFrame 65535) ∧ bus 0x0081000 0#64 = some (.busIllegal false 0x081000#24 0#8 0#64) ∧
    decodeTableWord 8 7 = some .seqOscAdv := by decide +kernel

/-- Each clause at a boundary: the four patterns' words and the words beside them. -/
theorem test_witness_CommandWords :
    decodeCommand 0#64 = .nop ∧ decodeCommand 1#64 = .prepare ∧
    decodeCommand 0xFFFFFFF2#64 = .process 255#8 0xFFFFF#20 ∧
    (0x100000002#64 ≠ 0#64 ∧ 0x100000002#64 ≠ 1#64 ∧ 0x100000002#64 &&& 0xFFFFFFFF0000000F#64 ≠ 2#64) ∧
    decodeCommand 0x100000002#64 = .reserved 0x100000002#64 := by decide +kernel

theorem test_witness_CommandDecodeIsInjective :
    decodeCommand 0x11#64 = decodeCommand 0x11#64 ∧ decodeCommand 0x11#64 ≠ decodeCommand 0x12#64 := by
  decide +kernel

/-- A Host turn, a Host step with no turns listed, a Sequencer turn in IDLE, a Sequencer step with none
listed. -/
theorem test_witness_StepRuns :
    ((hostTurn (readAt 0x008#24 0#64) State.reset).host = .transaction (readAt 0x008#24 0#64) :: [] ∧
      (hostTurn (readAt 0x008#24 0#64) State.reset).turns = .host :: [] ∧
      (decode .bus (transactionBytes (readAt 0x008#24 0#64))).toOption = some .rdStatus) ∧
    (State.reset.turns = [] ∧ State.reset.seqState = .idle) ∧
    (decode .seq [(seqCode .idle).setWidth 8]).toOption = some .seqIdle ∧
    ((inBlock .oscAdv 1#8 1#20 0#20 (ready8 0#32 [])).turns = [] ∧
      (inBlock .oscAdv 1#8 1#20 0#20 (ready8 0#32 [])).seqState ≠ .idle) := by decide +kernel

/-- WAIT goes on while BUSY and ends after it. -/
theorem test_witness_Wait :
    look (step { inBlock .start 1#8 1#20 0#20 State.reset with turns := [.host], host := [.wait] })
      (fun t => t.host) = some [.wait] ∧
    look (step { State.reset with turns := [.host], host := [.wait] }) (fun t => t.host) = some [] := by
  decide +kernel

theorem test_witness_ProgramLines :
    assemble (.rdf 65535) = [readItem 0x80FF8] ∧ assemble (.wrf 0 (.integer 1)) = [writeItem 0x1000 1#64] ∧
    assemble (.cmdProcess 255 1048575) = [writeItem 0x010 0xFFFFFFF2#64] := by decide +kernel

theorem test_witness_ResetAbandons :
    look (step { inBlock .upmix 2#8 3#20 1#20 (ready8 5#32 [(0, 1#64)]) with turns := [.reset] })
      (fun t => (t.seqState, t.cursor, t.hist, statusWord t.status)) = some (.idle, 0#32, [], 0#64) := by
  decide +kernel

/-- The invariant holds in a block, and a step goes on from there. -/
theorem test_witness_Inv_in_block :
    Inv (inBlock .upmix 2#8 3#20 2#20 (ready8 7#32 [(0, 1#64), (7, 2#64)])) := by
  refine ⟨⟨?_, ?_, ?_⟩, ⟨?_, ?_⟩, ?_, ?_, ?_, ?_⟩ <;> decide +kernel

theorem test_witness_Inv_step :
    (look (step (inBlock .upmix 2#8 3#20 2#20 (ready8 7#32 [(0, 1#64), (7, 2#64)]))) fun t => t.seqState) =
      some .writeback := by decide +kernel

/-- The invariant holds at START before PREPARE. -/
theorem test_witness_Inv_bypass : Inv (inBlock .start 255#8 257#20 0#20 State.reset) := by
  refine ⟨⟨?_, ?_, ?_⟩, ⟨?_, ?_⟩, ?_, ?_, ?_, ?_⟩ <;> decide +kernel

/-- Not READY, BUSY, an index at the capacity, and the last index below it. -/
theorem test_witness_DebugPort :
    State.reset.status.ready = false ∧ (inBlock .start 1#8 1#20 0#20 (ready8 0#32 [])).status.busy = true ∧
    (8 ≤ (8#32).toNat ∧ (ready8 0#32 []).capacity.toNat = 8) ∧
    look (exec .rdDbgData { ready8 0#32 [(7, 5#64)] with dbgIndex := 7#32 }) (fun t => t.readData) =
      some 5#64 := by decide +kernel

theorem test_witness_FrameAccess :
    (inBlock .start 1#8 1#20 0#20 (ready8 0#32 [])).status.busy = true ∧ State.reset.status.busy = false ∧
    look (exec (.wrFrame 65535 7#64) State.reset) (fun t => (frameWord t 65535, frameByte t 0x80FF8)) =
      some (7#64, 7#8) := by decide +kernel

/-- Each case of the three conditional writes at the edge of its range. -/
theorem test_witness_ConditionalWrites :
    State.reset.status.ready = false ∧ (ready8 0#32 []).status.ready = true ∧
    ((4#64).extractLsb' 2 62 ≠ 0#62 ∧ (2#64).extractLsb' 0 2 = 2#2 ∧ (3#64).extractLsb' 0 2 = 3#2) ∧
    ((0#64).extractLsb' 2 62 = 0#62 ∧ (0#64).extractLsb' 0 2 = 0#2 ∧ (1#64).extractLsb' 2 62 = 0#62 ∧
      (1#64).extractLsb' 0 2 = 1#2) ∧
    (2 ^ 32 ≤ (0x100000000#64).toNat ∧ (0xFFFFFFFF#64).toNat < 2 ^ 32) := by decide +kernel

/-- Each reason a transaction is refused, at the edge of its range. -/
theorem test_witness_IllegalAccesses :
    [(0x008#24, 0x80#8), (0x001#24, 0#8), (0x080#24, 0#8), (0xFF8#24, 0#8), (0x081000#24, 0#8),
        (0xFFFFF8#24, 0#8)].map (fun c => illegalAccess c.1 c.2) = List.replicate 6 true ∧
    illegalAccess 0x078#24 0#8 = false ∧ illegalAccess 0x1000#24 0#8 = false ∧
    illegalAccess 0x080FF8#24 0#8 = false := by decide +kernel

theorem test_witness_Commands :
    (inBlock .start 1#8 1#20 0#20 State.reset).status.busy = true ∧ State.reset.status.busy = false ∧
    wellFormedCommand 0x3#64 = false := by decide +kernel

/-- The least and the greatest rate PREPARE accepts: 1.0 and 262144.9. -/
theorem test_witness_PrepareAllocates :
    [hi 0x3FF0, 0x411000039999999A#64].map (fun sr => (fmtIsFinite sr, fmtFloorInt sr)) =
      [(true, 1), (true, 262144)] ∧ State.reset.status.busy = false ∧ State.reset.status.ready = false := by
  decide +kernel

/-- Each refusal: READY, +∞, 0.9, 262145.0. -/
theorem test_witness_PrepareRefuses :
    (ready8 0#32 []).status.ready = true ∧ fmtIsFinite (hi 0x7FF0) = false ∧
    fmtFloorInt 0x3FECCCCCCCCCCCCD#64 = 0 ∧ fmtFloorInt 0x4110000400000000#64 = 262145 := by decide +kernel

/-- Refused for its channels, refused for its size, accepted at the size limit. -/
theorem test_witness_Process :
    [(0#8, 4#20), (2#8, 32769#20), (2#8, 32768#20)].map
      (fun c => look (exec (.cmdProcess c.1 c.2) State.reset) fun t => statusWord t.status) =
      [some 0x800#64, some 0x1000#64, some 2#64] := by decide +kernel

theorem test_witness_Start :
    ((ready8 0#32 []).status.ready = true ∧ (inBlock .start 1#8 1#20 0#20 (ready8 0#32 [])).blkFrames ≠ 0#20) ∧
    State.reset.status.ready = false ∧ (inBlock .start 1#8 0#20 0#20 (ready8 0#32 [])).blkFrames = 0#20 := by
  decide +kernel

theorem test_witness_NonfiniteRead :
    fmtIsFinite (readPos (fun _ => 0#64) { ready8 0#32 [] with delaySecs := hi 0x7FF0, amount := hi 0xBFF0 }) =
      false := by decide +kernel

/-- A ready core with a finite read position, in either mode. -/
theorem test_witness_InterpolatedRead :
    (ready8 1#32 []).status.ready = true ∧ (ready8 1#32 []).capacity ≠ 0#32 ∧
    (ready8 1#32 []).interpMode = .linear ∧ ({ ready8 1#32 [] with interpMode := .cubic } : State).interpMode = .cubic ∧
    fmtIsFinite (readPos (drawn (ready8 1#32 [])) (ready8 1#32 [])) = true := by decide +kernel

/-- The last frame that fits, and the first. -/
theorem test_witness_Mixer :
    (inBlock .downmix 255#8 257#20 256#20 (ready8 0#32 [])).frameIdx.toNat * 255 + 255 ≤ 65536 ∧
    (inBlock .upmix 1#8 1#20 0#20 (ready8 0#32 [])).frameIdx.toNat * 1 + 1 ≤ 65536 := by decide +kernel

theorem test_witness_CursorInRange :
    (ready8 7#32 []).status.ready = true ∧ (ready8 7#32 []).cursor.toNat < (ready8 7#32 []).capacity.toNat := by
  decide +kernel

/-- A frame inside the block, and the last one of the longest. -/
theorem test_witness_OscAdvance :
    (0#20).toNat < (2#20).toNat ∧
    look (exec .seqOscAdv (inBlock .oscAdv 1#8 0xFFFFF#20 0xFFFFE#20 (ready8 0#32 []))) (fun t => t.frameIdx) =
      some 0xFFFFF#20 := by decide +kernel

/-- A step that is not a reset: from reset, at a Host turn, and while READY. -/
theorem test_witness_WholeMachine :
    (hostTurn (writeAt 0x028#24 5#64) (ready8 0#32 [])).turns.head? ≠ some .reset ∧
    (look (step (hostTurn (writeAt 0x028#24 5#64) (ready8 0#32 []))) fun t => statusWord t.status) =
      some 0x4001#64 ∧
    (ready8 0#32 []).status.ready = true ∧
    statusError .nonfinite (raise .nonfinite (ready8 0#32 [])).status = true := by decide +kernel

/-- PREPARE goes through before READY, and while BUSY an access still answers. -/
theorem test_witness_HostWrites :
    (look (exec (decodeTransaction (writeAt 0x010#24 1#64)) { State.reset with sampleRate := hi 0x4020 })
      fun t => t.capacity) = some 8#32 ∧
    (look (exec (decodeTransaction (writeAt 0x1000#24 1#64)) (inBlock .upmix 1#8 1#20 0#20 (ready8 0#32 [])))
      fun t => t.status.busy) = some true := by decide +kernel

theorem test_witness_SequencerWrites :
    [SeqState.idle, .start, .downmix, .upmix, .writeback, .cursorAdv, .oscAdv].map
      (fun q => look (exec (seqInstr q) (inBlock q 1#8 1#20 0#20 (ready8 0#32 []))) fun t => t.seqState) =
    [some .idle, some .fdlRead, some .upmix, some .writeback, some .cursorAdv, some .oscAdv, some .idle] := by
  decide +kernel

/-- A block at START with no turns listed: ready with frames, and ready with none. -/
theorem test_witness_Block :
    Inv (inBlock .start 2#8 3#20 0#20 (ready8 7#32 [])) ∧
      (inBlock .start 2#8 3#20 0#20 (ready8 7#32 [])).turns = [] := by
  refine ⟨⟨⟨?_, ?_, ?_⟩, ⟨?_, ?_⟩, ?_, ?_, ?_, ?_⟩, rfl⟩ <;> decide +kernel

theorem test_witness_Block_empty : Inv (inBlock .start 2#8 0#20 0#20 (ready8 7#32 [])) := by
  refine ⟨⟨?_, ?_, ?_⟩, ⟨?_, ?_⟩, ?_, ?_, ?_, ?_⟩ <;> decide +kernel

/-- Decimal values, a list of words that ends with the frame memory, the greatest integer. -/
theorem test_witness_ProgramValues :
    hostValueWord (.decimal true 1 (-3)) = 0xBF50624DD2F1A9FC#64 ∧
    hostValueWord (.decimal false 1 400) = hi 0x7FF0 ∧
    (65534 + ([.pattern 1#64, .pattern 2#64] : List HostValue).length ≤ 65536 ∧
      (assemble (.loadf 65534 [.pattern 1#64, .pattern 2#64]))[1]? = some (writeItem 0x80FF8 2#64)) ∧
    hostValueWord (.integer (2 ^ 64 - 1)) = 0xFFFFFFFFFFFFFFFF#64 := by decide +kernel

/-- R18 by hand: 1.0 / −0.0 = −∞, 2^1023 · 2 overflows to +∞, ∞ + 1.0 = ∞, 1.0 / −∞ = −0.0. -/
theorem test_fmt_special_operands :
    fmtDiv 0#64 (hi 0x3FF0) (hi 0x8000) = hi 0xFFF0 ∧ fmtMul 0#64 (hi 0x7FE0) (hi 0x4000) = hi 0x7FF0 ∧
    fmtAdd 0#64 (hi 0x7FF0) (hi 0x3FF0) = hi 0x7FF0 ∧ fmtDiv 0#64 (hi 0x3FF0) (hi 0xFFF0) = hi 0x8000 ∧
    (fmtIsInf (hi 0x7FF0), fmtIsInf (hi 0xFFF0), fmtIsNaN (hi 0x7FF8)) = (true, true, true) := by decide +kernel

/-- A zero, a negative-zero and a NaN phase. -/
theorem test_witness_ZeroRatePhases :
    fmtIsNaN 0#64 = false ∧ 0#64 ≠ hi 0x8000 ∧ fmtIsNaN (hi 0x7FF8) = true ∧
    look (exec .seqOscAdv { inBlock .oscAdv 1#8 2#20 0#20 (ready8 0#32 []) with phase := hi 0x8000 })
      (fun t => t.phase) = some 0#64 := by decide +kernel

/-- Finite operands at the edges of the format: 1.0, the least and the greatest magnitude, both zeros. -/
theorem test_witness_Fmt :
    [hi 0x3FF0, 1#64, 0x7FEFFFFFFFFFFFFF#64, 0#64, hi 0x8000].map fmtIsFinite = List.replicate 5 true ∧
    fmtMag 1#64 ≠ 0 ∧ fmtIsFinite (hi 0x7FF0) = false ∧
    fmtIsFinite (fmtMul 0#64 Config.twoPi (hi 0x3FE0)) = true ∧ (1 ≤ 1 ∧ wrap (-1) 1 = 0) := by decide +kernel

theorem test_witness_ZeroAmount :
    (ready8 3#32 []).amount = 0#64 ∧
    fmtIsFinite (fmtMul 0#64 (oscValue (fun _ => 0#64) 0#64)
      (fmtMul 0#64 (hi 0x3FD0) (ready8 3#32 []).sampleRate)) = true := by decide +kernel

/-- The channels 1.0 and +0.0 of a frame, a finite wet value, a positive rate of samples. -/
theorem test_witness_Bypass :
    let s := withFrame 0 [hi 0x3FF0, 0#64] { inBlock .upmix 2#8 1#20 0#20 (ready8 0#32 []) with wet := hi 0xC000 }
    (s.wetmix = 0#64 ∧ fmtIsFinite s.wet = true ∧ frameInRange s = true ∧
      ∀ c < s.blkCh.toNat, frameWord s (s.frameIdx.toNat * s.blkCh.toNat + c) ≠ hi 0x8000 ∧
        fmtIsNaN (frameWord s (s.frameIdx.toNat * s.blkCh.toNat + c)) = false) ∧
    (s.rate = 0#64 ∧ fmtIsFinite s.sampleRate = true ∧ fmtMag s.sampleRate ≠ 0 ∧ fmtSign s.sampleRate = false ∧
      fmtIsNaN s.phase = false ∧ s.phase ≠ hi 0x8000) := by decide +kernel

end Sys2Proof.Tests
end

section
/-! The step and the FMT operations of the scope chapter (00_scope.md): what a turn fetches, the integer around a
value, and addition, multiplication and division on every class of operands (R11, R12, R14, R18). -/

namespace Sys2Proof.Machine

/-! ### What each turn fetches (R14, R70) -/

theorem fetch_of_host_turn {s : State} {ts : List Turn} (h : s.turns = .host :: ts) :
    fetch s = fetchHost { s with turns := ts } := by
  unfold fetch
  rw [h]

theorem fetch_of_sequencer_turn {s : State} {ts : List Turn} (h : s.turns = .sequencer :: ts) :
    fetch s = .run (seqInstr s.seqState) { s with turns := ts } := by
  unfold fetch
  rw [h]
  exact fetchSequencer_eq _

theorem fetch_of_no_turns_idle {s : State} (h : s.turns = []) (hq : s.seqState = .idle) :
    fetch s = fetchHost s := by
  unfold fetch
  rw [h]
  exact if_pos hq

theorem fetch_of_no_turns_running {s : State} (h : s.turns = []) (hq : s.seqState ≠ .idle) :
    fetch s = .run (seqInstr s.seqState) s := by
  unfold fetch
  rw [h]
  exact (if_neg hq).trans (fetchSequencer_eq s)

/-- The Host takes the transaction at the head of its program off the list and runs it. -/
theorem fetchHost_transaction {s : State} {tr : Transaction} {rest : List HostItem}
    (h : s.host = .transaction tr :: rest) :
    fetchHost s = .run (decodeTransaction tr) { s with host := rest } := by
  unfold fetchHost
  rw [h]
  rfl

/-! ### The classes of FMT values (R12, R18) -/

theorem fmtIsInf_iff {x : Word} : fmtIsInf x = true ↔ fmtMag x = infMag := decide_eq_true_iff

theorem fmtMag_ne_zero_of_inf {x : Word} (h : fmtIsInf x = true) : fmtMag x ≠ 0 := by
  rw [fmtIsInf_iff.mp h]
  decide

theorem fmtIsFinite_of_mag_zero {x : Word} (h : fmtMag x = 0) : fmtIsFinite x = true := by
  rw [fmtIsFinite_iff, h]
  decide

theorem fmtIsInf_pack_inf (neg : Bool) : fmtIsInf (fmtPack neg infMag) = true :=
  fmtIsInf_iff.mpr (fmtMag_pack neg infMag_lt)

/-- What an operation that overflows by its operands alone answers: an infinity of the given sign. -/
theorem inf_and_sign_of_eq_pack {w : Word} {neg : Bool} (h : w = fmtPack neg infMag) :
    fmtIsInf w = true ∧ fmtSign w = neg := by
  rw [h]
  exact ⟨fmtIsInf_pack_inf neg, fmtSign_pack neg infMag_lt⟩

theorem fmtIsNaN_of_eq_fmtNaN {w d : Word} (h : w = fmtNaN d) : fmtIsNaN w = true := by
  rw [h]
  exact fmtIsNaN_fmtNaN d

/-! ### Floor and ceiling (R12) -/

/-- Floor keeps the sign bit, of a zero too. -/
theorem fmtSign_floor (x : Word) : fmtSign (fmtFloor x) = fmtSign x := by
  unfold fmtFloor
  split
  · exact fmtSign_pack _ (roundUnits_lt _ _)
  · rfl

theorem fmtSign_ceil {x : Word} (hx : fmtIsFinite x = true) : fmtSign (fmtCeil x) = fmtSign x := by
  rw [fmtCeil_eq hx, fmtSign_neg, fmtSign_floor, fmtSign_neg, Bool.not_not]

/-- The integer below a value: at most the value, and by less than one. -/
theorem fmtFloorInt_bracket (x : Word) :
    fmtFloorInt x * (oneUnits : Int) ≤ fmtUnits x ∧ fmtUnits x < (fmtFloorInt x + 1) * (oneUnits : Int) := by
  have hpos : (0 : Int) < (oneUnits : Int) := by exact_mod_cast oneUnits_pos
  exact ⟨Int.ediv_mul_le _ hpos.ne', Int.lt_ediv_add_one_mul_self _ hpos⟩

theorem fmtCeilInt_eq_neg_floorInt (x : Word) : fmtCeilInt x = -fmtFloorInt (fmtNeg x) := by
  unfold fmtCeilInt fmtFloorInt
  rw [fmtUnits_neg]

/-- The integer above a value: the bracket of the floor of its negation, turned round. -/
theorem fmtCeilInt_bracket (x : Word) :
    fmtUnits x ≤ fmtCeilInt x * (oneUnits : Int) ∧ (fmtCeilInt x - 1) * (oneUnits : Int) < fmtUnits x := by
  obtain ⟨hle, hlt⟩ := fmtFloorInt_bracket (fmtNeg x)
  rw [fmtUnits_neg] at hle hlt
  rw [fmtCeilInt_eq_neg_floorInt]
  constructor <;> linarith

/-! ### Addition on NaNs and infinities (R11, R18) -/

theorem fmtAdd_of_nan (d : Word) {x y : Word} (h : fmtIsNaN x = true ∨ fmtIsNaN y = true) :
    fmtAdd d x y = fmtNaN d :=
  if_pos (by simpa using h)

theorem fmtAdd_of_opposite_infs (d : Word) {x y : Word} (hx : fmtIsInf x = true) (hy : fmtIsInf y = true)
    (hs : fmtSign x ≠ fmtSign y) : fmtAdd d x y = fmtNaN d := by
  unfold fmtAdd
  rw [fmtIsNaN_of_inf hx, fmtIsNaN_of_inf hy, hx, hy]
  simp [hs]

theorem fmtAdd_of_inf_left (d : Word) {x y : Word} (hx : fmtIsInf x = true) (hy : fmtIsNaN y = false)
    (hs : fmtIsInf y = true → fmtSign x = fmtSign y) : fmtAdd d x y = x := by
  unfold fmtAdd
  rw [fmtIsNaN_of_inf hx, hy, hx]
  cases hi : fmtIsInf y with
  | false => simp
  | true => simp [hs hi]

theorem fmtAdd_of_inf_right (d : Word) {x y : Word} (hx : fmtIsFinite x = true) (hy : fmtIsInf y = true) :
    fmtAdd d x y = y := by
  unfold fmtAdd
  rw [fmtIsNaN_of_finite hx, fmtIsNaN_of_inf hy, fmtIsInf_of_finite hx, hy]
  simp

/-! ### Addition of finite values (R11) -/

/-- An exact zero sum is +0.0 unless both operands are negative. -/
theorem fmtAdd_zero_sum (d : Word) {x y : Word} (hx : fmtIsFinite x = true) (hy : fmtIsFinite y = true)
    (h0 : fmtUnits x + fmtUnits y = 0) :
    fmtMag (fmtAdd d x y) = 0 ∧ fmtSign (fmtAdd d x y) = (fmtSign x && fmtSign y) := by
  rw [fmtAdd_finite hx hy, if_pos h0]
  exact ⟨fmtMag_pack _ (by decide), fmtSign_pack _ (by decide)⟩

theorem fmtAdd_rounds (d : Word) {x y : Word} (hx : fmtIsFinite x = true) (hy : fmtIsFinite y = true)
    (h0 : fmtUnits x + fmtUnits y ≠ 0) :
    roundedTo (fmtAdd d x y) (decide (fmtUnits x + fmtUnits y < 0)) (fmtUnits x + fmtUnits y).natAbs 1 := by
  rw [fmtAdd_finite hx hy, if_neg h0]
  exact roundedTo_pack _ _ Nat.one_pos

/-! ### Multiplication (R11, R18) -/

theorem fmtMul_comm (d x y : Word) : fmtMul d x y = fmtMul d y x := by
  unfold fmtMul
  simp only [bne_comm (a := fmtSign x), Bool.or_comm (fmtIsNaN x), Bool.or_comm (fmtIsInf x),
    or_comm (a := fmtMag x = 0), Nat.mul_comm (magUnits (fmtMag x))]

theorem fmtMul_of_nan (d : Word) {x y : Word} (h : fmtIsNaN x = true ∨ fmtIsNaN y = true) :
    fmtMul d x y = fmtNaN d :=
  if_pos (by simpa using h)

theorem fmtMul_of_inf_zero (d : Word) {x y : Word} (hx : fmtIsInf x = true) (hy : fmtMag y = 0) :
    fmtMul d x y = fmtNaN d := by
  unfold fmtMul
  rw [fmtIsNaN_of_inf hx, fmtIsNaN_of_finite (fmtIsFinite_of_mag_zero hy), hx]
  simp [hy]

theorem fmtMul_of_inf (d : Word) {x y : Word} (hx : fmtIsInf x = true) (hy : fmtMag y ≠ 0)
    (hn : fmtIsNaN y = false) : fmtMul d x y = fmtPack (fmtSign x != fmtSign y) infMag := by
  unfold fmtMul
  rw [fmtIsNaN_of_inf hx, hn, hx]
  simp [hy, fmtMag_ne_zero_of_inf hx]

theorem fmtMul_rounds (d : Word) {x y : Word} (hx : fmtIsFinite x = true) (hy : fmtIsFinite y = true) :
    roundedTo (fmtMul d x y) (fmtSign x != fmtSign y) (fmtUnits x * fmtUnits y).natAbs oneUnits := by
  rw [fmtMul_finite hx hy, Int.natAbs_mul, fmtUnits_natAbs, fmtUnits_natAbs]
  exact roundedTo_pack _ _ oneUnits_pos

/-! ### Division (R11, R18) -/

theorem fmtDiv_of_nan (d : Word) {x y : Word} (h : fmtIsNaN x = true ∨ fmtIsNaN y = true) :
    fmtDiv d x y = fmtNaN d :=
  if_pos (by simpa using h)

theorem fmtDiv_of_infs (d : Word) {x y : Word} (hx : fmtIsInf x = true) (hy : fmtIsInf y = true) :
    fmtDiv d x y = fmtNaN d := by
  unfold fmtDiv
  rw [fmtIsNaN_of_inf hx, fmtIsNaN_of_inf hy, hx, hy]
  simp

theorem fmtDiv_of_inf_dividend (d : Word) {x y : Word} (hx : fmtIsInf x = true) (hy : fmtIsFinite y = true) :
    fmtDiv d x y = fmtPack (fmtSign x != fmtSign y) infMag := by
  unfold fmtDiv
  rw [fmtIsNaN_of_inf hx, fmtIsNaN_of_finite hy, hx, fmtIsInf_of_finite hy]
  simp

theorem fmtDiv_of_inf_divisor (d : Word) {x y : Word} (hx : fmtIsFinite x = true) (hy : fmtIsInf y = true) :
    fmtDiv d x y = fmtPack (fmtSign x != fmtSign y) 0 := by
  unfold fmtDiv
  rw [fmtIsNaN_of_finite hx, fmtIsNaN_of_inf hy, fmtIsInf_of_finite hx, hy]
  simp

/-- Over zero: 0/0 is a NaN, any other finite dividend gives an infinity. -/
theorem fmtDiv_of_zero_divisor (d : Word) {x y : Word} (hx : fmtIsFinite x = true) (hy : fmtMag y = 0) :
    fmtDiv d x y = if fmtMag x = 0 then fmtNaN d else fmtPack (fmtSign x != fmtSign y) infMag := by
  have hyf := fmtIsFinite_of_mag_zero hy
  unfold fmtDiv
  rw [fmtIsNaN_of_finite hx, fmtIsNaN_of_finite hyf, fmtIsInf_of_finite hx, fmtIsInf_of_finite hyf]
  simp [hy]

theorem fmtDiv_rounds (d : Word) {x y : Word} (hx : fmtIsFinite x = true) (hy : fmtIsFinite y = true)
    (h0 : fmtMag y ≠ 0) :
    roundedTo (fmtDiv d x y) (fmtSign x != fmtSign y) ((fmtUnits x).natAbs * oneUnits) (fmtUnits y).natAbs := by
  have hpos : 0 < (fmtUnits y).natAbs := Int.natAbs_pos.mpr (mt fmtUnits_eq_zero.mp h0)
  rw [fmtUnits_natAbs] at hpos
  rw [fmtDiv_finite hx hy h0, fmtUnits_natAbs, fmtUnits_natAbs]
  exact roundedTo_pack _ _ hpos

/-! ### The statements -/

/-- Settles O6: each turn fetches what the decoder reads from the encoding of the pending transaction, or of the
sequencer's state. -/
theorem stepRunsTheDecodedInstruction : Obligations.StepRunsTheDecodedInstruction := by
  unfold Obligations.StepRunsTheDecodedInstruction
  constructor
  · intro s ts tr rest i hhost hdec
    rw [decode_transactionBytes, Except.ok.injEq] at hdec
    subst hdec
    refine ⟨fun hturn => step_of_run ?_, fun hnone hidle => step_of_run ?_⟩
    · rw [fetch_of_host_turn hturn]
      exact fetchHost_transaction hhost
    · rw [fetch_of_no_turns_idle hnone hidle]
      exact fetchHost_transaction hhost
  · intro s ts i hdec
    rw [decode_seqCode, Except.ok.injEq] at hdec
    subst hdec
    exact ⟨fun hturn => step_of_run (fetch_of_sequencer_turn hturn),
      fun hnone hrun => step_of_run (fetch_of_no_turns_running hnone hrun)⟩

/-- Settles O55: the witnesses are the integers the model rounds to, which the format holds exactly. -/
theorem floorAndCeilAreExact : Obligations.FloorAndCeilAreExact := by
  intro x hx
  obtain ⟨hfloor, hfloorFin⟩ := fmtFloor_units hx
  obtain ⟨hceil, hceilFin⟩ := fmtCeil_units hx
  exact ⟨hfloorFin, hceilFin, ⟨fmtFloorInt x, hfloor, fmtFloorInt_bracket x⟩,
    ⟨fmtCeilInt x, hceil, fmtCeilInt_bracket x⟩, fun _ => fmtSign_floor x, fun _ => fmtSign_ceil hx⟩

/-- Settles O56, one class of operands at a time. -/
theorem additionRoundsToNearestEven : Obligations.AdditionRoundsToNearestEven := by
  intro d x y
  refine ⟨fun hx hy => ⟨fmtAdd_zero_sum d hx hy, fmtAdd_rounds d hx hy⟩, ?nan, ?opposite, ?infLeft, ?infRight, ?sub⟩
  case nan => exact fun h => fmtIsNaN_of_eq_fmtNaN (fmtAdd_of_nan d h)
  case opposite => exact fun hx hy hs => fmtIsNaN_of_eq_fmtNaN (fmtAdd_of_opposite_infs d hx hy hs)
  case infLeft => exact fmtAdd_of_inf_left d
  case infRight => exact fun hy hx => fmtAdd_of_inf_right d hx hy
  case sub => rw [fmtSub, fmtNeg_eq_xor]

/-- Settles O57, one class of operands at a time; an infinite right factor is a left one by commutativity. -/
theorem productsAndQuotientsRoundToNearestEven : Obligations.ProductsAndQuotientsRoundToNearestEven := by
  intro d x y
  refine ⟨fun hx hy => ⟨fmtMul_rounds d hx hy, fmtDiv_rounds d hx hy, ?overZero, ?zeroOverZero⟩,
    ?nan, ?infTimesZero, ?infFactor, ?infOverInf, ?infDividend, ?infDivisor⟩
  case overZero =>
    intro hy0 hx0
    apply inf_and_sign_of_eq_pack
    rw [fmtDiv_of_zero_divisor d hx hy0, if_neg hx0]
  case zeroOverZero =>
    intro hy0 hx0
    apply fmtIsNaN_of_eq_fmtNaN
    rw [fmtDiv_of_zero_divisor d hx hy0, if_pos hx0]
  case nan =>
    exact fun h => ⟨fmtIsNaN_of_eq_fmtNaN (fmtMul_of_nan d h), fmtIsNaN_of_eq_fmtNaN (fmtDiv_of_nan d h)⟩
  case infTimesZero =>
    rintro (⟨hx, hy⟩ | ⟨hx, hy⟩)
    · exact fmtIsNaN_of_eq_fmtNaN (fmtMul_of_inf_zero d hx hy)
    · rw [fmtMul_comm]
      exact fmtIsNaN_of_eq_fmtNaN (fmtMul_of_inf_zero d hy hx)
  case infFactor =>
    rintro (⟨hx, hy0, hyn⟩ | ⟨hy, hx0, hxn⟩)
    · exact inf_and_sign_of_eq_pack (fmtMul_of_inf d hx hy0 hyn)
    · rw [fmtMul_comm, bne_comm]
      exact inf_and_sign_of_eq_pack (fmtMul_of_inf d hy hx0 hxn)
  case infOverInf => exact fun hx hy => fmtIsNaN_of_eq_fmtNaN (fmtDiv_of_infs d hx hy)
  case infDividend => exact fun hx hy => inf_and_sign_of_eq_pack (fmtDiv_of_inf_dividend d hx hy)
  case infDivisor =>
    intro hx hy
    rw [fmtDiv_of_inf_divisor d hx hy]
    exact ⟨fmtMag_pack _ (by decide), fmtSign_pack _ (by decide)⟩

end Sys2Proof.Machine
end

section
/-! The state chapter (10_state.md): what a whole step can leave behind, the invariant from reset on, and which
agent owns which part of the state (R22 to R25, R43 to R45, R321). -/

namespace Sys2Proof.Machine

/-! ### What a step can leave behind (R14, R70, R350) -/

/-- Every way a step can go, with the effect of the transaction or the action it ran. -/
inductive StepEffect (s : State) : State → Prop
  /-- The platform's reset. -/
  | resets (hr : s.turns.head? = some .reset) : StepEffect s (coreReset (afterTurn s))
  /-- The turn of a Host with nothing pending. -/
  | waits (hr : s.turns.head? ≠ some .reset) (hh : s.host = []) : StepEffect s (afterTurn s)
  /-- A Host transaction. -/
  | transacts {item : HostItem} {rest : List HostItem} {t : State} (hr : s.turns.head? ≠ some .reset)
      (hh : s.host = item :: rest)
      (he : HostEffect (hostTransaction item) { afterTurn s with host := hostRest s item rest } t) : StepEffect s t
  /-- A sequencer action. -/
  | acts {t : State} (hr : s.turns.head? ≠ some .reset) (he : SeqEffect (afterTurn s) s.seqState t) :
      StepEffect s t

theorem stepEffect_of_next {s t : State} (h : step s = .next t) : StepEffect s t := by
  rcases fetch_cases s with ⟨hr, hf⟩ | ⟨hr, hh, hf⟩ | ⟨hr, item, rest, hh, hf⟩ | ⟨hr, hf⟩
  · rw [step_of_quiet hf] at h
    cases h
    exact .resets hr
  · rw [step_of_quiet hf] at h
    cases h
    exact .waits hr hh
  · rw [step_of_run hf] at h
    exact .transacts hr hh (hostEffect_of_next h)
  · rw [step_of_run hf] at h
    exact .acts hr (seqEffect_of_next h)

/-! ### The invariant after reset and after an error (R44, R45) -/

theorem inv_reset : Inv State.reset := by
  refine ⟨?memory, ?lifecycle, ?block⟩
  case memory => exact ⟨⟨.nil, nofun⟩, ⟨.nil, nofun⟩, nofun⟩
  case lifecycle => exact ⟨fun _ => ⟨rfl, rfl, .inl rfl⟩, nofun⟩
  case block => exact ⟨by decide, fun hi => absurd rfl hi, nofun, fun hi => absurd rfl hi⟩

/-- The invariant reads nothing that a reset leaves running. -/
theorem inv_coreReset (s : State) : Inv (coreReset s) := inv_reset

/-- The invariant reads no sticky bit. -/
theorem inv_raise {s : State} (h : Inv s) (c : ErrorCause) : Inv (raise c s) := by
  cases c <;> exact h

/-! ### A transaction keeps the invariant -/

/-- An accepted rate allocates between one word and the whole memory (R232). -/
theorem capacity_of_rateAccepted {sr : Word} (h : rateAccepted sr = true) :
    (BitVec.ofNat 32 (fmtToInt (fmtFloor sr)).toNat).toNat = (fmtToInt (fmtFloor sr)).toNat ∧
    1 ≤ (fmtToInt (fmtFloor sr)).toNat ∧ (fmtToInt (fmtFloor sr)).toNat ≤ Config.maxCapacity := by
  obtain ⟨hfin, hlow, hhigh⟩ := (rateAccepted_iff sr).mp h
  rw [fmtToInt_floor hfin, BitVec.toNat_ofNat]
  simp only [Config.maxCapacity] at hhigh ⊢
  omega

/-- PREPARE: before it the capacity is 0, so the history it allocates lists nothing (R220, R232). -/
theorem inv_prepare {s : State} (h : Inv s) : Inv (prepare s) := by
  rcases prepare_cases s with ⟨-, hp⟩ | ⟨hr, hrate, hp⟩
  · rw [hp]
    exact inv_raise h _
  · rw [hp]
    obtain ⟨⟨hframe, hhist, hbelow⟩, ⟨hbefore, -⟩, hblock⟩ := h
    obtain ⟨hcap0, -⟩ := hbefore hr
    obtain ⟨hcap, hlow, hhigh⟩ := capacity_of_rateAccepted hrate
    obtain ⟨hfin, -⟩ := (rateAccepted_iff _).mp hrate
    have hempty : ∀ c ∈ histZeroFill s.hist (fmtToInt (fmtFloor s.sampleRate)).toNat, False := by
      intro c hc
      have := hbelow c (List.mem_of_mem_filter hc)
      simp [hcap0] at this
    refine ⟨⟨hframe, histZeroFill_wf hhist _, fun c hc => (hempty c hc).elim⟩, ⟨by simp, fun _ => ?_⟩, hblock⟩
    simp only [hcap]
    exact ⟨hlow, hhigh, hlow, hfin, by omega⟩

/-- PROCESS: an accepted block has channels, fits, and stands at START with frame 0 (R234). -/
theorem inv_process {s : State} (h : Inv s) (ch : BitVec 8) (frames : BitVec 20) :
    Inv (process ch frames s) := by
  rcases process_cases ch frames s with ⟨-, hp⟩ | ⟨-, -, hp⟩ | ⟨hch, hfits, hp⟩
  · rw [hp]
    exact inv_raise h _
  · rw [hp]
    exact inv_raise h _
  · rw [hp]
    obtain ⟨hmem, ⟨hbefore, hafter⟩, -⟩ := h
    refine ⟨hmem, ⟨fun hr => ?_, hafter⟩, by simp, fun _ => ⟨hch, hfits⟩, fun _ => rfl, by simp⟩
    obtain ⟨hcap, hcur, -⟩ := hbefore hr
    exact ⟨hcap, hcur, .inr rfl⟩

theorem inv_of_hostEffect {tr : Transaction} {s t : State} (h : Inv s) (he : HostEffect tr s t) : Inv t := by
  cases he with
  | refusesRead c v => exact inv_raise h c
  | refuses c => exact inv_raise h c
  | freeRead hb => exact inv_raise h .busy
  | storesFrame hb i hi v =>
    obtain ⟨⟨hframe, hhist⟩, hrest⟩ := h
    exact ⟨⟨frameSet_wf hframe hi v, hhist⟩, hrest⟩
  | prepares => exact inv_prepare h
  | processes _ ch frames => exact inv_process h ch frames
  | setsSampleRate hr v =>
    obtain ⟨hmem, ⟨hbefore, -⟩, hblock⟩ := h
    exact ⟨hmem, ⟨hbefore, fun hready => absurd (hr.symm.trans hready) Bool.false_ne_true⟩, hblock⟩
  | _ => exact h

/-! ### An action of the Sequencer keeps the invariant -/

/-- A block past its readiness guard, whatever tick state it is in: what every tick state may rely on (R238, R240). -/
abbrev tickInv (s : State) : Prop :=
  memoryInv s ∧ lifecycleInv s ∧ s.status.ready = true ∧ s.status.busy = true ∧
    (s.blkCh ≠ 0#8 ∧ s.blkFrames.toNat * s.blkCh.toNat ≤ Config.frameMemWords) ∧
    s.frameIdx.toNat < s.blkFrames.toNat

theorem tickInv_of_inv {s : State} (h : Inv s) (hi : s.seqState ≠ .idle) (hs : s.seqState ≠ .start) : tickInv s := by
  obtain ⟨hmem, hlife, hbusy, hfits, -, hidx⟩ := h
  refine ⟨hmem, hlife, ?_, hbusy.mpr hi, hfits hi, hidx hi hs⟩
  obtain ⟨hbefore, -⟩ := hlife
  by_contra hr
  obtain ⟨-, -, hq | hq⟩ := hbefore (by simpa using hr)
  · exact hi hq
  · exact hs hq

/-- A block whose readiness guard passes is ready for its first tick (R238). -/
theorem tickInv_of_start {s : State} (h : Inv s) (hq : s.seqState = .start) (hr : s.status.ready = true)
    (hf : s.blkFrames ≠ 0#20) : tickInv s := by
  obtain ⟨hmem, hlife, hbusy, hfits, hfirst, -⟩ := h
  have hi : s.seqState ≠ .idle := by simp [hq]
  refine ⟨hmem, hlife, hr, hbusy.mpr hi, hfits hi, ?_⟩
  rw [hfirst hq]
  exact Nat.pos_of_ne_zero fun h0 => hf (BitVec.eq_of_toNat_eq h0)

theorem inv_goto_of_tickInv {s : State} (h : tickInv s) {q : SeqState} (hi : q ≠ .idle) (hs : q ≠ .start) :
    Inv (goto q s) := by
  obtain ⟨hmem, ⟨-, hafter⟩, hr, hb, hfits, hidx⟩ := h
  exact ⟨hmem, ⟨fun hn => absurd (hn.symm.trans hr) Bool.false_ne_true, hafter⟩,
    ⟨fun _ => hi, fun _ => hb⟩, fun _ => hfits, fun hq => absurd hq hs, fun _ _ => hidx⟩

/-- The end of a block needs nothing of the block (R247). -/
theorem inv_blockEnd {s : State} (hm : memoryInv s) (hl : lifecycleInv s) : Inv (blockEnd s) := by
  obtain ⟨hbefore, hafter⟩ := hl
  refine ⟨hm, ⟨fun hr => ?_, hafter⟩, by simp, by simp, by simp, by simp⟩
  obtain ⟨hcap, hcur, -⟩ := hbefore hr
  exact ⟨hcap, hcur, .inl rfl⟩

theorem tickInv_raise {s : State} (h : tickInv s) (c : ErrorCause) : tickInv (raise c s) := by
  cases c <;> exact h

theorem tickInv_upmixInto {s : State} (h : tickInv s) (d : Nat → Word) (p : Word) {base n : Nat}
    (hr : base + n ≤ Config.frameMemWords) : tickInv (upmixInto d p base n s) := by
  obtain ⟨⟨hframe, hhist⟩, hrest⟩ := h
  have hwf := upmixInto_wf hframe d p hr
  rw [upmixInto_frame_only]
  exact ⟨⟨hwf, hhist⟩, hrest⟩

/-- A history word stored at a valid index keeps the history within the capacity (R37, R62). -/
theorem tickInv_histPut {s : State} (h : tickInv s) {i : Nat} (hi : i < s.capacity.toNat) (v : Word) :
    tickInv { s with hist := histPut s.hist i v } := by
  obtain ⟨⟨hframe, hhist, hbelow⟩, ⟨hbefore, hafter⟩, hr, hrest⟩ := h
  obtain ⟨-, hmax, -⟩ := hafter hr
  exact ⟨⟨hframe, histPut_wf hhist (hi.trans_le hmax) v, histPut_below hbelow hi v⟩, ⟨hbefore, hafter⟩, hr, hrest⟩

theorem tickInv_cursorNext {s : State} (h : tickInv s) : tickInv { s with cursor := cursorNext s } := by
  obtain ⟨hmem, ⟨-, hafter⟩, hr, hrest⟩ := h
  obtain ⟨hlow, hmax, -, hrate⟩ := hafter hr
  exact ⟨hmem, ⟨fun hn => absurd (hn.symm.trans hr) Bool.false_ne_true,
    fun _ => ⟨hlow, hmax, cursorNext_lt hlow, hrate⟩⟩, hr, hrest⟩

/-- START either begins the first tick or ends the block. -/
theorem inv_of_start {s t : State} (h : Inv s) (hq : s.seqState = .start) (he : SeqEffect s .start t) : Inv t := by
  cases he with
  | bypasses =>
    obtain ⟨hmem, hlife, -⟩ := h
    exact inv_blockEnd hmem hlife
  | begins hr hf => exact inv_goto_of_tickInv (tickInv_of_start h hq hr hf) (by decide) (by decide)

/-- A tick state's action does its part within the block, then goes on to a tick state or ends the block. -/
theorem inv_of_tick {s t : State} (h : tickInv s) {q : SeqState} (hi : q ≠ .idle) (hs : q ≠ .start)
    (he : SeqEffect s q t) : Inv t := by
  cases he with
  | idles => exact absurd rfl hi
  | bypasses => exact absurd rfl hs
  | begins => exact absurd rfl hs
  | reads => exact inv_goto_of_tickInv (q := .downmix) h (by decide) (by decide)
  | readsNothing =>
    exact inv_goto_of_tickInv (q := .downmix) (tickInv_raise (s := { s with wet := drawn s 9 }) h .nonfinite)
      (by decide) (by decide)
  | mixesDown => exact inv_goto_of_tickInv (q := .upmix) h (by decide) (by decide)
  | mixesUp hf =>
    exact inv_goto_of_tickInv (q := .writeback) (tickInv_upmixInto h _ _ (of_decide_eq_true hf))
      (by decide) (by decide)
  | writesBack _ hc =>
    exact inv_goto_of_tickInv (q := .cursorAdv) (tickInv_histPut h hc _) (by decide) (by decide)
  | advancesCursor => exact inv_goto_of_tickInv (tickInv_cursorNext h) (by decide) (by decide)
  | nextFrame hl =>
    obtain ⟨hmem, hlife, hr, hb, hfits, -⟩ := h
    exact inv_goto_of_tickInv (s := drew { s with phase := oscNext (drawn s) s, frameIdx := s.frameIdx + 1#20 })
      ⟨hmem, hlife, hr, hb, hfits, hl⟩ (by decide) (by decide)
  | lastFrame =>
    obtain ⟨hmem, hlife, -⟩ := h
    exact inv_blockEnd (s := drew { s with phase := oscNext (drawn s) s, frameIdx := s.frameIdx + 1#20 }) hmem hlife

theorem inv_of_seqEffect {s t : State} (h : Inv s) (he : SeqEffect s s.seqState t) : Inv t := by
  by_cases hi : s.seqState = .idle
  · rw [hi] at he
    cases he
    exact h
  · by_cases hs : s.seqState = .start
    · rw [hs] at he
      exact inv_of_start h hs he
    · exact inv_of_tick (tickInv_of_inv h hi hs) hi hs he

/-! ### What the render context owns (R43, R321) -/

theorem renderStateSame_refl (s : State) : renderStateSame s s := ⟨rfl, rfl, rfl, rfl, rfl, rfl, rfl⟩

theorem renderStateSame_raise (c : ErrorCause) (s : State) : renderStateSame s (raise c s) := by
  cases c <;> exact renderStateSame_refl s

theorem renderStateSame_process (ch : BitVec 8) (frames : BitVec 20) (s : State) :
    renderStateSame s (process ch frames s) := by
  rcases process_cases ch frames s with ⟨-, hp⟩ | ⟨-, -, hp⟩ | ⟨-, -, hp⟩ <;> rw [hp]
  · exact renderStateSame_raise _ s
  · exact renderStateSame_raise _ s
  · exact renderStateSame_refl s

/-- PREPARE changes what the render context owns only where it is accepted, and never the phase or the tick
registers (R232). -/
theorem renderStateSame_prepare_or_accepted (s : State) :
    renderStateSame s (prepare s) ∨
      (s.status.ready = false ∧ (prepare s).phase = s.phase ∧ (prepare s).wet = s.wet ∧
        (prepare s).monoIn = s.monoIn) := by
  rcases prepare_cases s with ⟨-, hp⟩ | ⟨hr, -, hp⟩ <;> rw [hp]
  · exact .inl (renderStateSame_raise _ s)
  · exact .inr ⟨hr, rfl, rfl, rfl⟩

/-- The one exception is an accepted PREPARE, the write of 1 to CMD. -/
theorem renderStateSame_or_prepared {tr : Transaction} {s t : State} (he : HostEffect tr s t) :
    renderStateSame s t ∨
      (tr.write = true ∧ tr.offset = 0x010#24 ∧ tr.data = 1#64 ∧ s.status.ready = false ∧ s.status.busy = false ∧
        t.phase = s.phase ∧ t.wet = s.wet ∧ t.monoIn = s.monoIn) := by
  cases he with
  | refusesRead c v => exact .inl (renderStateSame_raise c s)
  | refuses c => exact .inl (renderStateSame_raise c s)
  | freeRead => exact .inl (renderStateSame_raise .busy s)
  | prepares hb hw ho hd =>
    refine (renderStateSame_prepare_or_accepted s).imp_right fun ⟨hr, hkept⟩ => ?_
    exact ⟨hw, BitVec.eq_of_toNat_eq ho, hd, hr, hb, hkept⟩
  | processes _ ch frames => exact .inl (renderStateSame_process ch frames s)
  | _ => exact .inl (renderStateSame_refl s)

/-- What a block in progress holds against the Host: frame memory, SEQ and BUSY itself (R43). -/
abbrev blockStateSame (s t : State) : Prop :=
  t.frame = s.frame ∧ seqWord t = seqWord s ∧ t.status.busy = s.status.busy

theorem blockStateSame_raise (c : ErrorCause) (s : State) : blockStateSame s (raise c s) := by
  cases c <;> exact ⟨rfl, rfl, rfl⟩

/-- While BUSY every effect that would change the block in progress is out of reach. -/
theorem blockStateSame_of_busy {tr : Transaction} {s t : State} (he : HostEffect tr s t)
    (hbusy : s.status.busy = true) : blockStateSame s t := by
  have hne : s.status.busy ≠ false := by simp [hbusy]
  cases he with
  | refusesRead c v => exact blockStateSame_raise c s
  | refuses c => exact blockStateSame_raise c s
  | freeRead => exact blockStateSame_raise .busy s
  | storesFrame hb => exact absurd hb hne
  | prepares hb => exact absurd hb hne
  | processes hb => exact absurd hb hne
  | _ => exact ⟨rfl, rfl, rfl⟩

/-! ### What the Host owns (R43, R321) -/

/-- What no action of the Sequencer may change: the Host's registers, the readiness and the capacity, the block's
size, and the Host itself (R34, R43, R240). -/
abbrev hostStateSame (s t : State) : Prop :=
  t.sampleRate = s.sampleRate ∧ t.delaySecs = s.delaySecs ∧ t.feedback = s.feedback ∧ t.wetmix = s.wetmix ∧
    t.amount = s.amount ∧ t.rate = s.rate ∧ t.interpMode = s.interpMode ∧ t.dbgIndex = s.dbgIndex ∧
    t.capacity = s.capacity ∧ t.status.ready = s.status.ready ∧ t.blkCh = s.blkCh ∧
    t.blkFrames = s.blkFrames ∧ t.readData = s.readData ∧ t.host = s.host ∧ t.turns = s.turns

theorem hostStateSame_refl (s : State) : hostStateSame s s :=
  ⟨rfl, rfl, rfl, rfl, rfl, rfl, rfl, rfl, rfl, rfl, rfl, rfl, rfl, rfl, rfl⟩

theorem hostStateSame_upmixInto (d : Nat → Word) (p : Word) (base n : Nat) (s : State) :
    hostStateSame s (upmixInto d p base n s) := by
  rw [upmixInto_frame_only]
  exact hostStateSame_refl s

theorem hostStateSame_of_seqEffect {s t : State} {q : SeqState} (he : SeqEffect s q t) : hostStateSame s t := by
  cases he with
  | mixesUp => exact hostStateSame_upmixInto _ _ _ _ s
  | _ => exact hostStateSame_refl s

/-! ### Readiness (R22, R24, R25) -/

/-- READY, and the capacity and the sample rate it locks. -/
abbrev readinessSame (s t : State) : Prop :=
  t.status.ready = s.status.ready ∧ t.capacity = s.capacity ∧ t.sampleRate = s.sampleRate

theorem readinessSame_raise (c : ErrorCause) (s : State) : readinessSame s (raise c s) := by
  cases c <;> exact ⟨rfl, rfl, rfl⟩

/-- Once READY, a PREPARE and a write to SAMPLE_RATE are refused (R232, R277). -/
theorem readinessSame_of_hostEffect {tr : Transaction} {s t : State} (he : HostEffect tr s t)
    (hready : s.status.ready = true) : readinessSame s t := by
  have hne : s.status.ready ≠ false := by simp [hready]
  cases he with
  | refusesRead c v => exact readinessSame_raise c s
  | refuses c => exact readinessSame_raise c s
  | freeRead => exact readinessSame_raise .busy s
  | prepares =>
    rcases prepare_cases s with ⟨-, hp⟩ | ⟨hr, -⟩
    · rw [hp]
      exact readinessSame_raise _ s
    · exact absurd hr hne
  | processes _ ch frames =>
    rcases process_cases ch frames s with ⟨-, hp⟩ | ⟨-, -, hp⟩ | ⟨-, -, hp⟩ <;> rw [hp]
    · exact readinessSame_raise _ s
    · exact readinessSame_raise _ s
    · exact ⟨rfl, rfl, rfl⟩
  | setsSampleRate hr => exact absurd hr hne
  | _ => exact ⟨rfl, rfl, rfl⟩

theorem readinessSame_of_seqEffect {s t : State} {q : SeqState} (he : SeqEffect s q t) : readinessSame s t := by
  obtain ⟨hrate, -, -, -, -, -, -, -, hcap, hready, -⟩ := hostStateSame_of_seqEffect he
  exact ⟨hready, hcap, hrate⟩

/-! ### The statements -/

/-- Settles O13, by what the step ran: each of its effects keeps the invariant, and consuming the turn and the
pending item does not touch it. -/
theorem everyStepKeepsInv : Obligations.EveryStepKeepsInv := by
  intro s t h hstep
  cases stepEffect_of_next hstep with
  | resets => exact inv_coreReset _
  | waits => exact h
  | transacts _ _ he => exact inv_of_hostEffect (s := { afterTurn s with host := _ }) h he
  | acts _ he => exact inv_of_seqEffect (s := afterTurn s) h he

/-- Settles O45: the two halves are read off the effect of the transaction. -/
theorem hostCannotWriteRenderState : Obligations.HostCannotWriteRenderState := by
  intro s t tr hexec
  have he := hostEffect_of_next hexec
  refine ⟨renderStateSame_or_prepared he, fun hbusy => ?_⟩
  obtain ⟨hframe, hseq, hkept⟩ := blockStateSame_of_busy he hbusy
  exact ⟨hframe, hseq, hkept.trans hbusy⟩

/-- Settles O46, by the effect of the action. -/
theorem sequencerCannotWriteHostState : Obligations.SequencerCannotWriteHostState :=
  fun _ _ _ hexec => hostStateSame_of_seqEffect (seqEffect_of_next hexec)

/-- Settles O47: no effect of a step but reset's changes what READY locks. -/
theorem readinessIsForLife : Obligations.ReadinessIsForLife := by
  intro s t hready hnoreset hstep
  have hsame : readinessSame s t := by
    cases stepEffect_of_next hstep with
    | resets hr => exact absurd hr hnoreset
    | waits => exact ⟨rfl, rfl, rfl⟩
    | transacts _ _ he => exact readinessSame_of_hostEffect (s := { afterTurn s with host := _ }) he hready
    | acts _ he => exact readinessSame_of_seqEffect (s := afterTurn s) he
  obtain ⟨hkept, hcap, hrate⟩ := hsame
  exact ⟨hkept.trans hready, hcap, hrate⟩

/-- Settles O10: the reset table is `State.reset`, field by field; STATUS and SEQ are words laid out from it. -/
theorem resetLeavesTheStatedValues : Obligations.ResetLeavesTheStatedValues := by
  refine ⟨?status, rfl, rfl, rfl, rfl, rfl, rfl, rfl, rfl, rfl, rfl, ?seq, rfl, rfl⟩
  case status => decide
  case seq => decide

/-- Settles O12, the base case of O13. -/
theorem invHoldsAfterReset : Obligations.InvHoldsAfterReset := inv_reset

end Sys2Proof.Machine
end

section
/-! The memory chapter (20_memory.md): the frame port of an idle core, and transactions, command words and state codes
written out as bytes (R63, R64, R91 to R100). -/

namespace Sys2Proof.Machine

/-! ### The frame port while BUSY = 0 (R63) -/

/-- A frame write in range is a store of the word. -/
theorem exec_wrFrame_of_idle {s : State} {i : Nat} (hi : i < Config.frameMemWords) (hb : s.status.busy = false)
    (v : Word) : exec (.wrFrame i v) s = .next (frameSet s i v) := by
  simp [exec, execWrFrame, frameWrite, hi, hb]

/-- A frame read in range answers the word and has no other effect. -/
theorem exec_rdFrame_of_idle {s : State} {i : Nat} (hi : i < Config.frameMemWords) (hb : s.status.busy = false) :
    exec (.rdFrame i) s = .next { s with readData := frameWord s i } := by
  simp [exec, execRdFrame, frameRead, returned, hi, hb]

/-! ### Encodings written out (R64, R91 to R100) -/

/-- A misaligned access is refused before its offset is looked up (R91 step 1). -/
theorem decodeTransaction_of_misaligned {t : Transaction} (h : t.offset.toNat % 8 ≠ 0) :
    decodeTransaction t = illegalInstr t :=
  if_pos (.inr h)

/-- The transaction that thirteen bytes lay out is the one they decode to. -/
theorem decode_bus_of_layout {bs : List Byte} {t : Transaction} {i : Instr} (hb : bs = transactionBytes t)
    (ht : decodeTransaction t = i) : decode .bus bs = .ok i := by
  rw [hb, decode_transactionBytes, ht]

/-- The command of the word that eight bytes lay out is the one they decode to. -/
theorem decode_cmd_of_layout {bs : List Byte} {w : Word} {c : Command} (hb : bs = wordBytes w)
    (hw : decodeCommand w = c) : decode .cmd bs = .ok (commandInstr c) := by
  rw [hb, decode_wordBytes, hw]

/-! ### The statements -/

/-- Settles O27: the write stores the word and leaves BUSY at 0, so the read answers a word of the memory stored to. -/
theorem frameReadAfterWrite : Obligations.FrameReadAfterWrite := by
  intro s i j v hi hj hb
  refine ⟨frameSet s i v, exec_wrFrame_of_idle hi hb v, ?_⟩
  have hb' : (frameSet s i v).status.busy = false := hb
  rw [exec_rdFrame_of_idle hj hb', frameWord_set]

/-- Settles O5: each list of bytes is the layout of a transaction, a command word or a state code, whose decoding the
rules of its form give. -/
theorem writtenWordsDecode : Obligations.WrittenWordsDecode := by
  refine ⟨?rdStatus, ?wrFeedback, ?wrCmd, ?rdFrame, ?misaligned, ?process, ?reserved, decode_seqCode .writeback⟩
  case rdStatus => exact decode_bus_of_layout (by decide) (decodeTransaction_register false .status 0#64)
  case wrFeedback => exact decode_bus_of_layout (by decide) (decodeTransaction_register true .feedback _)
  case wrCmd => exact decode_bus_of_layout (by decide) (decodeTransaction_register true .cmd _)
  case rdFrame => exact decode_bus_of_layout (by decide) (decodeTransaction_frame false (by decide) 0#64)
  case misaligned =>
    exact decode_bus_of_layout (t := readTransaction 4) (by decide) (decodeTransaction_of_misaligned (by decide))
  case process =>
    exact decode_cmd_of_layout (w := processWord 2#8 12#20) (c := .process 2#8 12#20) (by decide) (by decide)
  case reserved =>
    exact decode_cmd_of_layout (w := 0x11#64) (c := .reserved 0x11#64) (by decide) (by decide)

end Sys2Proof.Machine
end

section
/-! The encoding chapter (30_encoding.md): the fields and patterns of a command word, what every encoding decodes to and
what every decoded instruction encodes to, and the accesses of a host program's lines (R90 to R102). -/

namespace Sys2Proof.Machine

/-! ### The fields of a command word (R92, R93) -/

/-- A word is its fields: bits 63:32, FRAMES, CH and OP (R92). -/
theorem word_eq_command_fields (w : Word) :
    w.extractLsb' 32 32 ++ w.extractLsb' 12 20 ++ w.extractLsb' 4 8 ++ w.extractLsb' 0 4 = w := by
  have h1 : w.extractLsb' 32 32 ++ w.extractLsb' 12 20 = w.extractLsb' 12 52 :=
    BitVec.extractLsb'_append_extractLsb'_eq_extractLsb' rfl
  have h2 : w.extractLsb' 12 52 ++ w.extractLsb' 4 8 = w.extractLsb' 4 60 :=
    BitVec.extractLsb'_append_extractLsb'_eq_extractLsb' rfl
  have h3 : w.extractLsb' 4 60 ++ w.extractLsb' 0 4 = w.extractLsb' 0 64 :=
    BitVec.extractLsb'_append_extractLsb'_eq_extractLsb' rfl
  rw [h1, h2, h3, BitVec.extractLsb'_eq_self]

theorem command_fields_ext {v w : Word} (hhigh : v.extractLsb' 32 32 = w.extractLsb' 32 32)
    (hframes : v.extractLsb' 12 20 = w.extractLsb' 12 20) (hch : v.extractLsb' 4 8 = w.extractLsb' 4 8)
    (hop : v.extractLsb' 0 4 = w.extractLsb' 0 4) : v = w := by
  rw [← word_eq_command_fields v, hhigh, hframes, hch, hop, word_eq_command_fields]

theorem processWord_fields (ch : BitVec 8) (frames : BitVec 20) :
    (processWord ch frames).extractLsb' 32 32 = 0#32 ∧ (processWord ch frames).extractLsb' 12 20 = frames ∧
      (processWord ch frames).extractLsb' 4 8 = ch ∧ (processWord ch frames).extractLsb' 0 4 = 2#4 := by
  refine ⟨?high, ?frames, ?ch, BitVec.extractLsb'_append_eq_right⟩
  case ch => exact (BitVec.extractLsb'_append_eq_of_le (by decide)).trans BitVec.extractLsb'_append_eq_right
  case frames =>
    exact (BitVec.extractLsb'_append_eq_of_le (by decide)).trans
      ((BitVec.extractLsb'_append_eq_of_le (by decide)).trans BitVec.extractLsb'_append_eq_right)
  case high =>
    exact (BitVec.extractLsb'_append_eq_of_le (by decide)).trans
      ((BitVec.extractLsb'_append_eq_of_le (by decide)).trans BitVec.extractLsb'_append_eq_left)

theorem processWord_eq_self {w : Word} (hhigh : w.extractLsb' 32 32 = 0#32) (hop : w.extractLsb' 0 4 = 2#4) :
    processWord (w.extractLsb' 4 8) (w.extractLsb' 12 20) = w := by
  conv_rhs => rw [← word_eq_command_fields w, hhigh, hop]
  rfl

/-- The pattern of PROCESS under its mask: bits 63:32 are 0 and OP is 2 (R93). -/
theorem process_pattern_iff (w : Word) :
    w &&& 0xFFFFFFFF0000000F#64 = 2#64 ↔ w.extractLsb' 32 32 = 0#32 ∧ w.extractLsb' 0 4 = 2#4 := by
  have hhigh : (w &&& 0xFFFFFFFF0000000F#64).extractLsb' 32 32 = w.extractLsb' 32 32 :=
    BitVec.extractLsb'_and.trans BitVec.and_allOnes
  have hop : (w &&& 0xFFFFFFFF0000000F#64).extractLsb' 0 4 = w.extractLsb' 0 4 :=
    BitVec.extractLsb'_and.trans BitVec.and_allOnes
  constructor
  · intro h
    rw [← hhigh, ← hop, h]
    decide
  · rintro ⟨hhigh0, hop2⟩
    exact command_fields_ext (hhigh.trans hhigh0) (BitVec.extractLsb'_and.trans BitVec.and_zero)
      (BitVec.extractLsb'_and.trans BitVec.and_zero) (hop.trans hop2)

/-- The word R102 gives CMD PROCESS, written with shifts, is the fields side by side (R92). -/
theorem shifts_eq_processWord (ch : BitVec 8) (frames : BitVec 20) :
    BitVec.ofNat 64 frames.toNat <<< 12 ||| BitVec.ofNat 64 ch.toNat <<< 4 ||| 2#64 = processWord ch frames := by
  rw [processWord, ← BitVec.setWidth_eq (0#32 ++ frames ++ ch ++ 2#4),
    BitVec.setWidth_append_append_append_eq_shiftLeft_setWidth_or]
  simp

/-! ### The command decoder, one rule per pattern (R93, R95) -/

theorem decodeCommand_nop : decodeCommand 0#64 = .nop := by decide

theorem decodeCommand_prepare : decodeCommand 1#64 = .prepare := by decide

theorem decodeCommand_process {w : Word} (h : w &&& 0xFFFFFFFF0000000F#64 = 2#64) :
    decodeCommand w = .process (w.extractLsb' 4 8) (w.extractLsb' 12 20) := by
  obtain ⟨hhigh, hop⟩ := (process_pattern_iff w).mp h
  unfold decodeCommand
  rw [if_neg (not_not_intro hhigh), if_pos hop]

theorem decodeCommand_reserved {w : Word} (h0 : w ≠ 0#64) (h1 : w ≠ 1#64)
    (h2 : w &&& 0xFFFFFFFF0000000F#64 ≠ 2#64) : decodeCommand w = .reserved w := by
  by_cases hhigh : w.extractLsb' 32 32 = 0#32
  · have hop : w.extractLsb' 0 4 ≠ 2#4 := fun hop => h2 ((process_pattern_iff w).mpr ⟨hhigh, hop⟩)
    rw [decodeCommand, if_neg (not_not_intro hhigh), if_neg hop, if_neg h0, if_neg h1]
  · rw [decodeCommand, if_pos hhigh]

theorem wellFormedCommand_eq_false_iff (w : Word) :
    wellFormedCommand w = false ↔ w ≠ 0#64 ∧ w ≠ 1#64 ∧ w &&& 0xFFFFFFFF0000000F#64 ≠ 2#64 := by
  simp [wellFormedCommand, and_assoc]

/-- Every word matches one of the three patterns or is reserved, and decodes by it (R93, R95). -/
theorem decodeCommand_cases (w : Word) :
    w = 0#64 ∧ decodeCommand w = .nop ∨ w = 1#64 ∧ decodeCommand w = .prepare ∨
    (processWord (w.extractLsb' 4 8) (w.extractLsb' 12 20) = w ∧
      decodeCommand w = .process (w.extractLsb' 4 8) (w.extractLsb' 12 20)) ∨
    (wellFormedCommand w = false ∧ decodeCommand w = .reserved w) := by
  by_cases h0 : w = 0#64
  · exact .inl ⟨h0, h0 ▸ decodeCommand_nop⟩
  by_cases h1 : w = 1#64
  · exact .inr (.inl ⟨h1, h1 ▸ decodeCommand_prepare⟩)
  by_cases h2 : w &&& 0xFFFFFFFF0000000F#64 = 2#64
  · obtain ⟨hhigh, hop⟩ := (process_pattern_iff w).mp h2
    exact .inr (.inr (.inl ⟨processWord_eq_self hhigh hop, decodeCommand_process h2⟩))
  · exact .inr (.inr (.inr ⟨(wellFormedCommand_eq_false_iff w).mpr ⟨h0, h1, h2⟩, decodeCommand_reserved h0 h1 h2⟩))

/-- The word of a command; `encodeForm_commandInstr` says that it is the one the encoder writes. -/
def commandWord : Command → Word
  | .nop => 0#64
  | .prepare => 1#64
  | .process ch frames => processWord ch frames
  | .reserved w => w

/-- No word is lost in decoding: the command says which word it was read from (R95, D35). -/
theorem commandWord_decodeCommand (w : Word) : commandWord (decodeCommand w) = w := by
  rcases decodeCommand_cases w with ⟨rfl, h⟩ | ⟨rfl, h⟩ | ⟨hw, h⟩ | ⟨_, h⟩ <;> rw [h]
  · rfl
  · rfl
  · exact hw
  · rfl

theorem decodeCommand_processWord (ch : BitVec 8) (frames : BitVec 20) :
    decodeCommand (processWord ch frames) = .process ch frames := by
  obtain ⟨hhigh, hframes, hch, hop⟩ := processWord_fields ch frames
  rw [decodeCommand_process ((process_pattern_iff _).mpr ⟨hhigh, hop⟩), hframes, hch]

/-- The commands that a word decodes to are the well-formed ones (R95). -/
theorem decodeCommand_commandWord {c : Command} (h : wellFormed (commandInstr c) = true) :
    decodeCommand (commandWord c) = c := by
  cases c with
  | nop => exact decodeCommand_nop
  | prepare => exact decodeCommand_prepare
  | process ch frames => exact decodeCommand_processWord ch frames
  | reserved w =>
    obtain ⟨h0, h1, h2⟩ := (wellFormedCommand_eq_false_iff w).mp (Bool.not_eq_true' _ ▸ h)
    exact decodeCommand_reserved h0 h1 h2

theorem wellFormed_decodeCommand (w : Word) : wellFormed (commandInstr (decodeCommand w)) = true := by
  rcases decodeCommand_cases w with ⟨_, h⟩ | ⟨_, h⟩ | ⟨_, h⟩ | ⟨hill, h⟩ <;> rw [h]
  · rfl
  · rfl
  · rfl
  · simp [commandInstr, wellFormed, hill]

theorem encodeForm_commandInstr (c : Command) : encodeForm (commandInstr c) = .cmd (commandWord c) := by
  cases c <;> rfl

/-! ### Transactions (R91) -/

theorem encodeForm_readInstr (r : Reg) : encodeForm (readInstr r) = .bus (readTransaction (regOffset r)) := by
  cases r <;> rfl

theorem encodeForm_writeInstr (v : Word) (r : Reg) :
    encodeForm (writeInstr v r) = .bus (writeTransaction (regOffset r) v) := by
  cases r <;> rfl

theorem wellFormed_readInstr (r : Reg) : wellFormed (readInstr r) = true := by
  cases r <;> rfl

theorem wellFormed_writeInstr (v : Word) (r : Reg) : wellFormed (writeInstr v r) = true := by
  cases r <;> rfl

/-- An access the check lets through is a full-size one to a register or a frame word (R65, R79, R270). -/
theorem legalAccess_cases {offset : BitVec 24} {lanesOff : BitVec 8} (h : illegalAccess offset lanesOff = false) :
    lanesOff = 0#8 ∧ ((∃ r, offset = BitVec.ofNat 24 (regOffset r)) ∨
      ∃ i < Config.frameMemWords, offset = BitVec.ofNat 24 (frameOffset i)) := by
  simp only [illegalAccess, Bool.or_eq_false_iff, bne_eq_false_iff_eq, Bool.and_eq_false_iff,
    decide_eq_false_iff_not, Nat.not_le, Nat.not_lt] at h
  obtain ⟨⟨⟨hlanes, haligned⟩, hreserved⟩, hend⟩ := h
  refine ⟨hlanes, ?_⟩
  rcases hreserved with hlow | hbase
  · obtain ⟨r, hr⟩ := Option.isSome_iff_exists.mp (regAt_isSome hlow haligned)
    exact .inl ⟨r, by rw [← regAt_eq_some hr, BitVec.ofNat_toNat, BitVec.setWidth_eq]⟩
  · simp only [Config.frameEnd, Config.frameBase, Config.frameMemWords] at hbase hend
    have hi : frameOffset ((offset.toNat - 0x1000) / 8) = offset.toNat := by
      simp only [frameOffset, Config.frameBase]
      omega
    refine .inr ⟨(offset.toNat - 0x1000) / 8, ?_, ?_⟩
    · simp only [Config.frameMemWords]
      omega
    · rw [hi, BitVec.ofNat_toNat, BitVec.setWidth_eq]

/-- An access the check refuses is BUS.ILLEGAL (R91, R270). -/
theorem decodeTransaction_of_illegal {t : Transaction} (h : illegalAccess t.offset t.lanesOff = true) :
    decodeTransaction t = illegalInstr t := by
  simp only [illegalAccess, Bool.or_eq_true, bne_iff_ne, Bool.and_eq_true, decide_eq_true_eq] at h
  unfold decodeTransaction
  split
  · rfl
  · rename_i hfull
    obtain ⟨hlanes, haligned⟩ := not_or.mp hfull
    have hunmapped : 0x080 ≤ t.offset.toNat ∧
        ¬(Config.frameBase ≤ t.offset.toNat ∧ t.offset.toNat < Config.frameEnd) := by
      simp only [Config.frameEnd, Config.frameBase, Config.frameMemWords] at h ⊢
      rcases h with ((hpart | hmisaligned) | hreserved) | hend
      · exact absurd hpart hlanes
      · exact absurd hmisaligned haligned
      · omega
      · omega
    obtain ⟨hno_register, hno_frame⟩ := hunmapped
    rw [regAt_of_le hno_register]
    exact if_neg hno_frame

/-- What the decoder keeps of a transaction: the data lines of a read carry nothing (R91, log 11). -/
def withoutReadData (t : Transaction) : Transaction := { t with data := if t.write then t.data else 0#64 }

/-- What a transaction decodes to is well formed and encodes back to it, the data of a read apart (R91). -/
theorem decodeTransaction_wellFormed_and_encodeForm (t : Transaction) :
    wellFormed (decodeTransaction t) = true ∧ encodeForm (decodeTransaction t) = .bus (withoutReadData t) := by
  obtain ⟨write, offset, lanesOff, data⟩ := t
  cases hill : illegalAccess offset lanesOff with
  | true =>
    rw [decodeTransaction_of_illegal hill]
    refine ⟨?_, rfl⟩
    cases write <;> simp [illegalInstr, wellFormed, hill]
  | false =>
    obtain ⟨rfl, ⟨r, rfl⟩ | ⟨i, hi, rfl⟩⟩ := legalAccess_cases hill
    · rw [decodeTransaction_register]
      cases write
      · exact ⟨wellFormed_readInstr r, encodeForm_readInstr r⟩
      · exact ⟨wellFormed_writeInstr data r, encodeForm_writeInstr data r⟩
    · rw [decodeTransaction_frame _ hi]
      cases write <;> exact ⟨decide_eq_true hi, rfl⟩

/-! ### State codes (R100) -/

theorem seqCode_seqOfCode (c : BitVec 3) : seqCode (seqOfCode c) = c := by
  revert c
  decide

theorem encodeForm_seqInstr (q : SeqState) : encodeForm (seqInstr q) = .seq (seqCode q) := by
  cases q <;> rfl

theorem wellFormed_seqInstr (q : SeqState) : wellFormed (seqInstr q) = true := by
  cases q <;> rfl

/-! ### The three forms as bytes (R67, R90) -/

/-- The instruction of an encoding; `decode_encodedBytes` says that it is what the decoder reads from its bytes. -/
def instrOfEncoded : Encoded → Instr
  | .bus t => decodeTransaction t
  | .cmd w => commandInstr (decodeCommand w)
  | .seq c => seqInstr (seqOfCode c)

theorem decode_encodedBytes (e : Encoded) : decode (encodedForm e) (encodedBytes e) = .ok (instrOfEncoded e) := by
  cases e with
  | bus t => exact decode_transactionBytes t
  | cmd w => exact decode_wordBytes w
  | seq c =>
    have h := decode_seqCode (seqOfCode c)
    rwa [seqCode_seqOfCode] at h

/-- The bytes of the word of eight bytes are those bytes (R67). -/
theorem wordBytes_leWord (f : Nat → Byte) : wordBytes (leWord f) = [f 0, f 1, f 2, f 3, f 4, f 5, f 6, f 7] := by
  simp [wordBytes, leByte_leWord]

/-- The byte offset of a descriptor and its three bytes (R67, R91). -/
theorem offset_bytes (b2 b1 b0 : Byte) :
    (b2 ++ b1 ++ b0).extractLsb' 0 8 = b0 ∧ (b2 ++ b1 ++ b0).extractLsb' 8 8 = b1 ∧
      (b2 ++ b1 ++ b0).extractLsb' 16 8 = b2 := by
  refine ⟨BitVec.extractLsb'_append_eq_right, ?_, ?_⟩
  · exact (BitVec.extractLsb'_append_eq_of_le (Nat.le_refl 8)).trans BitVec.extractLsb'_append_eq_right
  · exact (BitVec.extractLsb'_append_eq_of_le (by decide)).trans BitVec.extractLsb'_append_eq_left

/-- The thirteen bytes a transaction is read from are its bytes (R91). -/
theorem transactionBytes_of_bytes {bs : List Byte} {t : Transaction} (hlen : bs.length = 13)
    (h : transactionOfBytes bs = .ok t) : transactionBytes t = bs := by
  match bs, hlen with
  | [b0, b1, b2, b3, b4, b5, b6, b7, b8, b9, b10, b11, b12], _ =>
    unfold transactionOfBytes at h
    split at h
    · rename_i hb3
      cases h
      obtain ⟨h0, h1, h2⟩ := offset_bytes b2 b1 b0
      have hw : (if b3 = 1#8 then 1#8 else 0#8) = b3 := by
        rcases hb3 with rfl | rfl <;> rfl
      simpa [transactionBytes, wordBytes_leWord, h0, h1, h2] using hw
    · cases h

/-- Whatever decodes was read from the bytes of an encoding (R90). -/
theorem decode_eq_ok {f : Form} {bs : List Byte} {i : Instr} (h : decode f bs = .ok i) :
    ∃ e, f = encodedForm e ∧ bs = encodedBytes e ∧ i = instrOfEncoded e := by
  unfold decode at h
  split at h
  · cases h
  rename_i hlen
  rw [not_not] at hlen
  cases f with
  | bus =>
    cases ht : transactionOfBytes bs with
    | ok t =>
      simp only [ht, Except.ok.injEq] at h
      exact ⟨.bus t, rfl, (transactionBytes_of_bytes hlen ht).symm, h.symm⟩
    | error e => simp [ht] at h
  | cmd =>
    match bs, hlen with
    | [b0, b1, b2, b3, b4, b5, b6, b7], _ =>
      refine ⟨.cmd _, rfl, ?_, (Except.ok.inj h).symm⟩
      exact (wordBytes_leWord fun k => [b0, b1, b2, b3, b4, b5, b6, b7].getD k 0#8).symm
  | seq =>
    match bs, hlen with
    | [b], _ =>
      dsimp only at h
      split at h
      · rename_i hb
        refine ⟨.seq (b.setWidth 3), rfl, ?_, (Except.ok.inj h).symm⟩
        have hcode : (b.setWidth 3).setWidth 8 = b := by
          apply BitVec.eq_of_toNat_eq
          rw [List.getD_cons_zero] at hb
          rw [BitVec.toNat_setWidth, BitVec.toNat_setWidth]
          omega
        rw [encodedBytes, hcode]
      · cases h

/-- Every well-formed instruction is the one its encoding stands for: its own command, state or access. -/
theorem instrOfEncoded_encodeForm {i : Instr} (h : wellFormed i = true) : instrOfEncoded (encodeForm i) = i := by
  cases i with
  | rdFrame i => exact decodeTransaction_frame false (of_decide_eq_true h) 0#64
  | wrFrame i v => exact decodeTransaction_frame true (of_decide_eq_true h) v
  | busIllegal write offset lanesOff data =>
    obtain ⟨hill, hdata⟩ := (Bool.and_eq_true _ _).mp h
    refine (decodeTransaction_of_illegal hill).trans ?_
    cases write with
    | true => rfl
    | false =>
      rw [eq_of_beq hdata]
      rfl
  | cmdNop => exact congrArg commandInstr (decodeCommand_commandWord (c := .nop) h)
  | cmdPrepare => exact congrArg commandInstr (decodeCommand_commandWord (c := .prepare) h)
  | cmdProcess ch frames => exact congrArg commandInstr (decodeCommand_commandWord (c := .process ch frames) h)
  | cmdReserved w => exact congrArg commandInstr (decodeCommand_commandWord (c := .reserved w) h)
  | seqIdle | seqStart | seqFdlRead | seqDownmix | seqUpmix | seqWriteback | seqCursorAdv | seqOscAdv => rfl
  | _ => exact decodeTransaction_register _ _ _

/-- What the decoder keeps of an encoding: all of it but the data lines of a read (log 11). -/
def canonicalEncoded : Encoded → Encoded
  | .bus t => .bus (withoutReadData t)
  | e => e

/-- What an encoding stands for is well formed and encodes to what the decoder keeps (R91, R95, R100). -/
theorem instrOfEncoded_wellFormed_and_encodeForm (e : Encoded) :
    wellFormed (instrOfEncoded e) = true ∧ encodeForm (instrOfEncoded e) = canonicalEncoded e := by
  cases e with
  | bus t => exact decodeTransaction_wellFormed_and_encodeForm t
  | cmd w =>
    refine ⟨wellFormed_decodeCommand w, ?_⟩
    rw [instrOfEncoded, encodeForm_commandInstr, commandWord_decodeCommand]
    rfl
  | seq c =>
    refine ⟨wellFormed_seqInstr _, ?_⟩
    rw [instrOfEncoded, encodeForm_seqInstr, seqCode_seqOfCode]
    rfl

theorem encodedForm_canonical (e : Encoded) : encodedForm (canonicalEncoded e) = encodedForm e := by
  cases e <;> rfl

/-- In bytes, dropping the data of a read is writing 0 into the eight data bytes (log 11). -/
theorem encodedBytes_canonical (e : Encoded) :
    encodedBytes (canonicalEncoded e) =
      if encodedForm e = .bus ∧ (encodedBytes e).getD 3 0#8 = 0#8 then
        (encodedBytes e).take 4 ++ List.replicate 8 0#8 ++ (encodedBytes e).drop 12
      else encodedBytes e := by
  cases e with
  | bus t =>
    obtain ⟨write, offset, lanesOff, data⟩ := t
    cases write with
    | true =>
      have hwrite : (1#8 : Byte) ≠ 0#8 := by decide
      exact (if_neg fun h => hwrite h.2).symm
    | false =>
      have hzero : wordBytes 0#64 = List.replicate 8 0#8 := by decide
      rw [if_pos ⟨rfl, rfl⟩]
      exact congrArg (fun bytes => (transactionBytes ⟨false, offset, lanesOff, data⟩).take 4 ++ bytes ++ [lanesOff]) hzero
  | cmd w => exact (if_neg fun h => nomatch h.1).symm
  | seq c => exact (if_neg fun h => nomatch h.1).symm

/-! ### WAIT (R102) -/

/-- A flag placed at bit k is read back there, and every other bit is 0. -/
theorem bitAt_getLsbD (b : Bool) {k : Nat} (hk : k < 64) (j : Nat) :
    (bitAt b k).getLsbD j = (b && decide (j = k)) := by
  cases b with
  | false => exact BitVec.getLsbD_zero
  | true =>
    rw [bitAt, if_pos rfl, Bool.true_and, ← BitVec.twoPow_eq, BitVec.getLsbD_twoPow, decide_eq_true hk, Bool.true_and]
    exact decide_eq_decide.mpr eq_comm

/-- BUSY is bit 1 of the word a read of STATUS returns (R22). -/
theorem statusWord_getLsbD_busy (st : Status) : (statusWord st).getLsbD 1 = st.busy := by
  simp only [statusWord, BitVec.getLsbD_or, bitAt_getLsbD, Nat.reduceLT]
  simp

/-- At WAIT the Host reads STATUS, and WAIT stays pending while BUSY is 1 (R102). -/
theorem fetchHost_wait {s : State} {rest : List HostItem} (h : s.host = .wait :: rest) :
    fetchHost s = .run .rdStatus { s with host := if s.status.busy then .wait :: rest else rest } := by
  unfold fetchHost
  rw [h]
  exact congrArg (Fetched.run · _) (decodeTransaction_register false .status 0#64)

/-! ### Host programs (R101, R102) -/

theorem loadItems_length (i : Nat) (vs : List HostValue) : (loadItems i vs).length = vs.length := by
  induction vs generalizing i with
  | nil => rfl
  | cons v vs ih => exact congrArg (· + 1) (ih (i + 1))

theorem loadItems_getElem? (i k : Nat) (vs : List HostValue) :
    (loadItems i vs)[k]? = vs[k]?.map fun v => writeItem (frameOffset (i + k)) (hostValueWord v) := by
  induction vs generalizing i k with
  | nil => rfl
  | cons v vs ih =>
    cases k with
    | zero => rfl
    | succ k =>
      rw [loadItems, List.getElem?_cons_succ, List.getElem?_cons_succ, ih, Nat.add_assoc, Nat.add_comm 1 k]

theorem hostValueWord_decimal_up (neg : Bool) (digits e : Nat) :
    hostValueWord (.decimal neg digits (e : Int)) = fmtOfRatio neg (digits * 10 ^ e) 1 := by
  rw [hostValueWord, if_pos (Int.natCast_nonneg e), Int.toNat_natCast]

/-- With exponent 0 both forms of a decimal number are its digits. -/
theorem hostValueWord_decimal_down (neg : Bool) (digits e : Nat) :
    hostValueWord (.decimal neg digits (-(e : Int))) = fmtOfRatio neg digits (10 ^ e) := by
  cases e with
  | zero => exact (hostValueWord_decimal_up neg digits 0).trans (by rw [pow_zero, mul_one])
  | succ e =>
    have hneg : ¬ (0 : Int) ≤ -((e + 1 : Nat) : Int) := by omega
    rw [hostValueWord, if_neg hneg, neg_neg, Int.toNat_natCast]

/-- A decimal number is the binary64 value nearest to it, ties to even (R101). -/
theorem hostValueWord_decimal_roundedTo (neg : Bool) (digits e : Nat) :
    roundedTo (hostValueWord (.decimal neg digits (e : Int))) neg (digits * 10 ^ e * oneUnits) 1 ∧
    roundedTo (hostValueWord (.decimal neg digits (-(e : Int)))) neg (digits * oneUnits) (10 ^ e) := by
  rw [hostValueWord_decimal_up, hostValueWord_decimal_down]
  exact ⟨roundedTo_pack neg _ Nat.one_pos, roundedTo_pack neg _ (Nat.pow_pos (by decide))⟩

/-! ### The statements -/

/-- Settles O1: the bytes of an encoding decode to its instruction, which for the encoding of a well-formed one is that
instruction again. -/
theorem decodeOfEncodeIsTheInstruction : Obligations.DecodeOfEncodeIsTheInstruction := by
  intro i h
  have hdecode := decode_encodedBytes (encodeForm i)
  rw [instrOfEncoded_encodeForm h] at hdecode
  exact hdecode

/-- Settles O2: what decodes was read from the bytes of an encoding, and encodes to what the decoder keeps of it. -/
theorem decodedInstructionsAreWellFormed : Obligations.DecodedInstructionsAreWellFormed := by
  intro f bs i h
  obtain ⟨e, rfl, rfl, rfl⟩ := decode_eq_ok h
  obtain ⟨hwf, henc⟩ := instrOfEncoded_wellFormed_and_encodeForm e
  rw [encode, henc]
  exact ⟨hwf, encodedForm_canonical e, encodedBytes_canonical e⟩

/-- Settles O3: a command gives back the word it was read from, and the decoder has one rule per pattern for the
converses. -/
theorem commandWordsMatchThePatterns : Obligations.CommandWordsMatchThePatterns := by
  intro w
  have hword : ∀ c, decodeCommand w = c → w = commandWord c := fun c h => h ▸ (commandWord_decodeCommand w).symm
  refine ⟨⟨hword .nop, fun h => h ▸ decodeCommand_nop⟩, ⟨hword .prepare, fun h => h ▸ decodeCommand_prepare⟩,
    fun ch frames => ⟨fun h => ?_, fun ⟨hpattern, hch, hframes⟩ => ?_⟩,
    fun ⟨h0, h1, h2⟩ => decodeCommand_reserved h0 h1 h2⟩
  · obtain ⟨hhigh, hframes, hch, hop⟩ := processWord_fields ch frames
    have hw : w = processWord ch frames := hword _ h
    rw [← hw] at hhigh hframes hch hop
    exact ⟨(process_pattern_iff w).mpr ⟨hhigh, hop⟩, hch, hframes⟩
  · rw [decodeCommand_process hpattern, hch, hframes]

/-- Settles O4: decoding has a left inverse. -/
theorem commandDecodeIsInjective : Obligations.CommandDecodeIsInjective :=
  Function.LeftInverse.injective (g := commandWord) commandWord_decodeCommand

/-- Settles O9: each line is its list of items by definition, and the decoder's rules for registers and frame words say
what each item is. -/
theorem programLinesAreTheirAccesses : Obligations.ProgramLinesAreTheirAccesses := by
  refine ⟨?rd, ?wr, ?rdf, ?wrf, ?cmdProcess, ?dbg, ?setp, ?init, ?cmdNop, ?cmdPrepare, rfl, ?loadf, fun _ => rfl,
    hostValueWord_decimal_roundedTo, ?integer⟩
  case rd => exact fun r => ⟨_, rfl, decodeTransaction_register false r _⟩
  case wr => exact fun r v => ⟨_, rfl, decodeTransaction_register true r _⟩
  case rdf => exact fun i hi => ⟨_, rfl, decodeTransaction_frame false hi _⟩
  case wrf => exact fun i hi v => ⟨_, rfl, decodeTransaction_frame true hi _⟩
  case cmdProcess =>
    intro ch hch frames hframes
    refine ⟨_, rfl, (decodeTransaction_register true .cmd _).trans ?_⟩
    have h := shifts_eq_processWord (BitVec.ofNat 8 ch) (BitVec.ofNat 20 frames)
    rw [BitVec.toNat_ofNat, BitVec.toNat_ofNat, Nat.mod_eq_of_lt hch, Nat.mod_eq_of_lt hframes] at h
    exact congrArg Instr.wrCmd h
  case dbg =>
    exact fun i => ⟨_, _, rfl, decodeTransaction_register true .dbgIndex _, decodeTransaction_register false .dbgData _⟩
  case setp =>
    exact fun d f w a r => ⟨_, _, _, _, _, rfl, decodeTransaction_register true .delaySecs _,
      decodeTransaction_register true .feedback _, decodeTransaction_register true .wetmix _,
      decodeTransaction_register true .amount _, decodeTransaction_register true .rate _⟩
  case init =>
    exact fun sr =>
      ⟨_, _, rfl, decodeTransaction_register true .sampleRate _, decodeTransaction_register true .cmd _⟩
  case cmdNop => exact ⟨_, rfl, decodeTransaction_register true .cmd _⟩
  case cmdPrepare => exact ⟨_, rfl, decodeTransaction_register true .cmd _⟩
  case loadf =>
    intro i vs hlen
    refine ⟨loadItems_length i vs, fun k v hv => ⟨writeTransaction (frameOffset (i + k)) (hostValueWord v), ?_, ?_⟩⟩
    · rw [assemble, loadItems_getElem?, hv]
      rfl
    · have hk : k < vs.length := (List.getElem?_eq_some_iff.mp hv).1
      exact decodeTransaction_frame true (Nat.lt_of_lt_of_le (Nat.add_lt_add_left hk i) hlen) _
  case integer => exact fun n hn => (BitVec.toNat_ofNat n 64).trans (Nat.mod_eq_of_lt hn)

/-- Settles O8: the read of STATUS answers BUSY in bit 1, and WAIT stays pending by the same BUSY. -/
theorem waitPollsStatusUntilIdle : Obligations.WaitPollsStatusUntilIdle := by
  intro s ts rest hturns hhost
  have hbit := statusWord_getLsbD_busy s.status
  refine ⟨_, step_of_run ((fetch_of_host_turn hturns).trans (fetchHost_wait hhost)), rfl, rfl, hbit, ?_⟩
  exact (congrArg (fun b : Bool => if b then .wait :: rest else rest) hbit).symm

end Sys2Proof.Machine
end

section
/-! The ring buffer chapter (40_ringbuffer.md): WRAP as the one index of the history congruent to its operand, and the
advance of the write cursor. -/

namespace Sys2Proof.Machine

/-! ### WRAP (R120, R122) -/

/-- An operand is its wrapped index plus whole turns of the ring (R10, R120). -/
theorem sub_wrap_eq_ediv_mul (x : Int) {c : Nat} (hc : 0 < c) : x - (wrap x c : Int) = x / (c : Int) * (c : Int) := by
  rw [wrap_eq_emod x hc, Int.emod_def, sub_sub_cancel, mul_comm]

/-- Whole turns of the ring away from an index, an operand wraps to that index (R120). -/
theorem wrap_of_sub_eq_mul {x q : Int} {c r : Nat} (hr : r < c) (hx : x - (r : Int) = q * (c : Int)) :
    wrap x c = r := by
  have hmod : x % (c : Int) = r := by
    rw [eq_add_of_sub_eq hx, Int.mul_add_emod_self_right, ← Int.natCast_emod, Nat.mod_eq_of_lt hr]
  exact_mod_cast (wrap_eq_emod x (Nat.zero_lt_of_lt hr)).trans hmod

/-! ### The write cursor (R44, R126, R245) -/

/-- In a ring of at least one word the advance of the cursor does not fault (R125, R245). -/
theorem exec_seqCursorAdv {s : State} (hc : 0 < s.capacity.toNat) :
    exec .seqCursorAdv s = .next (goto .oscAdv { s with cursor := cursorNext s }) := by
  have hne : s.capacity ≠ 0#32 := fun h => by simp [h] at hc
  exact if_neg hne

/-- From a valid index the cursor takes the next one, and from the last the first (R44, R126). -/
theorem cursorNext_toNat_of_lt {s : State} (h : s.cursor.toNat < s.capacity.toNat) :
    (cursorNext s).toNat = if s.cursor.toNat + 1 = s.capacity.toNat then 0 else s.cursor.toNat + 1 := by
  rw [cursorNext_toNat (Nat.zero_lt_of_lt h)]
  split
  · next hlast => rw [hlast, Nat.mod_self]
  · next hinner => exact Nat.mod_eq_of_lt (Nat.lt_of_le_of_ne h hinner)

/-! ### The statements -/

/-- Settles O51: WRAP is an index in range, and the only one whole turns of the ring away from its operand. -/
theorem wrapIsTheFlooredModulus : Obligations.WrapIsTheFlooredModulus := by
  intro x c hc
  exact ⟨wrap_lt x hc, ⟨_, sub_wrap_eq_ediv_mul x hc⟩, fun r hr ⟨_, hx⟩ => (wrap_of_sub_eq_mul hr hx).symm⟩

/-- Settles O41: the action runs, as a valid cursor leaves the ring at least one word, and takes the next index. -/
theorem cursorAdvancesModuloCapacity : Obligations.CursorAdvancesModuloCapacity := by
  intro s h
  exact ⟨_, exec_seqCursorAdv (Nat.zero_lt_of_lt h), rfl, cursorNext_toNat_of_lt h⟩

end Sys2Proof.Machine
end

section
/-! The oscillator chapter (41_oscillator.md): the sine's range, the value of the oscillator between 0.5 and 1.5, and
the advance of the phase (R140 to R145). The bounds rest on one fact: rounding never crosses a value of the format. -/

namespace Sys2Proof.Machine

/-! ### Rounding never crosses a value of the format (R11) -/

/-- Rounding a value that is at most a finite magnitude does not overflow. -/
theorem roundUnits_lt_inf_of_le {num den p : Nat} (hd : 0 < den) (hp : p < infMag) (h : num ≤ magUnits p * den) :
    roundUnits num den < infMag := by
  have hexact : roundUnits (magUnits p * den) den ≠ infMag := by
    rw [roundUnits_exact (Nat.le_of_lt hp) hd]
    exact Nat.ne_of_lt hp
  refine Nat.lt_of_le_of_ne (roundUnits_le_inf num den) fun hover => hexact ?_
  rw [roundUnits_inf_iff_of_eq _ hd rfl] at hover ⊢
  exact hover.trans h

/-- From below: what is at most a finite magnitude's value rounds to at most that magnitude, as any greater one is
farther away. -/
theorem roundUnits_le_of_le {num den p : Nat} (hd : 0 < den) (hp : p < infMag) (h : num ≤ magUnits p * den) :
    roundUnits num den ≤ p := by
  have hnear := (roundUnits_nearest hd (roundUnits_lt_inf_of_le hd hp h) p).1
  by_contra hc
  have hfar : magUnits p * den < magUnits (roundUnits num den) * den :=
    Nat.mul_lt_mul_of_pos_right (magUnits_lt.mpr (Nat.not_le.mp hc)) hd
  zify at h hfar
  rw [abs_of_nonneg (by linarith), abs_of_nonneg (by linarith)] at hnear
  linarith

/-- From above: what is at least a magnitude's value rounds to at least that magnitude, as any lesser one is
farther away. -/
theorem le_roundUnits_of_le {num den p : Nat} (hd : 0 < den) (hp : p ≤ infMag) (h : magUnits p * den ≤ num) :
    p ≤ roundUnits num den := by
  by_contra hc
  have hlt : roundUnits num den < p := Nat.not_le.mp hc
  have hnear := (roundUnits_nearest hd (Nat.lt_of_lt_of_le hlt hp) p).1
  have hfar : magUnits (roundUnits num den) * den < magUnits p * den :=
    Nat.mul_lt_mul_of_pos_right (magUnits_lt.mpr hlt) hd
  zify at h hfar
  rw [abs_of_nonpos (by linarith), abs_of_nonpos (by linarith)] at hnear
  linarith

/-! ### Values and magnitudes (R12) -/

theorem fmtUnits_of_pos {x : Word} (h : fmtSign x = false) : fmtUnits x = magUnits (fmtMag x) := by
  unfold fmtUnits
  rw [h]
  rfl

/-- A value lies between the two values of any greater magnitude. -/
theorem fmtUnits_bounds_of_mag_le {x : Word} {p : Nat} (h : fmtMag x ≤ p) :
    -(magUnits p : Int) ≤ fmtUnits x ∧ fmtUnits x ≤ magUnits p := by
  have hle := magUnits_le.mpr h
  have habs := fmtUnits_natAbs x
  omega

theorem fmtIsFinite_of_mag_le {x y : Word} (hy : fmtIsFinite y = true) (h : fmtMag x ≤ fmtMag y) :
    fmtIsFinite x = true :=
  fmtIsFinite_iff.mpr (h.trans_lt (fmtIsFinite_iff.mp hy))

/-! ### The constants of OSC.VALUE (R140, R141) -/

theorem magUnits_fmtOne : magUnits (fmtMag fmtOne) = oneUnits := by
  unfold oneUnits
  rw [show fmtMag fmtOne = 1022 * 2 ^ 52 + 2 ^ 52 by decide, magUnits_scaled (by decide) (by decide), ← pow_add]

theorem two_mul_magUnits_half : 2 * magUnits (fmtMag 0x3FE0000000000000#64) = oneUnits := by
  unfold oneUnits
  rw [show fmtMag 0x3FE0000000000000#64 = 1021 * 2 ^ 52 + 2 ^ 52 by decide,
    magUnits_scaled (by decide) (by decide), ← pow_add, ← pow_succ']

theorem two_mul_magUnits_three_halves : 2 * magUnits (fmtMag 0x3FF8000000000000#64) = 3 * oneUnits := by
  unfold oneUnits
  rw [show fmtMag 0x3FF8000000000000#64 = 1022 * 2 ^ 52 + 3 * 2 ^ 51 by decide,
    magUnits_scaled (by decide) (by decide), Nat.mul_assoc, Nat.mul_left_comm, ← pow_add, ← pow_succ']

theorem fmtIsFinite_fmtOne : fmtIsFinite fmtOne = true := by decide

/-! ### Products and sums within bounds (R11) -/

/-- A factor of at most 1 does not raise the magnitude of a finite value. -/
theorem fmtMag_mul_le (d : Word) {x y : Word} (hx : fmtMag x ≤ fmtMag fmtOne) (hy : fmtIsFinite y = true) :
    fmtMag (fmtMul d x y) ≤ fmtMag y := by
  rw [fmtMul_finite (fmtIsFinite_of_mag_le fmtIsFinite_fmtOne hx) hy, fmtMag_pack _ (roundUnits_lt _ _)]
  apply roundUnits_le_of_le oneUnits_pos (fmtIsFinite_iff.mp hy)
  rw [Nat.mul_comm, ← magUnits_fmtOne]
  exact Nat.mul_le_mul_left _ (magUnits_le.mpr hx)

/-- A finite value times a zero is a zero, with the sign of the operands' signs. -/
theorem fmtMul_zero_right (d : Word) {x y : Word} (hx : fmtIsFinite x = true) (hy : fmtMag y = 0) :
    fmtMul d x y = fmtPack (fmtSign x != fmtSign y) 0 := by
  rw [fmtMul_finite hx (fmtIsFinite_of_mag_zero hy), hy, magUnits_zero, Nat.mul_zero, roundUnits_zero oneUnits_pos]

theorem fmtMul_posZero_right (d : Word) {x : Word} (hx : fmtIsFinite x = true) (hs : fmtSign x = false) :
    fmtMul d x 0x0000000000000000#64 = 0x0000000000000000#64 := by
  rw [fmtMul_zero_right d hx (by decide), hs]
  rfl

/-- A positive sum between two magnitudes' values is rounded to between these magnitudes. -/
theorem fmtAdd_between (d : Word) {x y : Word} {lo hi : Nat} (hx : fmtIsFinite x = true) (hy : fmtIsFinite y = true)
    (hpos : 0 < fmtUnits x + fmtUnits y) (hlo : (magUnits lo : Int) ≤ fmtUnits x + fmtUnits y)
    (hhi : fmtUnits x + fmtUnits y ≤ magUnits hi) (hlof : lo ≤ infMag) (hhif : hi < infMag) :
    fmtSign (fmtAdd d x y) = false ∧ lo ≤ fmtMag (fmtAdd d x y) ∧ fmtMag (fmtAdd d x y) ≤ hi := by
  rw [fmtAdd_finite hx hy, if_neg hpos.ne', fmtSign_pack _ (roundUnits_lt _ _), fmtMag_pack _ (roundUnits_lt _ _)]
  exact ⟨decide_eq_false (not_lt.mpr hpos.le), le_roundUnits_of_le Nat.one_pos hlof (by omega),
    roundUnits_le_of_le Nat.one_pos hhif (by omega)⟩

/-- A sum that is a value of the format is not rounded. -/
theorem fmtAdd_of_representable (d : Word) {x y w : Word} (hx : fmtIsFinite x = true) (hy : fmtIsFinite y = true)
    (hw : fmtIsFinite w = true) (h0 : fmtMag w ≠ 0) (hsum : fmtUnits x + fmtUnits y = fmtUnits w) :
    fmtAdd d x y = w := by
  have hne : fmtUnits w ≠ 0 := mt fmtUnits_eq_zero.mp h0
  have hsign : decide (fmtUnits w < 0) = fmtSign w := by
    unfold fmtUnits at hne ⊢
    cases fmtSign w <;> simp at hne ⊢
    omega
  rw [fmtAdd_finite hx hy, hsum, if_neg hne, hsign, fmtUnits_natAbs,
    roundUnits_exact_one (Nat.le_of_lt (fmtIsFinite_iff.mp hw)), fmtPack_parts]

/-- Adding a zero on the right leaves a value that is neither a zero nor a NaN. -/
theorem fmtAdd_zero_right (d : Word) {x y : Word} (hn : fmtIsNaN x = false) (h0 : fmtMag x ≠ 0)
    (hy : fmtMag y = 0) : fmtAdd d x y = x := by
  have hyf := fmtIsFinite_of_mag_zero hy
  cases hx : fmtIsInf x with
  | true => exact fmtAdd_of_inf_left d hx (fmtIsNaN_of_finite hyf) fun hyi => absurd hy (fmtMag_ne_zero_of_inf hyi)
  | false =>
    have hxf : fmtIsFinite x = true := by
      unfold fmtIsNaN at hn
      unfold fmtIsInf at hx
      rw [decide_eq_false_iff_not] at hn hx
      exact fmtIsFinite_iff.mpr (by omega)
    exact fmtAdd_of_representable d hxf hyf hxf h0 (by rw [fmtUnits_eq_zero.mpr hy, add_zero])

/-- Adding +0.0 to a zero gives +0.0, whatever the zero's sign. -/
theorem fmtAdd_zero_posZero (d : Word) {x : Word} (hx : fmtMag x = 0) :
    fmtAdd d x 0x0000000000000000#64 = 0x0000000000000000#64 := by
  obtain ⟨hmag, hsign⟩ := fmtAdd_zero_sum d (y := 0x0000000000000000#64) (fmtIsFinite_of_mag_zero hx) (by decide)
    (by rw [fmtUnits_eq_zero.mpr hx, fmtUnits_eq_zero.mpr (by decide), add_zero])
  exact fmt_ext (hsign.trans (Bool.and_false _)) hmag

/-- The format has two zeros. -/
theorem eq_posZero_or_negZero {x : Word} (h : fmtMag x = 0) :
    x = 0x0000000000000000#64 ∨ x = 0x8000000000000000#64 := by
  cases hs : fmtSign x with
  | false => exact .inl (fmt_ext hs h)
  | true => exact .inr (fmt_ext hs h)

/-- +0.0 over a finite positive value is +0.0. -/
theorem fmtDiv_zero_left (d : Word) {y : Word} (hy : fmtIsFinite y = true) (h0 : fmtMag y ≠ 0)
    (hs : fmtSign y = false) : fmtDiv d 0x0000000000000000#64 y = 0x0000000000000000#64 := by
  have hpos : 0 < magUnits (fmtMag y) := by
    rw [← magUnits_zero]
    exact magUnits_lt.mpr (Nat.pos_of_ne_zero h0)
  rw [fmtDiv_finite (by decide) hy h0, hs, show fmtMag 0x0000000000000000#64 = 0 by decide, magUnits_zero,
    Nat.zero_mul, roundUnits_zero hpos]
  rfl

/-! ### The sine (R142) -/

theorem fmtSin_of_zero {x : Word} (h : fmtMag x = 0) : fmtSin x = x := if_pos h

theorem fmtMag_sin_le {x : Word} (h : fmtIsFinite x = true) : fmtMag (fmtSin x) ≤ fmtMag fmtOne := by
  rcases fmtSin_cases x with ⟨hx, _⟩ | ⟨_, hle⟩
  · rw [h] at hx
    cases hx
  · exact hle

theorem fmtIsNaN_sin {x : Word} (h : fmtIsFinite x = false) : fmtIsNaN (fmtSin x) = true := by
  rcases fmtSin_cases x with ⟨_, hnan⟩ | ⟨hx, _⟩
  · exact hnan
  · rw [h] at hx
    cases hx

/-! ### The value of the oscillator (R140, R141) -/

/-- Half the sine is at most 0.5 in magnitude, so that 1.0 more lies between 0.5 and 1.5 and is rounded into it. -/
theorem oscValue_between (d : Nat → Word) {phase : Word} (h : fmtIsFinite (fmtMul (d 0) Config.twoPi phase) = true) :
    fmtSign (oscValue d phase) = false ∧ fmtMag 0x3FE0000000000000#64 ≤ fmtMag (oscValue d phase) ∧
    fmtMag (oscValue d phase) ≤ fmtMag 0x3FF8000000000000#64 := by
  have hhalf : fmtIsFinite 0x3FE0000000000000#64 = true := by decide
  have hmag := fmtMag_mul_le (d 1) (fmtMag_sin_le h) hhalf
  obtain ⟨hlow, hhigh⟩ := fmtUnits_bounds_of_mag_le hmag
  have hone : fmtUnits fmtOne = oneUnits := by rw [fmtUnits_of_pos (by decide), magUnits_fmtOne]
  have htwo := two_mul_magUnits_half
  have hthree := two_mul_magUnits_three_halves
  have hpos := oneUnits_pos
  exact fmtAdd_between (d 2) (fmtIsFinite_of_mag_le hhalf hmag) fmtIsFinite_fmtOne (by omega) (by omega) (by omega)
    (by decide) (by decide)

/-- At phase +0.0 the sine is +0.0, and so is its half (R141). -/
theorem oscValue_zero (d : Nat → Word) : oscValue d 0x0000000000000000#64 = fmtOne := by
  unfold oscValue
  rw [fmtMul_posZero_right _ (by decide) (by decide), fmtSin_of_zero (by decide), fmtMul_comm,
    fmtMul_posZero_right _ (by decide) (by decide)]
  exact fmtAdd_of_representable _ (by decide) fmtIsFinite_fmtOne fmtIsFinite_fmtOne (by decide)
    (by rw [fmtUnits_eq_zero.mpr (by decide), zero_add])

/-! ### The advance (R145, R246, R247) -/

/-- The state after the phase and the frame index have advanced, before the Sequencer goes on. -/
def oscAdvanced (s : State) : State :=
  drew { s with phase := oscNext (drawn s) s, frameIdx := s.frameIdx + 1#20 }

/-- OSC_ADV always answers a next state: at the next frame, or at the block's end. -/
theorem exec_seqOscAdv (s : State) :
    exec .seqOscAdv s = .next (if (s.frameIdx + 1#20).toNat < s.blkFrames.toNat
      then goto .fdlRead (oscAdvanced s) else blockEnd (oscAdvanced s)) :=
  (apply_ite _ _ _ _).symm

theorem exec_seqOscAdv_phase (s : State) :
    ∃ t, exec .seqOscAdv s = .next t ∧ t.phase = oscNext (drawn s) s := by
  refine ⟨_, exec_seqOscAdv s, ?_⟩
  split <;> rfl

/-- Inside the block the frame index does not wrap. -/
theorem frameIdx_succ_toNat {s : State} (h : s.frameIdx.toNat < s.blkFrames.toNat) :
    (s.frameIdx + 1#20).toNat = s.frameIdx.toNat + 1 := by
  bv_omega

/-! ### The statements -/

/-- Settles O52, one property of R142 at a time. -/
theorem sineHasTheAdmittedProperties : Obligations.SineHasTheAdmittedProperties := by
  refine ⟨fun _ _ => congrArg fmtSin, fun x hx => ?inRange, fmtSin_of_zero (by decide), fmtSin_of_zero (by decide),
    fun _ => fmtIsNaN_sin⟩
  case inRange =>
    have hmag := fmtMag_sin_le hx
    have hone : fmtUnits 0x3FF0000000000000#64 = magUnits (fmtMag fmtOne) := fmtUnits_of_pos (by decide)
    rw [hone]
    exact ⟨fmtIsFinite_of_mag_le fmtIsFinite_fmtOne hmag, fmtUnits_bounds_of_mag_le hmag⟩

/-- Settles O53: the magnitude lies between those of 0.5 and 1.5, and the sign is positive. -/
theorem oscillatorValueIsBounded : Obligations.OscillatorValueIsBounded := by
  refine ⟨fun d phase h => ?_, oscValue_zero⟩
  obtain ⟨hsign, hlow, hhigh⟩ := oscValue_between d h
  have hlowUnits := magUnits_le.mpr hlow
  have hhighUnits := magUnits_le.mpr hhigh
  have htwo := two_mul_magUnits_half
  have hthree := two_mul_magUnits_three_halves
  rw [fmtUnits_of_pos hsign]
  exact ⟨fmtIsFinite_of_mag_le (by decide) hhigh, by omega, by omega⟩

/-- Settles O60: the increment is +0.0, and adding it leaves each kind of phase as stated. -/
theorem zeroRateKeepsThePhase : Obligations.ZeroRateKeepsThePhase := by
  intro s hrate hfin hne hsign
  obtain ⟨t, hexec, hphase⟩ := exec_seqOscAdv_phase s
  unfold oscNext at hphase
  rw [hrate, fmtDiv_zero_left _ hfin hne hsign] at hphase
  refine ⟨t, hexec, ?same, ?negZero, ?nan⟩ <;> rw [hphase]
  case same =>
    intro hnan hnegZero
    by_cases h0 : fmtMag s.phase = 0
    · rw [fmtAdd_zero_posZero _ h0]
      exact ((eq_posZero_or_negZero h0).resolve_right hnegZero).symm
    · exact fmtAdd_zero_right _ hnan h0 (by decide)
  case negZero => exact fun h => fmtAdd_zero_posZero _ (by rw [h]; decide)
  case nan => exact fun h => fmtIsNaN_of_eq_fmtNaN (fmtAdd_of_nan _ (.inl h))

/-- Settles O42: the frame index after the advance decides which of the two ways the Sequencer goes on. -/
theorem oscAdvanceEndsTheTick : Obligations.OscAdvanceEndsTheTick := by
  intro s h
  have hidx := frameIdx_succ_toNat h
  refine ⟨_, exec_seqOscAdv s, ?_⟩
  split
  · next hlt => exact ⟨rfl, hidx, fun _ => ⟨rfl, rfl⟩, fun heq => absurd heq hlt.ne⟩
  · next hge => exact ⟨rfl, hidx, fun hlt => absurd hlt hge, fun _ => ⟨rfl, rfl⟩⟩

end Sys2Proof.Machine
end

section
/-! The delay line chapter (42_delay_line.md): the read position and the fraction beside it, the taps of a read,
the write-back, and the two bypass laws, which rest on one fact: adding a zero leaves every value but −0.0 and a
NaN (R161 to R178). -/

namespace Sys2Proof.Machine

/-! ### Sums with a zero, and sums that are one (R11) -/

theorem fmtIsFinite_of_not_nan_inf {x : Word} (hn : fmtIsNaN x = false) (hi : fmtIsInf x = false) :
    fmtIsFinite x = true := by
  have hle : ¬ infMag < fmtMag x := of_decide_eq_false hn
  have hne : fmtMag x ≠ infMag := of_decide_eq_false hi
  exact fmtIsFinite_iff.mpr (by omega)

/-- A whole number of units other than 0 does not round to 0. -/
theorem roundUnits_one_pos {n : Nat} (hn : 0 < n) : 0 < roundUnits n 1 :=
  le_roundUnits_of_le Nat.one_pos (by decide) (by rw [magUnits_of_lt (by decide)]; omega)

theorem fmtIsNaN_add_of_finite (d : Word) {x y : Word} (hx : fmtIsFinite x = true) (hy : fmtIsFinite y = true) :
    fmtIsNaN (fmtAdd d x y) = false := by
  by_cases h0 : fmtUnits x + fmtUnits y = 0
  · exact fmtIsNaN_of_finite (fmtIsFinite_of_mag_zero (fmtAdd_zero_sum d hx hy h0).1)
  · exact (fmtAdd_rounds d hx hy h0).2.1

/-- A sum whose first operand has no sign is not −0.0: an exact zero is +0.0, and nothing else rounds to a zero. -/
theorem fmtAdd_ne_negZero (d : Word) {x y : Word} (hx : fmtIsFinite x = true) (hy : fmtIsFinite y = true)
    (hs : fmtSign x = false) : fmtAdd d x y ≠ 0x8000000000000000#64 := by
  intro heq
  by_cases h0 : fmtUnits x + fmtUnits y = 0
  · have hsign := (fmtAdd_zero_sum d hx hy h0).2
    rw [heq, hs, Bool.false_and] at hsign
    exact absurd hsign (by decide)
  · have hmag : fmtMag (fmtAdd d x y) = 0 := by
      rw [heq]
      decide
    rw [fmtAdd_finite hx hy, if_neg h0, fmtMag_pack _ (roundUnits_lt _ _)] at hmag
    exact (roundUnits_one_pos (Int.natAbs_pos.mpr h0)).ne' hmag

/-- Adding a zero of either sign leaves every value but −0.0 and a NaN. -/
theorem fmtAdd_zero_right_of_ne_negZero (d : Word) {x y : Word} (hn : fmtIsNaN x = false)
    (hne : x ≠ 0x8000000000000000#64) (hy : fmtMag y = 0) : fmtAdd d x y = x := by
  by_cases h0 : fmtMag x = 0
  · obtain rfl := (eq_posZero_or_negZero h0).resolve_right hne
    obtain ⟨hmag, hsign⟩ := fmtAdd_zero_sum d (x := 0x0000000000000000#64) (by decide) (fmtIsFinite_of_mag_zero hy)
      (by rw [fmtUnits_eq_zero.mpr hy, fmtUnits_eq_zero.mpr (by decide), add_zero])
    exact fmt_ext hsign hmag
  · exact fmtAdd_zero_right d hn h0 hy

/-! ### Finite products (R18) -/

/-- A product is finite only if its first factor is. -/
theorem fmtIsFinite_left_of_mul {d x y : Word} (h : fmtIsFinite (fmtMul d x y) = true) : fmtIsFinite x = true := by
  have hne : fmtMul d x y ≠ fmtNaN d := fun he =>
    Bool.false_ne_true ((fmtIsNaN_of_finite h).symm.trans (fmtIsNaN_of_eq_fmtNaN he))
  have hx : fmtIsNaN x = false := Bool.eq_false_of_not_eq_true fun hx => hne (fmtMul_of_nan d (.inl hx))
  have hy : fmtIsNaN y = false := Bool.eq_false_of_not_eq_true fun hy => hne (fmtMul_of_nan d (.inr hy))
  refine fmtIsFinite_of_not_nan_inf hx (Bool.eq_false_of_not_eq_true fun hinf => ?_)
  by_cases h0 : fmtMag y = 0
  · exact hne (fmtMul_of_inf_zero d hinf h0)
  · rw [fmtMul_of_inf d hinf h0 hy, fmtIsFinite_of_inf (fmtIsInf_pack_inf _)] at h
    cases h

theorem fmtIsFinite_right_of_mul {d x y : Word} (h : fmtIsFinite (fmtMul d x y) = true) : fmtIsFinite y = true :=
  fmtIsFinite_left_of_mul (fmtMul_comm d x y ▸ h)

/-! ### The read position (R161 to R163, R174) -/

theorem fmtSign_ofNat (n : Nat) : fmtSign (fmtOfNat n) = false := fmtSign_pack _ (roundUnits_lt _ _)

theorem fmtIsFinite_cursor (s : State) : fmtIsFinite (fmtOfNat s.cursor.toNat) = true :=
  fmtIsFinite_ofNat (s.cursor.isLt.le.trans (by decide))

/-- With amount +0.0 the modulation is a zero, wherever its product is finite (R174). -/
theorem fmtMag_modulation_of_zero_amount {d : Nat → Word} {s : State} (ha : s.amount = 0x0000000000000000#64)
    (h : fmtIsFinite (fmtMul (d 4) (oscValue d s.phase) (delaySamples d s)) = true) :
    fmtMag (modulation d s) = 0 := by
  unfold modulation
  rw [ha, fmtMul_zero_right _ h (by decide)]
  exact fmtMag_pack _ (by decide)

/-- A modulation that is a zero leaves the read position at the nominal delay, as the cursor is never negative
(R163). -/
theorem readPos_of_zero_modulation {d : Nat → Word} {s : State} (hdelay : fmtIsFinite (delaySamples d s) = true)
    (hmod : fmtMag (modulation d s) = 0) :
    readPos d s = fmtSub (d 6) (fmtOfNat s.cursor.toNat) (delaySamples d s) := by
  have hneg : fmtIsFinite (fmtNeg (delaySamples d s)) = true := (fmtIsFinite_neg _).trans hdelay
  exact fmtAdd_zero_right_of_ne_negZero _ (fmtIsNaN_add_of_finite _ (fmtIsFinite_cursor s) hneg)
    (fmtAdd_ne_negZero _ (fmtIsFinite_cursor s) hneg (fmtSign_ofNat _)) hmod

/-! ### The fraction (R164, R165) -/

/-- The exact difference of a finite position and its floor is its remainder by one, so from 0 on and below one. -/
theorem units_sub_floor {pos : Word} (h : fmtIsFinite pos = true) :
    fmtUnits pos + fmtUnits (fmtNeg (fmtFloor pos)) = fmtUnits pos % (oneUnits : Int) := by
  rw [fmtUnits_neg, (fmtFloor_units h).1, Int.emod_def, fmtFloorInt, mul_comm, sub_eq_add_neg]

theorem fmtIsFinite_neg_floor {pos : Word} (h : fmtIsFinite pos = true) :
    fmtIsFinite (fmtNeg (fmtFloor pos)) = true :=
  (fmtIsFinite_neg _).trans (fmtFloor_units h).2

/-- At an integer the floor is the position itself in value and in sign, so that the difference is +0.0 (R165). -/
theorem fraction_of_integer (d : Nat → Word) {pos : Word} (h : fmtIsFinite pos = true)
    (h0 : fmtUnits pos % (oneUnits : Int) = 0) : fraction d pos = 0x0000000000000000#64 := by
  obtain ⟨hmag, hsign⟩ := fmtAdd_zero_sum (d 8) h (fmtIsFinite_neg_floor h) ((units_sub_floor h).trans h0)
  rw [fmtSign_neg, fmtSign_floor, Bool.and_not_self] at hsign
  exact fmt_ext hsign hmag

/-- Between integers the exact difference lies between 0 and 1, and is rounded into that interval (R164). -/
theorem fraction_between (d : Nat → Word) {pos : Word} (h : fmtIsFinite pos = true)
    (h0 : fmtUnits pos % (oneUnits : Int) ≠ 0) :
    fmtSign (fraction d pos) = false ∧ fmtMag (fraction d pos) ≤ fmtMag fmtOne := by
  have hone : (0 : Int) < (oneUnits : Int) := by exact_mod_cast oneUnits_pos
  have hlow := Int.emod_nonneg (fmtUnits pos) hone.ne'
  have hhigh := Int.emod_lt_of_pos (fmtUnits pos) hone
  rw [← units_sub_floor h] at h0 hlow hhigh
  obtain ⟨hsign, -, hmag⟩ := fmtAdd_between (d 8) (lo := 0) h (fmtIsFinite_neg_floor h) (hlow.lt_of_ne' h0)
    (by simpa using hlow) (by rw [magUnits_fmtOne]; exact hhigh.le) (Nat.zero_le _) (by decide)
  exact ⟨hsign, hmag⟩

/-! ### The taps of a read (R167, R169, R170) -/

/-- WRAP as one floored modulus (R120). -/
theorem wrap_eq_toNat_emod (x : Int) {c : Nat} (hc : 0 < c) : wrap x c = (x % (c : Int)).toNat := by
  rw [← wrap_eq_emod x hc, Int.toNat_natCast]

theorem capacity_pos {s : State} (h : s.capacity ≠ 0#32) : 0 < s.capacity.toNat := by
  bv_omega

/-- The history word at an integer position, taken modulo the capacity. -/
def wrappedWord (s : State) (n : Int) : Word := histWord s (n % (s.capacity.toNat : Int)).toNat

theorem histWord_wrap {s : State} (hc : s.capacity ≠ 0#32) (n : Int) :
    histWord s (wrap n s.capacity.toNat) = wrappedWord s n := by
  rw [wrap_eq_toNat_emod n (capacity_pos hc), wrappedWord]

theorem readHistory_linear (d : Nat → Word) {s : State} {pos : Word} (hr : s.status.ready = true)
    (hc : s.capacity ≠ 0#32) (hm : s.interpMode = .linear) (hp : fmtIsFinite pos = true) :
    readHistory d s pos = .ok (lerp d (wrappedWord s (fmtFloorInt pos)) (wrappedWord s (fmtCeilInt pos))
      (fraction d pos)) := by
  unfold readHistory
  rw [hm]
  simp only [readLinear_of_ready d pos hr (capacity_pos hc), fmtToInt_floor hp, fmtToInt_ceil hp, histWord_wrap hc]

theorem readHistory_cubic (d : Nat → Word) {s : State} {pos : Word} (hr : s.status.ready = true)
    (hc : s.capacity ≠ 0#32) (hm : s.interpMode = .cubic) (hp : fmtIsFinite pos = true) :
    readHistory d s pos = .ok (cubicKernel d (wrappedWord s (fmtFloorInt pos - 1)) (wrappedWord s (fmtFloorInt pos))
      (wrappedWord s (fmtFloorInt pos + 1)) (wrappedWord s (fmtFloorInt pos + 2)) (fraction d pos)) := by
  unfold readHistory
  rw [hm]
  simp only [readCubic_of_ready d pos hr (capacity_pos hc), fmtToInt_floor hp, histWord_wrap hc]

/-! ### The actions (R166, R169, R175, R201) -/

theorem exec_seqFdlRead (s : State) : exec .seqFdlRead s = execSeqFdlRead s := rfl

theorem exec_seqFdlRead_of_finite {s : State} {w : Word} (hp : fmtIsFinite (readPos (drawn s) s) = true)
    (hw : readHistory (drawn s) s (readPos (drawn s) s) = .ok w) :
    exec .seqFdlRead s = .next (drew (goto .downmix { s with wet := w })) := by
  rw [exec_seqFdlRead, execSeqFdlRead, if_pos hp, hw]

theorem exec_seqFdlRead_of_nonfinite {s : State} (hp : fmtIsFinite (readPos (drawn s) s) = false) :
    exec .seqFdlRead s = .next (drew (goto .downmix (raise .nonfinite { s with wet := drawn s 9 }))) := by
  rw [exec_seqFdlRead, execSeqFdlRead, if_neg (Bool.eq_false_iff.mp hp)]

theorem exec_seqWriteback_of_ready {s : State} (hr : s.status.ready = true) (hc : s.cursor.toNat < s.capacity.toNat) :
    exec .seqWriteback s = .next (drew (goto .cursorAdv
      { s with hist := histPut s.hist s.cursor.toNat (writebackValue (drawn s) s) })) := by
  change execSeqWriteback s = _
  rw [execSeqWriteback, histWrite_of_ready _ hr hc]

theorem exec_seqUpmix_of_inRange {s : State} (h : frameStart s + s.blkCh.toNat ≤ Config.frameMemWords) :
    exec .seqUpmix s = .next (drew (goto .writeback
      (upmixInto (drawn s) (upmixAddend (drawn s) s) (frameStart s) s.blkCh.toNat s))) :=
  if_pos (decide_eq_true h)

/-- An addend that is a zero leaves a frame without −0.0 and NaN as it is, bit for bit (R178, R201). -/
theorem frameWord_upmixInto_zero (d : Nat → Word) {p : Word} {base n : Nat} {s : State} (hp : fmtMag p = 0)
    (h : ∀ c < n, frameWord s (base + c) ≠ 0x8000000000000000#64 ∧ fmtIsNaN (frameWord s (base + c)) = false)
    (j : Nat) : frameWord (upmixInto d p base n s) j = frameWord s j := by
  rw [frameWord_upmixInto]
  split
  · next hj =>
    obtain ⟨c, rfl⟩ := Nat.exists_eq_add_of_le hj.1
    obtain ⟨hne, hnan⟩ := h c (by omega)
    exact fmtAdd_zero_right_of_ne_negZero _ hnan hne hp
  · rfl

/-! ### The statements -/

/-- Settles O36: the taps of a prepared core are the two history words around the position. -/
theorem linearReadInterpolatesTwoTaps : Obligations.LinearReadInterpolatesTwoTaps := by
  intro s hr hc hm d delay value pos a b t hp
  exact exec_seqFdlRead_of_finite hp (readHistory_linear d hr hc hm hp)

/-- Settles O37: the taps of a prepared core are the four history words around the floor of the position. -/
theorem cubicReadUsesFourTaps : Obligations.CubicReadUsesFourTaps := by
  intro s hr hc hm d pos n at_ xm1 x0 x1 x2 t c1 c2 c3 hp
  exact exec_seqFdlRead_of_finite hp (readHistory_cubic d hr hc hm hp)

/-- Settles O40: a history word reads as the stored value at the cursor and as before elsewhere. -/
theorem writebackStoresAtTheCursor : Obligations.WritebackStoresAtTheCursor := by
  intro s hr hc
  have hget := histPut_get s.hist s.cursor.toNat
  exact ⟨_, exec_seqWriteback_of_ready hr hc, rfl, (hget _ _).trans (if_pos rfl),
    fun i hi => (hget i _).trans (if_neg hi)⟩

/-- Settles O54: +0.0 at an integer, and otherwise a positive magnitude of at most 1. -/
theorem fractionLiesInTheUnitInterval : Obligations.FractionLiesInTheUnitInterval := by
  intro d pos h
  by_cases h0 : fmtUnits pos % (oneUnits : Int) = 0
  · rw [fraction_of_integer d h h0, fmtUnits_eq_zero.mpr (by decide)]
    exact ⟨by decide, le_refl _, Int.natCast_nonneg _, fun _ => rfl⟩
  · obtain ⟨hsign, hmag⟩ := fraction_between d h h0
    have hle := magUnits_le.mpr hmag
    rw [magUnits_fmtOne] at hle
    rw [fmtUnits_of_pos hsign]
    exact ⟨fmtIsFinite_of_mag_le fmtIsFinite_fmtOne hmag, Int.natCast_nonneg _, Int.ofNat_le.mpr hle,
      fun hint => absurd hint h0⟩

/-- Settles O58: the modulation is a zero, and the delay is finite as a factor of a finite product. -/
theorem zeroAmountIgnoresTheOscillator : Obligations.ZeroAmountIgnoresTheOscillator := by
  intro d s ha h
  have hmod := fmtMag_modulation_of_zero_amount ha h
  exact ⟨hmod, readPos_of_zero_modulation (fmtIsFinite_right_of_mul h) hmod⟩

/-- Settles O59: the addend is a zero, with the sign of WET. -/
theorem zeroWetmixLeavesTheFrame : Obligations.ZeroWetmixLeavesTheFrame := by
  intro s hmix hwet hrange hframe
  have haddend : fmtMag (upmixAddend (drawn s) s) = 0 := by
    rw [upmixAddend, hmix, fmtMul_zero_right _ hwet (by decide)]
    exact fmtMag_pack _ (by decide)
  refine ⟨_, exec_seqUpmix_of_inRange hrange, fun j => ?_⟩
  exact (frameWord_congr rfl rfl j).trans (frameWord_upmixInto_zero _ haddend hframe j)

/-- Settles O35: WET holds the free value of the step, and the one status bit is ERR_NONFINITE's. -/
theorem nonfiniteReadPositionIsRecorded : Obligations.NonfiniteReadPositionIsRecorded := by
  intro s hp
  exact ⟨_, exec_seqFdlRead_of_nonfinite hp, rfl⟩

end Sys2Proof.Machine
end

section
/-! The channel mixer chapter (43_channel_mixer.md): the channel sum as a loop, and the mixer's two actions on a frame
in frame memory (R200, R201). -/

namespace Sys2Proof.Machine

/-! ### The actions (R200, R201) -/

/-- The channel sum is the loop of R200: a fold over the channel numbers in increasing order, from +0.0. -/
theorem channelSum_eq_foldl (d : Nat → Word) (s : State) (base n : Nat) :
    channelSum d s base n =
      (List.range n).foldl (fun acc c => fmtAdd (d c) acc (frameWord s (base + c))) 0#64 := by
  induction n with
  | zero => rfl
  | succ n ih => rw [channelSum, ih, List.range_succ, List.foldl_concat]

theorem exec_seqDownmix_of_inRange {s : State} (h : frameStart s + s.blkCh.toNat ≤ Config.frameMemWords) :
    exec .seqDownmix s = .next (drew (goto .upmix { s with monoIn := downmixValue (drawn s) s })) :=
  if_pos (decide_eq_true h)

/-- The word UPMIX leaves for a channel of the frame: its own word before plus the addend (R201). -/
theorem frameWord_upmixInto_channel (d : Nat → Word) (p : Word) {base n c : Nat} (s : State) (hc : c < n) :
    frameWord (upmixInto d p base n s) (base + c) = fmtAdd (d (c + 1)) (frameWord s (base + c)) p := by
  rw [frameWord_upmixInto, if_pos (by omega), Nat.add_sub_cancel_left]

/-! ### The statements -/

/-- Settles O38: the sum that DOWNMIX divides is the fold over the frame's channels. -/
theorem downmixAveragesTheChannels : Obligations.DownmixAveragesTheChannels := by
  intro s hrange
  rw [exec_seqDownmix_of_inRange hrange, downmixValue, channelSum_eq_foldl]
  rfl

/-- Settles O39: UPMIX changes the frame memory alone, there each channel's word, and no byte outside them. -/
theorem upmixAddsTheWetSignal : Obligations.UpmixAddsTheWetSignal := by
  intro s hrange
  refine ⟨_, exec_seqUpmix_of_inRange hrange, ?_, fun c hc => ?_, fun a ha => ?_⟩
  · rw [upmixInto_frame_only]
    rfl
  · exact (frameWord_congr rfl rfl _).trans (frameWord_upmixInto_channel _ _ s hc)
  · exact frameByte_upmixInto (drawn s) (upmixAddend (drawn s) s) (frameStart s) s.blkCh.toNat s ha

end Sys2Proof.Machine
end

section
/-! The sequencer chapter (44_sequencer.md): the commands a write to CMD carries, the order of the tick states and what
each of them owns, and how many steps a block takes (R228 to R248, R320, R373). -/

namespace Sys2Proof.Machine

/-! ### Commands (R228 to R234) -/

/-- A write to CMD is the command its word decodes to (R228, R272). -/
theorem exec_wrCmd (w : Word) (s : State) : exec (.wrCmd w) s = exec (commandInstr (decodeCommand w)) s := by
  change execWrCmd w s = _
  unfold execWrCmd
  cases decodeCommand w <;> rfl

/-- What a command does once it has passed the BUSY check. -/
def commandEffect : Command → State → State
  | .nop => id
  | .prepare => prepare
  | .process ch frames => process ch frames
  | .reserved _ => raise .cmd

/-- BUSY is the first check of every command (R228). -/
theorem exec_commandInstr (c : Command) (s : State) : exec (commandInstr c) s = unlessBusy s (commandEffect c) := by
  cases c <;> rfl

theorem exec_command_of_busy {s : State} (hb : s.status.busy = true) (c : Command) :
    exec (commandInstr c) s = .next (raise .busy s) :=
  (exec_commandInstr c s).trans (if_pos hb)

theorem exec_command_of_idle {s : State} (hb : s.status.busy = false) (c : Command) :
    exec (commandInstr c) s = .next (commandEffect c s) :=
  (exec_commandInstr c s).trans (if_neg (Bool.eq_false_iff.mp hb))

/-- An idle core runs the command the written word decodes to. -/
theorem exec_wrCmd_of_idle {s : State} {w : Word} {c : Command} (hb : s.status.busy = false)
    (hw : decodeCommand w = c) : exec (.wrCmd w) s = .next (commandEffect c s) := by
  rw [exec_wrCmd, hw, exec_command_of_idle hb]

theorem decodeCommand_of_not_wellFormed {w : Word} (h : wellFormedCommand w = false) :
    decodeCommand w = .reserved w := by
  obtain ⟨h0, h1, h2⟩ := (wellFormedCommand_eq_false_iff w).mp h
  exact decodeCommand_reserved h0 h1 h2

/-- PREPARE with a rate it accepts allocates a history of as many words as the rate's floor says (R232). -/
theorem prepare_of_accepted {s : State} {n : Nat} (hr : s.status.ready = false)
    (hrate : rateAccepted s.sampleRate = true) (hn : fmtFloorInt s.sampleRate = (n : Int)) :
    prepare s =
      { s with
        capacity := BitVec.ofNat 32 n, hist := histZeroFill s.hist n, cursor := 0#32
        status := { s.status with ready := true } } := by
  obtain ⟨hfin, -⟩ := (rateAccepted_iff _).mp hrate
  have hcap : (fmtToInt (fmtFloor s.sampleRate)).toNat = n := by rw [fmtToInt_floor hfin, hn, Int.toNat_natCast]
  rcases prepare_cases s with ⟨hready | hrefused, -⟩ | ⟨-, -, hp⟩
  · exact absurd (hr.symm.trans hready) Bool.false_ne_true
  · exact absurd (hrefused.symm.trans hrate) Bool.false_ne_true
  · rw [hp, hcap]

theorem prepare_of_refused {s : State} (h : s.status.ready = true ∨ rateAccepted s.sampleRate = false) :
    prepare s = raise .prepare s := by
  rcases prepare_cases s with ⟨-, hp⟩ | ⟨hr, hrate, -⟩
  · exact hp
  · simp [hr, hrate] at h

theorem rateAccepted_eq_false {sr : Word}
    (h : fmtIsFinite sr = false ∨ fmtFloorInt sr < 1 ∨ (Config.maxCapacity : Int) < fmtFloorInt sr) :
    rateAccepted sr = false := by
  rw [Bool.eq_false_iff, ne_eq, rateAccepted_iff]
  rintro ⟨hfin, hlow, hhigh⟩
  rcases h with h | h | h
  · exact absurd (h.symm.trans hfin) Bool.false_ne_true
  · omega
  · omega

/-! ### START (R238, R239) -/

theorem exec_seqStart_of_ready {s : State} (hr : s.status.ready = true) (hf : s.blkFrames ≠ 0#20) :
    exec .seqStart s = .next (goto .fdlRead s) :=
  if_neg (by simp [hr, hf])

theorem exec_seqStart_of_bypass {s : State} (h : s.status.ready = false ∨ s.blkFrames = 0#20) :
    exec .seqStart s = .next (blockEnd s) :=
  if_pos h

/-! ### The order of the tick states, and what each owns (R240 to R246) -/

/-- Which state may follow which (R236 to R247). -/
def tickFollows : SeqState → SeqState → Prop
  | .idle, r => r = .idle
  | .start, r => r = .fdlRead ∨ r = .idle
  | .fdlRead, r => r = .downmix
  | .downmix, r => r = .upmix
  | .upmix, r => r = .writeback
  | .writeback, r => r = .cursorAdv
  | .cursorAdv, r => r = .oscAdv
  | .oscAdv, r => r = .fdlRead ∨ r = .idle

theorem tickFollows_of_seqEffect {s t : State} {q : SeqState} (hq : s.seqState = q) (he : SeqEffect s q t) :
    tickFollows q t.seqState := by
  cases he with
  | idles => exact hq
  | begins | nextFrame => exact .inl rfl
  | bypasses | lastFrame => exact .inr rfl
  | _ => rfl

/-- What a state that is not the owner leaves as it was: WET, MONO_IN, frame memory, the history, the cursor, and the
phase with the frame index (R241 to R246). -/
abbrev othersSame (q : SeqState) (s t : State) : Prop :=
  (q ≠ .fdlRead → t.wet = s.wet) ∧
  (q ≠ .downmix → t.monoIn = s.monoIn) ∧
  (q ≠ .upmix → t.frame = s.frame) ∧
  (q ≠ .writeback → t.hist = s.hist) ∧
  (q ≠ .cursorAdv → t.cursor = s.cursor) ∧
  (q ≠ .oscAdv → t.phase = s.phase ∧ t.frameIdx = s.frameIdx)

theorem othersSame_of_seqEffect {s t : State} {q : SeqState} (he : SeqEffect s q t) : othersSame q s t := by
  cases he with
  | mixesUp =>
    rw [upmixInto_frame_only]
    simp [othersSame]
  | _ => simp [othersSame]

/-! ### The steps a block has still to take (R240, R246, R373) -/

/-- Nothing but the state code, READY, the block's size and the frame index counts. -/
theorem stepsLeft_congr {s t : State} (hq : t.seqState = s.seqState) (hr : t.status.ready = s.status.ready)
    (hn : t.blkFrames = s.blkFrames) (hi : t.frameIdx = s.frameIdx) : stepsLeft t = stepsLeft s := by
  simp only [stepsLeft, hq, hr, hn, hi]

/-- The fields of the word that SEQ reads as (R34). -/
theorem seqWord_fields (s : State) :
    (seqWord s).extractLsb' 0 3 = seqCode s.seqState ∧ (seqWord s).extractLsb' 8 8 = s.blkCh ∧
      (seqWord s).extractLsb' 16 20 = s.blkFrames ∧ (seqWord s).extractLsb' 36 20 = s.frameIdx := by
  refine ⟨BitVec.extractLsb'_append_eq_right, ?ch, ?frames, ?idx⟩
  case ch =>
    exact (BitVec.extractLsb'_append_eq_of_le (by decide)).trans
      ((BitVec.extractLsb'_append_eq_of_le (by decide)).trans BitVec.extractLsb'_append_eq_right)
  case frames =>
    exact (BitVec.extractLsb'_append_eq_of_le (by decide)).trans
      ((BitVec.extractLsb'_append_eq_of_le (by decide)).trans
        ((BitVec.extractLsb'_append_eq_of_le (by decide)).trans BitVec.extractLsb'_append_eq_right))
  case idx =>
    exact (BitVec.extractLsb'_append_eq_of_le (by decide)).trans
      ((BitVec.extractLsb'_append_eq_of_le (by decide)).trans
        ((BitVec.extractLsb'_append_eq_of_le (by decide)).trans
          ((BitVec.extractLsb'_append_eq_of_le (by decide)).trans BitVec.extractLsb'_append_eq_right)))

theorem block_same_of_seqWord {s t : State} (h : seqWord t = seqWord s) :
    t.seqState = s.seqState ∧ t.blkFrames = s.blkFrames ∧ t.frameIdx = s.frameIdx := by
  obtain ⟨hq, -, hn, hi⟩ := seqWord_fields s
  obtain ⟨hq', -, hn', hi'⟩ := seqWord_fields t
  rw [h] at hq' hn' hi'
  refine ⟨?_, hn'.symm.trans hn, hi'.symm.trans hi⟩
  rw [← seqOfCode_seqCode t.seqState, ← hq', hq, seqOfCode_seqCode]

/-- While BUSY the Host changes neither SEQ nor READY (R43). -/
theorem stepsLeft_of_hostEffect {tr : Transaction} {s t : State} (hbusy : s.status.busy = true)
    (he : HostEffect tr s t) : stepsLeft t = stepsLeft s := by
  obtain ⟨-, hseq, -⟩ := blockStateSame_of_busy he hbusy
  obtain ⟨hq, hn, hi⟩ := block_same_of_seqWord hseq
  rcases renderStateSame_or_prepared he with ⟨-, -, -, -, -, -, hr⟩ | ⟨-, -, -, -, hidle, -⟩
  · exact stepsLeft_congr hq hr hn hi
  · exact absurd (hidle.symm.trans hbusy) Bool.false_ne_true

/-- The START step of a block that is ready, counted before the first frame. -/
theorem stepsLeft_of_start {s : State} (hq : s.seqState = .start) :
    stepsLeft s = if s.status.ready then 6 * s.blkFrames.toNat + 1 else 1 := by
  simp only [stepsLeft, hq]

theorem stepsLeft_pos {s : State} (h : Inv s) (hi : s.seqState ≠ .idle) : 0 < stepsLeft s := by
  obtain ⟨-, -, -, -, -, hidx⟩ := h
  cases hq : s.seqState with
  | idle => exact absurd hq hi
  | start =>
    rw [stepsLeft_of_start hq]
    split <;> omega
  | _ =>
    have hlt := hidx hi (by simp [hq])
    simp only [stepsLeft, hq]
    omega

/-- START takes the one step that is its own, whether a first tick or the end of the block follows (R238). -/
theorem stepsLeft_of_startEffect {s t : State} (h : Inv s) (hq : s.seqState = .start) (he : SeqEffect s .start t) :
    stepsLeft t + 1 = stepsLeft s := by
  obtain ⟨-, -, -, -, hfirst, -⟩ := h
  rw [stepsLeft_of_start hq]
  cases he with
  | bypasses hb => rcases hb with hr | hf <;> simp [stepsLeft, *]
  | begins hr hf => simp [stepsLeft, hr, hfirst hq]

/-- A tick state's action is one of the six steps of its frame (R240). -/
theorem stepsLeft_of_tickEffect {s t : State} {q : SeqState} (hlt : s.frameIdx.toNat < s.blkFrames.toNat)
    (hq : s.seqState = q) (hi : q ≠ .idle) (hs : q ≠ .start) (he : SeqEffect s q t) :
    stepsLeft t + 1 = stepsLeft s := by
  have hsucc := frameIdx_succ_toNat hlt
  cases he with
  | idles => exact absurd rfl hi
  | bypasses | begins => exact absurd rfl hs
  | mixesUp =>
    rw [upmixInto_frame_only]
    simp [stepsLeft, hq]
    omega
  | _ =>
    simp [stepsLeft, hq]
    omega

theorem stepsLeft_of_seqEffect {s t : State} (h : Inv s) (hi : s.seqState ≠ .idle)
    (he : SeqEffect s s.seqState t) : stepsLeft t + 1 = stepsLeft s := by
  by_cases hs : s.seqState = .start
  · exact stepsLeft_of_startEffect h hs (hs ▸ he)
  · obtain ⟨-, -, -, -, -, hlt⟩ := tickInv_of_inv h hi hs
    exact stepsLeft_of_tickEffect hlt rfl hi hs he

/-! ### Every action of a block in progress runs (R62, R63, R125, R328) -/

theorem exists_next_of_inv {s : State} (h : Inv s) : ∃ t, exec (seqInstr s.seqState) s = .next t := by
  by_cases hi : s.seqState = .idle
  · exact ⟨s, by rw [hi]; rfl⟩
  by_cases hs : s.seqState = .start
  · rw [hs]
    by_cases hb : s.status.ready = false ∨ s.blkFrames = 0#20
    · exact ⟨_, exec_seqStart_of_bypass hb⟩
    · obtain ⟨hready, hframes⟩ : s.status.ready = true ∧ s.blkFrames ≠ 0#20 := by simpa using hb
      exact ⟨_, exec_seqStart_of_ready hready hframes⟩
  obtain ⟨-, ⟨-, hafter⟩, hr, -, ⟨-, hfits⟩, hlt⟩ := tickInv_of_inv h hi hs
  obtain ⟨hcap, -, hcur, -⟩ := hafter hr
  have hframe : frameStart s + s.blkCh.toNat ≤ Config.frameMemWords :=
    calc frameStart s + s.blkCh.toNat = (s.frameIdx.toNat + 1) * s.blkCh.toNat := (Nat.succ_mul _ _).symm
      _ ≤ s.blkFrames.toNat * s.blkCh.toNat := Nat.mul_le_mul_right _ hlt
      _ ≤ Config.frameMemWords := hfits
  cases hq : s.seqState with
  | idle => exact absurd hq hi
  | start => exact absurd hq hs
  | fdlRead =>
    cases hp : fmtIsFinite (readPos (drawn s) s) with
    | false => exact ⟨_, exec_seqFdlRead_of_nonfinite hp⟩
    | true =>
      obtain ⟨w, hw⟩ := readHistory_of_ready (drawn s) (readPos (drawn s) s) hr hcap
      exact ⟨_, exec_seqFdlRead_of_finite hp hw⟩
  | downmix => exact ⟨_, exec_seqDownmix_of_inRange hframe⟩
  | upmix => exact ⟨_, exec_seqUpmix_of_inRange hframe⟩
  | writeback => exact ⟨_, exec_seqWriteback_of_ready hr hcur⟩
  | cursorAdv => exact ⟨_, exec_seqCursorAdv hcap⟩
  | oscAdv => exact ⟨_, exec_seqOscAdv s⟩

/-! ### A block from START on, with no turns listed (R248, R373) -/

/-- How often the block in progress has advanced the cursor: once per finished frame, and once more between
CURSOR_ADV and OSC_ADV (R245, R246). -/
def cursorMoves (s : State) : Nat := s.frameIdx.toNat + if s.seqState = .oscAdv then 1 else 0

/-- Only CURSOR_ADV moves the cursor; OSC_ADV counts that move to the frame it finishes. -/
theorem cursorMoves_of_seqEffect {s t : State} (h : Inv s) (hi : s.seqState ≠ .idle)
    (he : SeqEffect s s.seqState t) :
    (cursorMoves t = cursorMoves s ∧ t.cursor = s.cursor) ∨
      (cursorMoves t = cursorMoves s + 1 ∧ t.cursor = cursorNext s) := by
  generalize hq : s.seqState = q at he
  cases he with
  | idles => exact absurd hq hi
  | mixesUp =>
    rw [upmixInto_frame_only]
    exact .inl ⟨by simp [cursorMoves, hq], rfl⟩
  | advancesCursor => exact .inr ⟨by simp [cursorMoves, hq], rfl⟩
  | nextFrame | lastFrame =>
    obtain ⟨-, -, -, -, -, hlt⟩ := tickInv_of_inv h hi (by simp [hq])
    exact .inl ⟨by simp [cursorMoves, hq, frameIdx_succ_toNat hlt], rfl⟩
  | _ => exact .inl ⟨by simp [cursorMoves, hq], rfl⟩

/-- A block of a prepared core ends with every frame processed (R246, R247). -/
theorem frameIdx_of_blockEnd {s t : State} (h : Inv s) (hi : s.seqState ≠ .idle) (hr : s.status.ready = true)
    (he : SeqEffect s s.seqState t) (hend : t.seqState = .idle) : t.frameIdx = s.blkFrames := by
  generalize hq : s.seqState = q at he
  cases he with
  | idles => exact absurd hq hi
  | bypasses hb =>
    obtain ⟨-, -, -, -, hfirst, -⟩ := h
    rcases hb with hn | hf
    · exact absurd (hn.symm.trans hr) Bool.false_ne_true
    · exact (hfirst hq).trans hf.symm
  | lastFrame hl =>
    obtain ⟨-, -, -, -, -, hlt⟩ := tickInv_of_inv h hi (by simp [hq])
    rw [frameIdx_succ_toNat hlt] at hl
    exact BitVec.eq_of_toNat_eq ((frameIdx_succ_toNat hlt).trans (Nat.le_antisymm hlt hl))
  | _ => cases hend

/-- `u` is a state of the block that a prepared core accepted in `s`, run with no turns listed. -/
structure BlockRun (s u : State) : Prop where
  inv : Inv u
  turns : u.turns = []
  ready : u.status.ready = true
  blkFrames : u.blkFrames = s.blkFrames
  capacity : u.capacity = s.capacity
  host : u.host = s.host
  cursor : u.cursor.toNat = (s.cursor.toNat + cursorMoves u) % s.capacity.toNat
  ended : u.seqState = .idle → u.frameIdx = s.blkFrames

theorem blockRun_start {s : State} (h : Inv s) (ht : s.turns = []) (hq : s.seqState = .start)
    (hr : s.status.ready = true) : BlockRun s s := by
  obtain ⟨-, ⟨-, hafter⟩, -, -, hfirst, -⟩ := id h
  obtain ⟨-, -, hcur, -⟩ := hafter hr
  have hmoves : cursorMoves s = 0 := by simp [cursorMoves, hq, hfirst hq]
  refine ⟨h, ht, hr, rfl, rfl, rfl, ?_, by simp [hq]⟩
  rw [hmoves, Nat.add_zero, Nat.mod_eq_of_lt hcur]

/-- The Sequencer alone moves, and each of its steps is one of the block's. -/
theorem BlockRun.exists_step {s u : State} (h : BlockRun s u) (hi : u.seqState ≠ .idle) :
    ∃ v, step u = .next v ∧ BlockRun s v ∧ stepsLeft v + 1 = stepsLeft u := by
  obtain ⟨v, hv⟩ := exists_next_of_inv h.inv
  have he : SeqEffect u u.seqState v := seqEffect_of_next hv
  obtain ⟨-, -, -, -, -, -, -, -, hcap, hready, -, hframes, -, hhost, hturns⟩ := hostStateSame_of_seqEffect he
  obtain ⟨-, ⟨-, hafter⟩, -⟩ := h.inv
  obtain ⟨hpos, -⟩ := hafter h.ready
  refine ⟨v, (step_of_run (fetch_of_no_turns_running h.turns hi)).trans hv, ?_, stepsLeft_of_seqEffect h.inv hi he⟩
  exact {
    inv := inv_of_seqEffect h.inv he
    turns := hturns.trans h.turns
    ready := hready.trans h.ready
    blkFrames := hframes.trans h.blkFrames
    capacity := hcap.trans h.capacity
    host := hhost.trans h.host
    cursor := by
      rcases cursorMoves_of_seqEffect h.inv hi he with ⟨hm, hc⟩ | ⟨hm, hc⟩
      · rw [hc, hm, h.cursor]
      · rw [hc, hm, cursorNext_toNat hpos, h.cursor, h.capacity, Nat.mod_add_mod, Nat.add_assoc]
    ended := fun hend => (frameIdx_of_blockEnd h.inv hi h.ready he hend).trans h.blkFrames }

theorem run_succ_of_step {M : Host.Core} {s t : M.State} (k : Nat) (h : M.step s = .next t) :
    M.run (k + 1) s = M.run k t := by
  rw [Host.Core.run, h]

/-- As long as the block has steps left, k steps of the machine are k steps of the block. -/
theorem BlockRun.exists_run {s u : State} (h : BlockRun s u) {k : Nat} (hk : k ≤ stepsLeft u) :
    ∃ v : State, Host.Core.run Sys2Proof.core k u = .next v ∧ BlockRun s v ∧ stepsLeft v + k = stepsLeft u := by
  induction k generalizing u with
  | zero => exact ⟨u, rfl, h, rfl⟩
  | succ k ih =>
    have hi : u.seqState ≠ .idle := fun hq => by simp [stepsLeft, hq] at hk
    obtain ⟨v, hv, hrun, hleft⟩ := h.exists_step hi
    obtain ⟨w, hw, hend, hsteps⟩ := ih hrun (by omega)
    exact ⟨w, (run_succ_of_step (M := Sys2Proof.core) k hv).trans hw, hend, by omega⟩

theorem BlockRun.idle_of_stepsLeft {s u : State} (h : BlockRun s u) (h0 : stepsLeft u = 0) :
    u.seqState = .idle := by
  by_contra hi
  exact absurd h0 (stepsLeft_pos h.inv hi).ne'

/-- BUSY lasts as long as the block has steps left (R22, R247). -/
theorem BlockRun.busy_of_stepsLeft {s u : State} (h : BlockRun s u) (hpos : 0 < stepsLeft u) :
    u.status.busy = true := by
  obtain ⟨-, -, hbusy, -⟩ := h.inv
  exact hbusy.mpr fun hq => by simp [stepsLeft, hq] at hpos

theorem BlockRun.busy_of_idle {s u : State} (h : BlockRun s u) (hq : u.seqState = .idle) :
    u.status.busy = false := by
  obtain ⟨-, -, hbusy, -⟩ := h.inv
  exact Bool.eq_false_iff.mpr fun hb => hbusy.mp hb hq

/-- At the end of the block the cursor has moved once per frame. -/
theorem BlockRun.cursor_of_idle {s u : State} (h : BlockRun s u) (hq : u.seqState = .idle) :
    u.cursor.toNat = (s.cursor.toNat + s.blkFrames.toNat) % s.capacity.toNat := by
  have hmoves : cursorMoves u = s.blkFrames.toNat := by simp [cursorMoves, hq, h.ended hq]
  rw [h.cursor, hmoves]

/-! ### The statements -/

/-- Settles O30: such a rate is one PREPARE accepts, and both forms of the command run it. -/
theorem prepareAllocatesTheHistory : Obligations.PrepareAllocatesTheHistory := by
  intro s n hb hr hfin hn hlow hhigh
  have hrate : rateAccepted s.sampleRate = true :=
    (rateAccepted_iff _).mpr ⟨hfin, by omega, by simp only [Config.maxCapacity]; omega⟩
  refine ⟨_, exec_command_of_idle hb .prepare, exec_wrCmd_of_idle hb decodeCommand_prepare, ?_⟩
  rw [commandEffect, prepare_of_accepted hr hrate hn]
  refine ⟨rfl, ?capacity, fun i hi => ?below, fun i hi => ?above⟩
  case capacity =>
    rw [BitVec.toNat_ofNat]
    omega
  case below => exact (histZeroFill_get s.hist n i).trans (if_pos hi)
  case above => exact (histZeroFill_get s.hist n i).trans (if_neg (Nat.not_lt.mpr hi))

/-- Settles O31: each of the conditions makes PREPARE refuse, and raising ERR_PREPARE is all it does then. -/
theorem prepareRefusesOtherRates : Obligations.PrepareRefusesOtherRates := by
  intro s hb h
  have hp : prepare s = raise .prepare s := prepare_of_refused (h.imp_right rateAccepted_eq_false)
  exact (exec_command_of_idle hb .prepare).trans (congrArg _ hp)

/-- Settles O48, by the effect of the action. -/
theorem tickStatesFollowTheOrder : Obligations.TickStatesFollowTheOrder := by
  intro s t _ hexec
  have he := seqEffect_of_next hexec
  have hnext : ∀ q, s.seqState = q → tickFollows q t.seqState := fun q hq => tickFollows_of_seqEffect hq (hq ▸ he)
  exact ⟨hnext .start, hnext .fdlRead, hnext .downmix, hnext .upmix, hnext .writeback, hnext .cursorAdv,
    hnext .oscAdv, othersSame_of_seqEffect he⟩

/-- Settles O49: an action takes one of the steps left, and a transaction, the core being BUSY, changes nothing that
their number is counted from. -/
theorem sequencerProgressIsSteady : Obligations.SequencerProgressIsSteady := by
  refine ⟨fun s t h hi hexec => stepsLeft_of_seqEffect h hi (seqEffect_of_next hexec), fun s t tr h hi hexec => ?_⟩
  obtain ⟨-, -, hbusy, -⟩ := h
  exact stepsLeft_of_hostEffect (hbusy.mpr hi) (hostEffect_of_next hexec)

/-- Settles O50: the block has 6·BLK_FRAMES + 1 steps left at START, every step takes one, and the state that has none
left is the block's end. -/
theorem blockTakesSixStepsPerFrame : Obligations.BlockTakesSixStepsPerFrame := by
  intro s h ht hq
  refine ⟨fun hr _ => ?_, fun hb => ?_⟩
  · have hstart : BlockRun s s := blockRun_start h ht hq hr
    have hsteps : stepsLeft s = 6 * s.blkFrames.toNat + 1 := by rw [stepsLeft_of_start hq, if_pos hr]
    obtain ⟨t, hrun, hend, hleft⟩ := hstart.exists_run hsteps.ge
    have hidle : t.seqState = .idle := hend.idle_of_stepsLeft (by omega)
    refine ⟨t, hrun, hidle, hend.busy_of_idle hidle, hend.ended hidle, hend.host, hend.cursor_of_idle hidle,
      fun n hn => ?_⟩
    obtain ⟨u, hu, hmid, hrest⟩ := hstart.exists_run (k := n) (by omega)
    exact ⟨u, hu, hmid.busy_of_stepsLeft (by omega)⟩
  · have hstep : step s = exec .seqStart s :=
      (step_of_run (fetch_of_no_turns_running ht (by simp [hq]))).trans (by rw [hq]; rfl)
    exact run_succ_of_step (M := Sys2Proof.core) 0 (hstep.trans (exec_seqStart_of_bypass hb))

/-- Settles O28: every word decodes to a command, and each command checks BUSY first. -/
theorem busyDropsEveryCommand : Obligations.BusyDropsEveryCommand := by
  intro s w ch frames hb
  have hdrop : ∀ c, exec (commandInstr c) s = .next (raise .busy s) := exec_command_of_busy hb
  exact ⟨(exec_wrCmd w s).trans (hdrop _), hdrop .nop, hdrop .prepare, hdrop (.process ch frames),
    hdrop (.reserved w)⟩

/-- Settles O29: word 0 decodes to NOP, and a word that is not well formed to a reserved command. -/
theorem nopAndReservedCommands : Obligations.NopAndReservedCommands := by
  intro s
  refine ⟨decodeCommand_nop, fun hb => exec_command_of_busy hb .nop, fun hb => ?_⟩
  exact ⟨exec_command_of_idle hb .nop, exec_wrCmd_of_idle hb decodeCommand_nop,
    fun w => exec_command_of_idle hb (.reserved w),
    fun w hw => exec_wrCmd_of_idle hb (decodeCommand_of_not_wellFormed hw)⟩

/-- Settles O32, by the three outcomes of PROCESS, in the order of its checks. -/
theorem processAcceptsOrRefusesABlock : Obligations.ProcessAcceptsOrRefusesABlock := by
  intro s ch frames hb
  refine ⟨_, exec_command_of_idle hb (.process ch frames),
    exec_wrCmd_of_idle hb (decodeCommand_processWord ch frames), ?_⟩
  have hzero : ch = 0#8 ↔ ch.toNat = 0 := BitVec.toNat_eq
  rcases process_cases ch frames s with ⟨hch, hp⟩ | ⟨hch, hbig, hp⟩ | ⟨hch, hfits, hp⟩
  · exact hp.trans (if_pos (hzero.mp hch)).symm
  · exact hp.trans ((if_neg (hzero.not.mp hch)).trans (if_pos hbig)).symm
  · exact hp.trans ((if_neg (hzero.not.mp hch)).trans (if_neg (Nat.not_lt.mpr hfits))).symm

/-- Settles O33: the row of IDLE is the step that changes nothing. -/
theorem idleKeepsTheState : Obligations.IdleKeepsTheState := fun _ => rfl

/-- Settles O34: the guard passes exactly for a ready core with frames to process. -/
theorem startGuardsTheBlock : Obligations.StartGuardsTheBlock :=
  fun _ => ⟨exec_seqStart_of_ready, exec_seqStart_of_bypass⟩

end Sys2Proof.Machine
end

section
/-! The host interface chapter (45_host_interface.md): the encoding of each access, what each register reads as, what a
write leaves in it, the frame port, and the accesses that are refused (R270 to R299). -/

namespace Sys2Proof.Machine

/-! ### The encoding of an access (R64, R91) -/

/-- A full-size read at a register's offset is that register's read, whatever its data lines carry. -/
theorem decodeTransaction_readAt (r : Reg) (d : Word) :
    decodeTransaction (readAt (BitVec.ofNat 24 (regOffset r)) d) = readInstr r :=
  decodeTransaction_register false r d

theorem decodeTransaction_writeAt (r : Reg) (v : Word) :
    decodeTransaction (writeAt (BitVec.ofNat 24 (regOffset r)) v) = writeInstr v r :=
  decodeTransaction_register true r v

/-! ### The frame port (R282, R283) -/

theorem exec_wrFrame_of_busy {s : State} (hb : s.status.busy = true) (i : Nat) (v : Word) :
    exec (.wrFrame i v) s = .next (raise .busy s) :=
  if_pos hb

theorem exec_rdFrame_of_busy {s : State} (hb : s.status.busy = true) (i : Nat) :
    exec (.rdFrame i) s = .next (drew (returned (drawn s 0) (raise .busy s))) :=
  if_pos hb

/-- The bytes of frame word i hold the word stored there, little-endian (R67). -/
theorem frameByte_set_inside (s : State) (i : Nat) (v : Word) {k : Nat} (hk : k < 8) :
    frameByte (frameSet s i v) (frameOffset i + k) = leByte v k := by
  rw [frameByte_set, if_pos ⟨Nat.le_add_right _ _, Nat.add_lt_add_left hk _⟩, Nat.add_sub_cancel_left]

/-- A store to frame word i leaves every byte outside its eight. -/
theorem frameByte_set_outside (s : State) (i : Nat) (v : Word) {a : Nat}
    (ha : a < frameOffset i ∨ frameOffset i + 8 ≤ a) : frameByte (frameSet s i v) a = frameByte s a := by
  rw [frameByte_set, if_neg (by omega)]

/-! ### The words the registers read as (R274 to R298) -/

/-- The word a register reads as, for the registers whose read is never refused: all but CMD and DBG_DATA. -/
def registerWord (s : State) : Reg → Option Word
  | .id => some Config.idWord
  | .status => some (statusWord s.status)
  | .cmd => none
  | .sampleRate => some s.sampleRate
  | .capacity => some (s.capacity.zeroExtend 64)
  | .cursor => some (s.cursor.zeroExtend 64)
  | .phase => some s.phase
  | .delaySecs => some s.delaySecs
  | .feedback => some s.feedback
  | .wetmix => some s.wetmix
  | .amount => some s.amount
  | .rate => some s.rate
  | .interpMode => some ((modeCode s.interpMode).zeroExtend 64)
  | .seq => some (seqWord s)
  | .dbgIndex => some (s.dbgIndex.zeroExtend 64)
  | .dbgData => none

/-- A read returns the register's word and has no other effect (R73). -/
theorem exec_readInstr {s : State} {r : Reg} {v : Word} (h : registerWord s r = some v) :
    exec (readInstr r) s = .next { s with readData := v } := by
  cases r <;> cases h <;> rfl

/-- The whole access: its encoding is the read, and the read returns the register's word. -/
theorem register_read {s : State} {r : Reg} {v : Word} (h : registerWord s r = some v) (d : Word) :
    decodeTransaction (readAt (BitVec.ofNat 24 (regOffset r)) d) = readInstr r ∧
      exec (readInstr r) s = .next { s with readData := v } :=
  ⟨decodeTransaction_readAt r d, exec_readInstr h⟩

theorem modeCode_word (m : InterpMode) : (modeCode m).zeroExtend 64 = if m = .cubic then 1#64 else 0#64 := by
  cases m <;> rfl

/-! ### The word of STATUS (R22, R275) -/

/-- The bits of STATUS by number (R22). -/
def statusBit (st : Status) : Nat → Bool
  | 0 => st.ready
  | 1 => st.busy
  | 8 => st.errCmd
  | 9 => st.errBusy
  | 10 => st.errPrepare
  | 11 => st.errChannels
  | 12 => st.errBlock
  | 13 => st.errNonfinite
  | 14 => st.errAccess
  | 15 => st.errDbg
  | _ => false

theorem statusWord_getLsbD (st : Status) (k : Nat) : (statusWord st).getLsbD k = statusBit st k := by
  simp only [statusWord, BitVec.getLsbD_or, bitAt_getLsbD, Nat.reduceLT]
  unfold statusBit
  split <;> simp_all

theorem statusBit_reserved (st : Status) {k : Nat} (hk : (2 ≤ k ∧ k ≤ 7) ∨ 16 ≤ k) : statusBit st k = false := by
  unfold statusBit
  split
  case h_11 => rfl
  all_goals omega

/-! ### The word of SEQ (R34, R297) -/

/-- The bits of SEQ between and above its fields are 0; `seqWord_fields` has the others. -/
theorem seqWord_reserved (s : State) :
    (seqWord s).extractLsb' 3 5 = 0#5 ∧ (seqWord s).extractLsb' 56 8 = 0#8 := by
  refine ⟨?low, ?high⟩
  case low => exact (BitVec.extractLsb'_append_eq_of_le (by decide)).trans BitVec.extractLsb'_append_eq_right
  case high =>
    exact (BitVec.extractLsb'_append_eq_of_le (by decide)).trans
      ((BitVec.extractLsb'_append_eq_of_le (by decide)).trans
        ((BitVec.extractLsb'_append_eq_of_le (by decide)).trans
          ((BitVec.extractLsb'_append_eq_of_le (by decide)).trans BitVec.extractLsb'_append_eq_left)))

/-! ### The debug port (R293) -/

theorem exec_rdDbgData_of_refused {s : State}
    (h : s.status.ready = false ∨ s.status.busy = true ∨ s.capacity.toNat ≤ s.dbgIndex.toNat) :
    exec .rdDbgData s = .next (returned 0#64 (raise .dbg s)) :=
  if_pos h

theorem exec_rdDbgData_of_ready {s : State} (hr : s.status.ready = true) (hb : s.status.busy = false)
    (hi : s.dbgIndex.toNat < s.capacity.toNat) :
    exec .rdDbgData s = .next (returned (histWord s s.dbgIndex.toNat) s) :=
  if_neg (by simp [hr, hb, hi])

/-! ### Conditional writes (R277, R296, R299) -/

theorem exec_wrSampleRate_of_ready {s : State} (hr : s.status.ready = true) (v : Word) :
    exec (.wrSampleRate v) s = .next (raise .access s) :=
  if_pos hr

theorem exec_wrSampleRate_of_not_ready {s : State} (hr : s.status.ready = false) (v : Word) :
    exec (.wrSampleRate v) s = .next { s with sampleRate := v } :=
  if_neg (Bool.eq_false_iff.mp hr)

theorem exec_wrInterpMode (v : Word) (s : State) :
    exec (.wrInterpMode v) s =
      .next ((modeOfWord v).elim (raise .access s) fun m => { s with interpMode := m }) := by
  change execWrInterpMode v s = _
  unfold execWrInterpMode
  cases modeOfWord v <;> rfl

/-- A word is its MODE field and the bits above it. -/
theorem mode_fields_ext {v w : Word} (hhigh : v.extractLsb' 2 62 = w.extractLsb' 2 62)
    (hlow : v.extractLsb' 0 2 = w.extractLsb' 0 2) : v = w := by
  have hsplit : ∀ x : Word, x.extractLsb' 2 62 ++ x.extractLsb' 0 2 = x := fun x =>
    (BitVec.extractLsb'_append_extractLsb'_eq_extractLsb' rfl).trans BitVec.extractLsb'_eq_self
  rw [← hsplit v, ← hsplit w, hhigh, hlow]

/-- A word with a reserved bit set or a reserved MODE selects no mode: 0 and 1 have neither (R33, R96). -/
theorem modeOfWord_of_reserved {v : Word}
    (h : v.extractLsb' 2 62 ≠ 0#62 ∨ v.extractLsb' 0 2 = 2#2 ∨ v.extractLsb' 0 2 = 3#2) : modeOfWord v = none := by
  have h0 : v ≠ 0#64 := by
    rintro rfl
    exact absurd h (by decide)
  have h1 : v ≠ 1#64 := by
    rintro rfl
    exact absurd h (by decide)
  exact (if_neg h0).trans (if_neg h1)

theorem exec_wrDbgIndex (v : Word) (s : State) :
    exec (.wrDbgIndex v) s =
      .next ((dbgIndexOfWord v).elim (raise .access s) fun i => { s with dbgIndex := i }) := by
  change execWrDbgIndex v s = _
  unfold execWrDbgIndex
  cases dbgIndexOfWord v <;> rfl

/-- Bits 63:32 of a word are 0 exactly when its number fits in 32 bits. -/
theorem high_half_eq_zero_iff (v : Word) : v.extractLsb' 32 32 = 0#32 ↔ v.toNat < 2 ^ 32 := by
  have hv := v.isLt
  rw [BitVec.toNat_eq, BitVec.extractLsb'_toNat, Nat.shiftRight_eq_div_pow, BitVec.toNat_ofNat]
  omega

theorem dbgIndexOfWord_of_large {v : Word} (h : 2 ^ 32 ≤ v.toNat) : dbgIndexOfWord v = none :=
  if_neg fun hzero => Nat.not_lt.mpr h ((high_half_eq_zero_iff v).mp hzero)

theorem dbgIndexOfWord_of_small {v : Word} (h : v.toNat < 2 ^ 32) :
    dbgIndexOfWord v = some (v.extractLsb' 0 32) :=
  if_pos ((high_half_eq_zero_iff v).mpr h)

theorem low_half_toNat {v : Word} (h : v.toNat < 2 ^ 32) : (v.extractLsb' 0 32).toNat = v.toNat := by
  rw [BitVec.extractLsb'_toNat, Nat.shiftRight_zero, Nat.mod_eq_of_lt h]

/-! ### Refused accesses (R270, R271) -/

/-- The registers that only the core writes (R271). -/
def readOnly : Reg → Bool
  | .id | .status | .capacity | .cursor | .phase | .seq | .dbgData => true
  | _ => false

theorem exec_writeInstr_of_readOnly {r : Reg} (h : readOnly r = true) (v : Word) (s : State) :
    exec (writeInstr v r) s = .next (raise .access s) := by
  cases r <;> cases h <;> rfl

/-- The whole access: its encoding is the write, and the write raises ERR_ACCESS and changes nothing else. -/
theorem register_write_refused {r : Reg} (h : readOnly r = true) (v : Word) (s : State) :
    decodeTransaction (writeAt (BitVec.ofNat 24 (regOffset r)) v) = writeInstr v r ∧
      exec (writeInstr v r) s = .next { s with status := { s.status with errAccess := true } } :=
  ⟨decodeTransaction_writeAt r v, exec_writeInstr_of_readOnly h v s⟩

/-- The accesses the check refuses, by their numbers (R65, R79, R270). -/
theorem illegalAccess_iff (offset : BitVec 24) (lanesOff : BitVec 8) :
    illegalAccess offset lanesOff = true ↔
      lanesOff ≠ 0#8 ∨ offset.toNat % 8 ≠ 0 ∨ (0x080 ≤ offset.toNat ∧ offset.toNat ≤ 0xFFF) ∨
        0x1000 + 8 * 65536 ≤ offset.toNat := by
  simp only [illegalAccess, Bool.or_eq_true, bne_iff_ne, Bool.and_eq_true, decide_eq_true_eq, or_assoc]
  simp only [Config.frameEnd, Config.frameBase, Config.frameMemWords, Nat.lt_succ_iff]

/-! ### The statements -/

/-- Settles O26: the write is the store of the word, whose bytes `frameByte_set` gives. -/
theorem frameWriteStoresTheBytes : Obligations.FrameWriteStoresTheBytes := by
  intro s i v hi
  refine ⟨decodeTransaction_frame true hi v, fun hb => exec_wrFrame_of_busy hb i v, fun hb => ?_⟩
  exact ⟨frameSet s i v, exec_wrFrame_of_idle hi hb v, rfl, fun _ hk => frameByte_set_inside s i v hk,
    fun _ ha => frameByte_set_outside s i v ha⟩

/-- Settles O7, by the dispatch on the decoded word. -/
theorem writeToCmdRunsTheCommand : Obligations.WriteToCmdRunsTheCommand := fun s w => exec_wrCmd w s

/-- Settles O15: each of the twelve is the read of a register's word; a 32-bit register reads as its number. -/
theorem registerReadsReturnTheValue : Obligations.RegisterReadsReturnTheValue := by
  intro s d
  have hnumber : ∀ x : BitVec 32, some (x.zeroExtend 64) = some (BitVec.ofNat 64 x.toNat) :=
    fun x => congrArg some (BitVec.ofNat_toNat 64 x).symm
  exact ⟨register_read (r := .id) rfl d, register_read (r := .sampleRate) rfl d,
    register_read (r := .capacity) (hnumber s.capacity) d,
    register_read (r := .cursor) (hnumber s.cursor) d,
    register_read (r := .phase) rfl d, register_read (r := .delaySecs) rfl d,
    register_read (r := .feedback) rfl d, register_read (r := .wetmix) rfl d,
    register_read (r := .amount) rfl d, register_read (r := .rate) rfl d,
    register_read (r := .interpMode) (congrArg some (modeCode_word s.interpMode)) d,
    register_read (r := .dbgIndex) (hnumber s.dbgIndex) d⟩

/-- Settles O16: the word read has the bits of STATUS by number. -/
theorem statusReadLaysOutTheBits : Obligations.StatusReadLaysOutTheBits := by
  intro s d
  have hbit : ∀ k, (statusWord s.status).getLsbD k = statusBit s.status k := statusWord_getLsbD s.status
  exact ⟨decodeTransaction_readAt .status d, statusWord s.status, exec_readInstr (r := .status) rfl,
    hbit 0, hbit 1, hbit 8, hbit 9, hbit 10, hbit 11, hbit 12, hbit 13, hbit 14, hbit 15,
    fun k hk => (hbit k).trans (statusBit_reserved s.status hk)⟩

/-- Settles O17: the fields of the word read, and the bits between and above them. -/
theorem seqReadLaysOutTheFields : Obligations.SeqReadLaysOutTheFields := by
  intro s d
  obtain ⟨hstate, hch, hframes, hidx⟩ := seqWord_fields s
  obtain ⟨hlow, hhigh⟩ := seqWord_reserved s
  exact ⟨decodeTransaction_readAt .seq d, seqWord s, exec_readInstr (r := .seq) rfl,
    hstate, hlow, hch, hframes, hidx, hhigh⟩

/-- Settles O18: the two outcomes of the debug port's check. -/
theorem debugPortReadsTheHistory : Obligations.DebugPortReadsTheHistory :=
  fun _ d => ⟨decodeTransaction_readAt .dbgData d, exec_rdDbgData_of_refused, exec_rdDbgData_of_ready⟩

/-- Settles O19: while BUSY the value returned is the step's free value, and the step counts as one that drew. -/
theorem frameReadReturnsTheWord : Obligations.FrameReadReturnsTheWord := by
  intro s i d hi
  exact ⟨decodeTransaction_frame false hi d, fun hb => ⟨_, exec_rdFrame_of_busy hb i, rfl⟩,
    fun hb => exec_rdFrame_of_idle hi hb⟩

/-- Settles O20: none of the five writes has a condition, so each is its field's update by definition. -/
theorem parameterWritesAreStoredAsTheyAre : Obligations.ParameterWritesAreStoredAsTheyAre := by
  intro s v
  exact ⟨⟨decodeTransaction_writeAt .delaySecs v, rfl⟩, ⟨decodeTransaction_writeAt .feedback v, rfl⟩,
    ⟨decodeTransaction_writeAt .wetmix v, rfl⟩, ⟨decodeTransaction_writeAt .amount v, rfl⟩,
    ⟨decodeTransaction_writeAt .rate v, rfl⟩⟩

/-- Settles O21: the two outcomes of the lock. -/
theorem sampleRateWriteLocksOnceReady : Obligations.SampleRateWriteLocksOnceReady :=
  fun _ v => ⟨decodeTransaction_writeAt .sampleRate v, fun hr => exec_wrSampleRate_of_not_ready hr v,
    fun hr => exec_wrSampleRate_of_ready hr v⟩

/-- Settles O22: a word is 0 or 1 when its reserved bits are 0 and MODE is, and is neither when one of them is not. -/
theorem interpModeWriteRejectsReservedValues : Obligations.InterpModeWriteRejectsReservedValues := by
  intro s v
  refine ⟨decodeTransaction_writeAt .interpMode v, fun h => ?reserved, fun hhigh hlow => ?linear,
    fun hhigh hlow => ?cubic⟩
  case reserved =>
    rw [exec_wrInterpMode, modeOfWord_of_reserved h]
    rfl
  case linear =>
    have hv : v = 0#64 := mode_fields_ext (hhigh.trans (by decide)) (hlow.trans (by decide))
    rw [exec_wrInterpMode, hv]
    rfl
  case cubic =>
    have hv : v = 1#64 := mode_fields_ext (hhigh.trans (by decide)) (hlow.trans (by decide))
    rw [exec_wrInterpMode, hv]
    rfl

/-- Settles O23: a word with bits 63:32 at 0 is a 32-bit index, and its low half is that index. -/
theorem dbgIndexWriteRejectsHighBits : Obligations.DbgIndexWriteRejectsHighBits := by
  intro s v
  refine ⟨decodeTransaction_writeAt .dbgIndex v, fun hlarge => ?_, fun hsmall => ?_⟩
  · rw [exec_wrDbgIndex, dbgIndexOfWord_of_large hlarge]
    rfl
  · rw [exec_wrDbgIndex, dbgIndexOfWord_of_small hsmall]
    exact ⟨_, rfl, rfl, low_half_toNat hsmall⟩

/-- Settles O24: the seven registers are the read-only ones, and a read of CMD is refused by definition. -/
theorem forbiddenDirectionsAreRefused : Obligations.ForbiddenDirectionsAreRefused := by
  intro s v
  exact ⟨register_write_refused (r := .id) rfl v s, register_write_refused (r := .status) rfl v s,
    register_write_refused (r := .capacity) rfl v s, register_write_refused (r := .cursor) rfl v s,
    register_write_refused (r := .phase) rfl v s, register_write_refused (r := .seq) rfl v s,
    register_write_refused (r := .dbgData) rfl v s, decodeTransaction_readAt .cmd v, rfl⟩

/-- Settles O25: these are the accesses the check refuses, and the two directions of a refused access differ only in
the 0 a read returns. -/
theorem illegalAccessesAreRefused : Obligations.IllegalAccessesAreRefused := by
  refine ⟨fun tr h => ⟨_, decodeTransaction_of_illegal ((illegalAccess_iff tr.offset tr.lanesOff).mpr h)⟩, ?_⟩
  exact fun s offset lanesOff data => ⟨rfl, rfl⟩

end Sys2Proof.Machine
end

section
/-! The exceptions chapter (60_exceptions.md): which error bit a step raises, what becomes of the bits raised before it,
and why no error stops either agent (R310 to R315, R328). -/

namespace Sys2Proof.Machine

/-! ### The error bits from one state to the next (R310, R312) -/

/-- From s to t the bit of c has been raised, or none where there is no c, and every other error bit is as it was. -/
def raisesOnly (c : Option ErrorCause) (s t : State) : Prop :=
  ∀ e : ErrorCause, statusError e t.status = (decide (c = some e) || statusError e s.status)

theorem raisesOnly_raise (c : ErrorCause) (s : State) : raisesOnly (some c) s (raise c s) := by
  intro e
  rw [raise_status, statusError_statusWith]
  simp [eq_comm]

theorem raisesOnly_none {s t : State} (h : ∀ e : ErrorCause, statusError e t.status = statusError e s.status) :
    raisesOnly none s t := h

theorem raisesOnly_none_of_status {s t : State} (h : t.status = s.status) : raisesOnly none s t :=
  raisesOnly_none fun e => congrArg (statusError e) h

theorem errorsKept_of_raisesOnly {c : Option ErrorCause} {s t : State} (h : raisesOnly c s t) : errorsKept s t := by
  intro e he
  rw [h e, he, Bool.or_true]

theorem statusError_of_raisesOnly {c : Option ErrorCause} {s t : State} (h : raisesOnly c s t) {e : ErrorCause}
    (he : c ≠ some e) : statusError e t.status = statusError e s.status := by
  rw [h e, decide_eq_false he, Bool.false_or]

/-! ### What each agent raises (R315, R316) -/

/-- A refused PREPARE raises its own error, an accepted one none (R232). -/
theorem raisesOnly_prepare (s : State) : ∃ c, raisesOnly c s (prepare s) := by
  rcases prepare_cases s with ⟨-, hp⟩ | ⟨-, -, hp⟩ <;> rw [hp]
  · exact ⟨_, raisesOnly_raise .prepare s⟩
  · exact ⟨_, raisesOnly_none fun e => statusError_withReady e s.status true⟩

/-- The checks of PROCESS stop at the first that fails (R234, R320). -/
theorem raisesOnly_process (ch : BitVec 8) (frames : BitVec 20) (s : State) :
    ∃ c, raisesOnly c s (process ch frames s) := by
  rcases process_cases ch frames s with ⟨-, hp⟩ | ⟨-, -, hp⟩ | ⟨-, -, hp⟩ <;> rw [hp]
  · exact ⟨_, raisesOnly_raise .channels s⟩
  · exact ⟨_, raisesOnly_raise .block s⟩
  · exact ⟨_, raisesOnly_none fun e => statusError_withBusy e s.status true⟩

/-- A transaction raises at most one error. -/
theorem raisesOnly_of_hostEffect {tr : Transaction} {s t : State} (he : HostEffect tr s t) :
    ∃ c, raisesOnly c s t := by
  cases he with
  | refusesRead c v => exact ⟨_, raisesOnly_raise c s⟩
  | refuses c => exact ⟨_, raisesOnly_raise c s⟩
  | freeRead => exact ⟨_, raisesOnly_raise .busy s⟩
  | prepares => exact raisesOnly_prepare s
  | processes _ ch frames => exact raisesOnly_process ch frames s
  | _ => exact ⟨_, raisesOnly_none_of_status rfl⟩

/-- An action of the Sequencer raises an error only where FDL_READ finds no finite read position (R166). -/
theorem raisesOnly_of_seqEffect {s t : State} {q : SeqState} (he : SeqEffect s q t) :
    raisesOnly none s t ∨ (q = .fdlRead ∧ raisesOnly (some .nonfinite) s t) := by
  cases he with
  | readsNothing => exact .inr ⟨rfl, raisesOnly_raise .nonfinite _⟩
  | mixesUp => exact .inl (raisesOnly_none_of_status (upmixInto_status _ _ _ _ s))
  | bypasses => exact .inl (raisesOnly_none fun e => statusError_withBusy e s.status false)
  | lastFrame => exact .inl (raisesOnly_none fun e => statusError_withBusy e s.status false)
  | _ => exact .inl (raisesOnly_none_of_status rfl)

/-- Any step but a reset raises at most one error and keeps those raised before (R312, R315). -/
theorem raisesOnly_of_step {s t : State} (hnoreset : s.turns.head? ≠ some .reset) (hstep : step s = .next t) :
    ∃ c, raisesOnly c s t := by
  cases stepEffect_of_next hstep with
  | resets hr => exact absurd hr hnoreset
  | waits => exact ⟨_, raisesOnly_none_of_status rfl⟩
  | transacts _ _ he => exact raisesOnly_of_hostEffect (s := { afterTurn s with host := _ }) he
  | acts _ he =>
    rcases raisesOnly_of_seqEffect he with hnone | ⟨-, hnonfinite⟩
    · exact ⟨_, hnone⟩
    · exact ⟨_, hnonfinite⟩

/-! ### Reset (R312, R350) -/

theorem noError_coreReset (s : State) : noError (coreReset s) := by
  intro c
  cases c <;> rfl

theorem step_of_reset_turn {s : State} (h : s.turns.head? = some .reset) :
    step s = .next (coreReset (afterTurn s)) := by
  rcases fetch_cases s with ⟨-, hf⟩ | ⟨hr, -⟩ | ⟨hr, -⟩ | ⟨hr, -⟩
  · exact step_of_quiet hf
  all_goals exact absurd h hr

/-! ### Every transaction runs, in every state (R328) -/

theorem exists_next_of_read (r : Reg) (s : State) : ∃ t, exec (readInstr r) s = .next t := by
  cases r with
  | dbgData =>
    by_cases h : s.status.ready = false ∨ s.status.busy = true ∨ s.capacity.toNat ≤ s.dbgIndex.toNat
    · exact ⟨_, exec_rdDbgData_of_refused h⟩
    · exact ⟨_, if_neg h⟩
  | _ => exact ⟨_, rfl⟩

theorem exists_next_of_wrCmd (w : Word) (s : State) : ∃ t, exec (.wrCmd w) s = .next t := by
  rw [exec_wrCmd]
  cases hb : s.status.busy with
  | true => exact ⟨_, exec_command_of_busy hb _⟩
  | false => exact ⟨_, exec_command_of_idle hb _⟩

theorem exists_next_of_write (r : Reg) (v : Word) (s : State) : ∃ t, exec (writeInstr v r) s = .next t := by
  cases r with
  | cmd => exact exists_next_of_wrCmd v s
  | sampleRate =>
    cases hr : s.status.ready with
    | true => exact ⟨_, exec_wrSampleRate_of_ready hr v⟩
    | false => exact ⟨_, exec_wrSampleRate_of_not_ready hr v⟩
  | interpMode => exact ⟨_, exec_wrInterpMode v s⟩
  | dbgIndex => exact ⟨_, exec_wrDbgIndex v s⟩
  | _ => exact ⟨_, rfl⟩

theorem exists_next_of_frameRead {i : Nat} (hi : i < Config.frameMemWords) (s : State) :
    ∃ t, exec (.rdFrame i) s = .next t := by
  cases hb : s.status.busy with
  | true => exact ⟨_, exec_rdFrame_of_busy hb i⟩
  | false => exact ⟨_, exec_rdFrame_of_idle hi hb⟩

theorem exists_next_of_frameWrite {i : Nat} (hi : i < Config.frameMemWords) (v : Word) (s : State) :
    ∃ t, exec (.wrFrame i v) s = .next t := by
  cases hb : s.status.busy with
  | true => exact ⟨_, exec_wrFrame_of_busy hb i v⟩
  | false => exact ⟨_, exec_wrFrame_of_idle hi hb v⟩

theorem exists_next_of_illegal (tr : Transaction) (s : State) : ∃ t, exec (illegalInstr tr) s = .next t := by
  cases hw : tr.write with
  | true => exact ⟨_, if_pos hw⟩
  | false => exact ⟨_, if_neg (Bool.eq_false_iff.mp hw)⟩

/-- The decoder gives out no frame index outside frame memory (R63, R91), the one thing a transaction could fault on. -/
theorem exists_next_of_transaction (tr : Transaction) (s : State) : ∃ t, exec (decodeTransaction tr) s = .next t := by
  rcases decodeTransaction_cases tr with
    ⟨r, -, -, hd⟩ | ⟨r, -, -, hd⟩ | ⟨i, hi, -, hd⟩ | ⟨i, hi, -, hd⟩ | ⟨-, hd⟩ <;> rw [hd]
  · exact exists_next_of_read r s
  · exact exists_next_of_write r tr.data s
  · exact exists_next_of_frameRead hi s
  · exact exists_next_of_frameWrite hi tr.data s
  · exact exists_next_of_illegal tr s

/-! ### The statements -/

/-- Settles O14, by what the step fetches: a transaction runs in every state, an action of the Sequencer where the
invariant holds, which the turn it consumed does not touch. -/
theorem invStepsNeverStop : Obligations.InvStepsNeverStop := by
  intro s h
  rcases fetch_cases s with ⟨-, hf⟩ | ⟨-, -, hf⟩ | ⟨-, item, rest, -, hf⟩ | ⟨-, hf⟩
  · exact ⟨_, step_of_quiet hf⟩
  · exact ⟨_, step_of_quiet hf⟩
  · rw [step_of_run hf]
    exact exists_next_of_transaction _ _
  · rw [step_of_run hf]
    exact exists_next_of_inv (s := afterTurn s) h

/-- Settles O43: a step but a reset only ever adds a bit, and reset starts from the cleared STATUS. -/
theorem errorBitsAreSticky : Obligations.ErrorBitsAreSticky := by
  refine ⟨?kept, ?idempotent, ?cleared⟩
  case kept =>
    intro s t hnoreset hstep
    obtain ⟨c, hc⟩ := raisesOnly_of_step hnoreset hstep
    exact errorsKept_of_raisesOnly hc
  case idempotent =>
    intro c s hset
    exact congrArg (fun st => { s with status := st }) (statusWith_of_set hset)
  case cleared =>
    intro s t hreset hstep
    rw [step_of_reset_turn hreset] at hstep
    cases hstep
    exact noError_coreReset _

/-- Settles O44: every bit but the raised one is as it was; where none is raised any cause bounds the change. -/
theorem atMostOneErrorPerStep : Obligations.AtMostOneErrorPerStep := by
  refine ⟨?one, ?sequencer⟩
  case one =>
    intro s t hnoreset hstep
    obtain ⟨c, hc⟩ := raisesOnly_of_step hnoreset hstep
    refine ⟨c.getD .cmd, fun e he => statusError_of_raisesOnly hc ?_⟩
    rintro rfl
    exact he rfl
  case sequencer =>
    intro s t q hexec e
    rcases raisesOnly_of_seqEffect (seqEffect_of_next hexec) with hnone | ⟨hq, hnonfinite⟩
    · exact .inl (statusError_of_raisesOnly hnone nofun)
    · by_cases he : e = .nonfinite
      · exact .inr ⟨hq, he⟩
      · exact .inl (statusError_of_raisesOnly hnonfinite fun h => he (Option.some.inj h).symm)

end Sys2Proof.Machine
end

section
/-! The reset and hazards chapter (70_reset_and_hazards.md): what a reset leaves of a block in progress and what of
the environment goes on. -/

namespace Sys2Proof.Machine

/-! ### The turn a step consumes (R70) -/

theorem afterTurn_turns_of_cons {s : State} {turn : Turn} {ts : List Turn} (h : s.turns = turn :: ts) :
    (afterTurn s).turns = ts :=
  congrArg List.tail h

/-! ### The statements -/

/-- Settles O11: the step is `coreReset`, which has every register from the reset table and keeps only the
environment's fields, the turn consumed. -/
theorem resetAbandonsTheBlock : Obligations.ResetAbandonsTheBlock := by
  intro s ts hturns
  have hreset : s.turns.head? = some .reset := congrArg List.head? hturns
  have hrest : (coreReset (afterTurn s)).turns = ts := afterTurn_turns_of_cons hturns
  exact ⟨coreReset (afterTurn s), step_of_reset_turn hreset, noError_coreReset _,
    rfl, rfl, rfl, rfl, rfl, rfl, rfl, rfl, rfl, rfl, rfl, rfl, rfl, rfl, rfl, rfl, rfl, hrest, rfl, rfl⟩

end Sys2Proof.Machine
end
